-- ==== Sys2Proof/Word.lean ====
section
/-! DEFINITION. The widths of the hardware: bytes, 32-bit words and 72-bit command words (spec/00_scope.md R10). -/

namespace Sys2Proof

/-- `u8` of the spec: a byte on the wire or in a buffer (R10). -/
abbrev Byte := BitVec 8

/-- `u32` of the spec: an argument, a response's data, an image word (R10). -/
abbrev Word := BitVec 32

/-- A command word CMD: OP in bits [7:0], ARG0 in [39:8], ARG1 in [71:40] (spec/30_encoding.md R90). -/
abbrev Command := BitVec 72

end Sys2Proof
end

