-- ==== Sys2Proof/Syntax.lean ====
section
/-! DEFINITION. The twelve commands of the block (spec/30_encoding.md R89, R91; spec/opcode_table.json). -/

namespace Sys2Proof

/-- The load kinds (spec/30_encoding.md R97). -/
inductive LoadKind where
  | shutdown
  | run
  | eeprom
  | eepromRun
  deriving DecidableEq, Repr

/-- The twelve operation codes that are not reserved (spec/30_encoding.md R91). -/
inductive Opcode where
  | init
  | readReg
  | lfsrSeed
  | lfsrStep
  | appendByte
  | appendWord
  | flush
  | receiveBit
  | handshake
  | waitForAck
  | loadImage
  | shutdown
  deriving DecidableEq, Repr

/-- A command with its operands; one constructor per row of spec/opcode_table.json. The image of LOAD_IMAGE comes
on the image port, not in the command (spec/30_encoding.md R96). -/
inductive Instr where
  /-- INIT (spec/40_control.md R114). -/
  | init
  /-- READ_REG index (spec/40_control.md R115). -/
  | readReg (index : Byte)
  /-- LFSR_SEED seed (spec/43_lfsr.md R173). -/
  | lfsrSeed (seed : Byte)
  /-- LFSR_STEP (spec/43_lfsr.md R174). -/
  | lfsrStep
  /-- APPEND_BYTE byte (spec/41_encoder.md R133). -/
  | appendByte (byte : Byte)
  /-- APPEND_WORD value (spec/41_encoder.md R134). -/
  | appendWord (value : Word)
  /-- FLUSH (spec/41_encoder.md R135). -/
  | flush
  /-- RECEIVE_BIT timeoutMs (spec/42_decoder.md R151). -/
  | receiveBit (timeoutMs : Word)
  /-- HANDSHAKE (spec/44_handshake.md R190). -/
  | handshake
  /-- WAIT_FOR_ACK maxRetries (spec/45_ack_retry.md R221). -/
  | waitForAck (maxRetries : Word)
  /-- LOAD_IMAGE kind, size (spec/46_load.md R240). -/
  | loadImage (kind : LoadKind) (size : Word)
  /-- SHUTDOWN (spec/46_load.md R243). -/
  | shutdown
  deriving DecidableEq, Repr

/-- The operation code of a command (spec/30_encoding.md R91). -/
def Instr.opcode : Instr → Opcode
  | .init => .init
  | .readReg _ => .readReg
  | .lfsrSeed _ => .lfsrSeed
  | .lfsrStep => .lfsrStep
  | .appendByte _ => .appendByte
  | .appendWord _ => .appendWord
  | .flush => .flush
  | .receiveBit _ => .receiveBit
  | .handshake => .handshake
  | .waitForAck _ => .waitForAck
  | .loadImage _ _ => .loadImage
  | .shutdown => .shutdown

end Sys2Proof
end

