-- ==== Sys2Proof/WellFormed.lean ====
section
/-! DEFINITION. Which terms of `Instr` a command word can stand for. -/

namespace Sys2Proof

/-- The largest register index READ_REG takes (spec/10_state.md R34, spec/30_encoding.md R92). -/
def maxRegisterIndex : Byte := 0x08#8

/-- The one check that the operands' types do not make: the register index of READ_REG is 0x00..0x08
(spec/30_encoding.md R91, R92). A command that fails it ends ILLEGAL (spec/40_control.md R111). -/
def Instr.wellFormed : Instr → Bool
  | .readReg index => index ≤ maxRegisterIndex
  | .init => true
  | .lfsrSeed _ => true
  | .lfsrStep => true
  | .appendByte _ => true
  | .appendWord _ => true
  | .flush => true
  | .receiveBit _ => true
  | .handshake => true
  | .waitForAck _ => true
  | .loadImage _ _ => true
  | .shutdown => true

end Sys2Proof
end

