-- ==== Sys2Proof/Decode.lean ====
section
/-! DEFINITION. From command words to commands and back (spec/30_encoding.md R90 to R93; spec/40_control.md R111). -/

namespace Sys2Proof

/-- OP, CMD[7:0] (spec/30_encoding.md R90). -/
def cmdOp (c : Command) : Byte := c.extractLsb' 0 8

/-- ARG0, CMD[39:8] (spec/30_encoding.md R90). -/
def cmdArg0 (c : Command) : Word := c.extractLsb' 8 32

/-- ARG1, CMD[71:40] (spec/30_encoding.md R90). -/
def cmdArg1 (c : Command) : Word := c.extractLsb' 40 32

/-- The word with the three given fields, the 72-bit number ARG1, ARG0, OP from the top (R90). -/
def mkCommand (op : Byte) (arg0 arg1 : Word) : Command := arg1 ++ arg0 ++ op

/-- The opcode map (spec/30_encoding.md R91). -/
def Opcode.code : Opcode → Byte
  | .init => 0x01#8
  | .readReg => 0x02#8
  | .lfsrSeed => 0x03#8
  | .lfsrStep => 0x04#8
  | .appendByte => 0x05#8
  | .appendWord => 0x06#8
  | .flush => 0x07#8
  | .receiveBit => 0x08#8
  | .handshake => 0x09#8
  | .waitForAck => 0x0A#8
  | .loadImage => 0x0B#8
  | .shutdown => 0x0C#8

/-- The opcode map read backwards; `none` for the reserved values 0x00 and 0x0D..0xFF (R91, R93). -/
def opcodeOf (op : Byte) : Option Opcode :=
  match op.toNat with
  | 0x01 => some .init
  | 0x02 => some .readReg
  | 0x03 => some .lfsrSeed
  | 0x04 => some .lfsrStep
  | 0x05 => some .appendByte
  | 0x06 => some .appendWord
  | 0x07 => some .flush
  | 0x08 => some .receiveBit
  | 0x09 => some .handshake
  | 0x0A => some .waitForAck
  | 0x0B => some .loadImage
  | 0x0C => some .shutdown
  | _ => none

/-- How many low bits of ARG0 the command uses; the bits above must be zero (spec/30_encoding.md R91). -/
def Opcode.arg0Bits : Opcode → Nat
  | .init => 0
  | .readReg => 8
  | .lfsrSeed => 8
  | .lfsrStep => 0
  | .appendByte => 8
  | .appendWord => 32
  | .flush => 0
  | .receiveBit => 32
  | .handshake => 0
  | .waitForAck => 32
  | .loadImage => 2
  | .shutdown => 0

/-- How many low bits of ARG1 the command uses; the bits above must be zero (spec/30_encoding.md R91). -/
def Opcode.arg1Bits : Opcode → Nat
  | .loadImage => 32
  | .init => 0
  | .readReg => 0
  | .lfsrSeed => 0
  | .lfsrStep => 0
  | .appendByte => 0
  | .appendWord => 0
  | .flush => 0
  | .receiveBit => 0
  | .handshake => 0
  | .waitForAck => 0
  | .shutdown => 0

/-- The codes of the load kinds, ARG0[1:0] of LOAD_IMAGE (spec/30_encoding.md R97). notes/assumptions/8.md. -/
def LoadKind.code : LoadKind → BitVec 2
  | .shutdown => 0#2
  | .run => 1#2
  | .eeprom => 2#2
  | .eepromRun => 3#2

/-- The load kind of a 2-bit code (spec/30_encoding.md R97). -/
def kindOf (code : BitVec 2) : LoadKind :=
  match code.toNat with
  | 0 => .shutdown
  | 1 => .run
  | 2 => .eeprom
  | _ => .eepromRun

/-- Why a command word is illegal (spec/30_encoding.md R93): dispatch ends it with the status ILLEGAL. -/
inductive DecodeError where
  /-- OP is 0x00 or 0x0D..0xFF. -/
  | reservedOpcode (op : Byte)
  /-- A must-be-zero bit of ARG0 or ARG1 is set. -/
  | mustBeZero (op : Opcode)
  /-- A READ_REG index above 0x08. -/
  | registerIndex (index : Byte)
  deriving DecidableEq, Repr

/-- The command of an operation code and its arguments, once the must-be-zero bits are checked. -/
def Opcode.withArgs (op : Opcode) (arg0 arg1 : Word) : Instr :=
  match op with
  | .init => .init
  | .readReg => .readReg (arg0.setWidth 8)
  | .lfsrSeed => .lfsrSeed (arg0.setWidth 8)
  | .lfsrStep => .lfsrStep
  | .appendByte => .appendByte (arg0.setWidth 8)
  | .appendWord => .appendWord arg0
  | .flush => .flush
  | .receiveBit => .receiveBit arg0
  | .handshake => .handshake
  | .waitForAck => .waitForAck arg0
  | .loadImage => .loadImage (kindOf (arg0.setWidth 2)) arg1
  | .shutdown => .shutdown

/-- The decoding checks of dispatch, in the order of spec/40_control.md R111: the opcode, then the must-be-zero
bits, then the register index. -/
def decode (c : Command) : Except DecodeError Instr :=
  match opcodeOf (cmdOp c) with
  | none => .error (.reservedOpcode (cmdOp c))
  | some op =>
    if cmdArg0 c >>> op.arg0Bits ≠ 0#32 ∨ cmdArg1 c >>> op.arg1Bits ≠ 0#32 then
      .error (.mustBeZero op)
    else
      let i := op.withArgs (cmdArg0 c) (cmdArg1 c)
      if i.wellFormed then .ok i else .error (.registerIndex ((cmdArg0 c).setWidth 8))

/-- The command word of `nbits` bits numbered as spec/opcode_table.json numbers them. The table's bits are CMD's
own; every bit from `nbits` up is 0. -/
def commandOfBits (nbits w : Nat) : Command := BitVec.ofNat 72 (w % 2 ^ nbits)

/-- The instruction the decoder reads from a table word; `none` where the word is illegal. -/
def decodeTableWord (nbits w : Nat) : Option Instr :=
  match decode (commandOfBits nbits w) with
  | .ok i => some i
  | .error _ => none

/-- ARG0 of a command (spec/30_encoding.md R91). A narrower operand is zero-extended (R92). -/
def Instr.arg0 : Instr → Word
  | .init => 0#32
  | .readReg index => index.setWidth 32
  | .lfsrSeed seed => seed.setWidth 32
  | .lfsrStep => 0#32
  | .appendByte byte => byte.setWidth 32
  | .appendWord value => value
  | .flush => 0#32
  | .receiveBit timeoutMs => timeoutMs
  | .handshake => 0#32
  | .waitForAck maxRetries => maxRetries
  | .loadImage kind _ => kind.code.setWidth 32
  | .shutdown => 0#32

/-- ARG1 of a command (spec/30_encoding.md R91). -/
def Instr.arg1 : Instr → Word
  | .loadImage _ size => size
  | .init => 0#32
  | .readReg _ => 0#32
  | .lfsrSeed _ => 0#32
  | .lfsrStep => 0#32
  | .appendByte _ => 0#32
  | .appendWord _ => 0#32
  | .flush => 0#32
  | .receiveBit _ => 0#32
  | .handshake => 0#32
  | .waitForAck _ => 0#32
  | .shutdown => 0#32

/-- The command word of a command (spec/30_encoding.md R90, R91). -/
def encode (i : Instr) : Command := mkCommand i.opcode.code i.arg0 i.arg1

end Sys2Proof
end

