-- ==== Sys2Proof/Config.lean ====
section
/-! DEFINITION. What an implementation fixes (spec/00_scope.md R8) and the free values the spec leaves open. -/

namespace Sys2Proof

/-- KIND_CODE, the 32-bit word sent for each load kind (spec/00_scope.md R8; spec/93_implementation_defined.md K1). The
kind field of a command word is another thing: its codes are fixed (`LoadKind.code`, spec/30_encoding.md R91, R97). -/
structure KindCodes where
  shutdown : Word
  run : Word
  eeprom : Word
  eepromRun : Word
  deriving DecidableEq, Repr

/-- The word for a kind. -/
def KindCodes.word (c : KindCodes) : LoadKind → Word
  | .shutdown => c.shutdown
  | .run => c.run
  | .eeprom => c.eeprom
  | .eepromRun => c.eepromRun

/-- The default of KIND_CODE: the values of spec/00_scope.md R8, which spec/30_encoding.md R97 and spec/46_load.md R241
and R243 write out. notes/assumptions/8.md. -/
def KindCodes.default : KindCodes := { shutdown := 0#32, run := 1#32, eeprom := 2#32, eepromRun := 3#32 }

/-- The parameters of an instance (spec/00_scope.md R8, spec/10_state.md R33): read-only, never written by a
command. A state carries them, so that a statement about every state holds for every instance. -/
structure Config where
  /-- TXCAP, the capacity of the transmit buffer in bytes. -/
  txCap : Nat
  /-- RXCAP, the capacity of the receive window in bytes. -/
  rxCap : Nat
  /-- MAX_IMAGE, the largest image LOAD_IMAGE accepts, in bytes. -/
  maxImage : Nat
  /-- KIND_CODE, the word sent for each load kind. -/
  kindCodes : KindCodes
  deriving DecidableEq, Repr

/-- The ranges R8 gives the parameters: TXCAP >= 1, RXCAP >= 1, MAX_IMAGE a multiple of 4. -/
abbrev Config.wf (c : Config) : Prop :=
  1 ≤ c.txCap ∧ 1 ≤ c.rxCap ∧ c.maxImage % 4 = 0

/-- The instance that `State.reset` stands for: the spec's test configuration (R8, spec/95_test_vectors.md) with the
default load-kind words. DESIGN CHOICE, notes/assumptions/3.md and 8.md: unsafe, R8 leaves the values open. -/
def Config.test : Config := { txCap := 1024, rxCap := 1024, maxImage := 32768, kindCodes := .default }

/-- FREE VALUE. What the transport does for the draw of the given number when no scripted answer is left:
`none`, the call has not returned yet; `some a`, it returns the first max bytes of `a`. Any sequence may come
back (spec/20_memory.md R58; spec/93_implementation_defined.md U8, S4, S5). notes/assumptions/2.md. -/
opaque Config.transportDraw : Nat → Option (List Byte)

/-- FREE VALUE. The image word sent for the draw of the given number when the host changes IMAGE during a
LOAD_IMAGE (spec/20_memory.md R66; spec/93_implementation_defined.md S2). notes/assumptions/4.md. -/
opaque Config.changedImageWord : Nat → Word

/-- FREE VALUE. What READ_REG answers for a register whose number does not fit in a u32: spec/10_state.md R34
states no value there. notes/assumptions/5.md. -/
opaque Config.wideRegister : Nat → Word

end Sys2Proof
end

