-- ==== Sys2Proof/Machine/State.lean ====
section
/-! DEFINITION. The state of the block, its ports' contents, and the state right after reset (spec/10_state.md). -/

namespace Sys2Proof.Machine

open Sys2Proof

/-- A byte-addressed space in canonical form: addresses strictly rising, and no entry equal to 0x00, what an
unlisted address reads as (the reset contents of both buffers, spec/70_reset_and_hazards.md R300). -/
abbrev Memory := List Host.Cell

/-- The three byte-addressed spaces (spec/20_memory.md R50). -/
inductive Space where
  | txbuf
  | rxbuf
  | image
  deriving DecidableEq, Repr

/-- The session states SESS (spec/10_state.md R23). -/
inductive Sess where
  | ready
  | linked
  | done
  | failed
  deriving DecidableEq, Repr

/-- The status codes (spec/30_encoding.md R94). The codes 5..7 are never produced and have no constructor. -/
inductive Status where
  | ok
  | timeout
  | error
  | precond
  | illegal
  deriving DecidableEq, Repr

/-- The handshake states HS_STATE (spec/10_state.md R29). The codes 10..15 are never held and have no constructor. -/
inductive HsState where
  | idle
  | reset
  | calibrationSent
  | patternSent
  | responseAwaited
  | responseVerifying
  | versionAwaited
  | done
  | error
  | timeout
  deriving DecidableEq, Repr

/-- The progress phases (spec/30_encoding.md R97). -/
inductive Phase where
  | handshakeStart
  | responseStart
  | versionStart
  | handshakeDone
  | program
  | eepromWrite
  | eepromVerify
  | done
  deriving DecidableEq, Repr

/-- The events on the block's ports (spec/00_scope.md R12). -/
inductive Event where
  /-- `TReset()` (spec/20_memory.md R56). -/
  | treset
  /-- `TTransmit(seq)` (R57). -/
  | ttransmit (seq : List Byte)
  /-- `TReceive(max, timeoutMs) -> answer` (R58). -/
  | treceive (max : Nat) (timeoutMs : Word) (answer : List Byte)
  /-- `Progress(phase, offset, total)` (R60). -/
  | progress (phase : Phase) (offset total : Word)
  /-- The response that ends a command (R61; spec/40_control.md R113). -/
  | response (status : Status) (data : Word)
  deriving DecidableEq, Repr

/-- Which acknowledgement LOAD_IMAGE waits for (spec/46_load.md R241 steps 5 and 6). -/
inductive AckPhase where
  | program
  | eepromWrite
  | eepromVerify
  deriving DecidableEq, Repr

/-- Where a command stands that waits for the transport, with the temporaries it still needs (spec/10_state.md R21,
R37): for the answer of a TReceive or, without end, for the return of another call. -/
inductive Pending where
  /-- RECEIVE_BIT in a refill. -/
  | receiveBit (timeoutMs : Word)
  /-- HANDSHAKE step 7 with so many response bits still to come, the awaited one included. -/
  | response (remaining : Nat)
  /-- HANDSHAKE step 8 with so many version bits still to come and the version accumulated so far. -/
  | version (remaining : Nat) (acc : Byte)
  /-- WAIT_FOR_ACK with so many attempts left, the one that waits included. -/
  | waitForAck (attempts : Nat)
  /-- A WaitForAck of LOAD_IMAGE. -/
  | load (phase : AckPhase) (kind : LoadKind) (size : Word) (attempts : Nat)
  /-- A command in a TReset or TTransmit that never returns (spec/70_reset_and_hazards.md R312). -/
  | hung (op : Opcode)
  deriving DecidableEq, Repr

/-- What the outside world may do to the block other than answer it. -/
inductive HostMove where
  /-- Present a command word on the command port, with the image on the image port (spec/20_memory.md R53, R61).
  `imageHeld`: the host keeps IMAGE unchanged until the response (spec/70_reset_and_hazards.md R310). -/
  | command (word : Command) (image : List Byte) (imageHeld : Bool)
  /-- Power-on reset (spec/70_reset_and_hazards.md R300). -/
  | blockReset
  deriving DecidableEq, Repr

/-- The state. `lfsr` to `busy` are the elements of spec/10_state.md R22; `cfg` holds the instance's parameters
(R33); `running` is the control state inside a command (R21, R37). The rest is the model's own: what the outside
world has ready for the block, and what the block has shown it. notes/assumptions/1.md, 2.md, 4.md. -/
@[ext]
structure State where
  /-- TXCAP, RXCAP, MAX_IMAGE and KIND_CODE. -/
  cfg : Config
  /-- LFSR (R27). -/
  lfsr : Byte
  /-- VERSION (R28). -/
  version : Byte
  /-- TXBUF (R31). -/
  txbuf : Memory
  /-- TXCUR (R31). -/
  txcur : Nat
  /-- RXBUF (R32). -/
  rxbuf : Memory
  /-- RXCUR (R32). -/
  rxcur : Nat
  /-- RXLEN (R32). -/
  rxlen : Nat
  /-- HS_STATE (R29). -/
  hsState : HsState
  /-- SESS (R23). -/
  sess : Sess
  /-- LAST_STATUS (R25). -/
  lastStatus : Status
  /-- BUSY (R26). -/
  busy : Bool
  /-- The command in progress that waits for the transport, if any (R21, R37). -/
  running : Option Pending
  /-- The host's moves not made yet, the next one first. -/
  host : List HostMove
  /-- IMAGE, as given with the command last accepted (spec/20_memory.md R53). -/
  image : List Byte
  /-- Whether the host keeps IMAGE unchanged during that command (R53, R66). -/
  imageHeld : Bool
  /-- The transport's answers to the next TReceive calls, the next one first (spec/20_memory.md R58). -/
  answers : List (List Byte)
  /-- Whether the transport's next TReset and TTransmit calls return, the next one first; a call beyond the list does
  (spec/20_memory.md R56, R57; spec/93_implementation_defined.md S5). -/
  returns : List Bool
  /-- How many free values were drawn. -/
  draws : Nat
  /-- Every event so far, the oldest first (spec/00_scope.md R12). -/
  trace : List Event
  deriving DecidableEq, Repr

/-- Why the machine stops with a fault. -/
inductive Fault where
  /-- An access at an address that the space does not have (spec/20_memory.md R50). Raised by the buffer and image
  accessors, only from states that break R31 or R32, or with an image shorter than a suspended read. Safe. -/
  | noSuchAddress (space : Space) (addr : Nat)
  /-- BUSY = 1 with no command in progress: no rule says what the block does. Raised by `step`, only from states
  that no run reaches (spec/10_state.md R26). Safe. -/
  | noCommandInProgress
  deriving DecidableEq, Repr

/-- Why the model gives a situation no meaning. -/
inductive Refusal where
  /-- The instruction has no meaning yet. Raised by `exec`'s arms alone. Safe. -/
  | notModelled (mnemonic : String)
  /-- A command presented while BUSY = 1: "the model does not admit the host move"
  (spec/93_implementation_defined.md S1). Raised by `dispatch`. Safe. -/
  | commandWhileBusy
  /-- A transport answer longer than max: "the oracle draw is not admitted"
  (spec/93_implementation_defined.md S3; spec/20_memory.md R58). Raised by `tReceive`. Safe. -/
  | answerTooLong (max len : Nat)
  deriving DecidableEq, Repr

/-- Right after block reset of the instance `cfg` (spec/70_reset_and_hazards.md R300, R302), with an outside world
that has made no move yet. -/
def State.resetOf (cfg : Config) : State where
  cfg := cfg
  lfsr := 0x00#8
  version := 0x00#8
  txbuf := []
  txcur := 0
  rxbuf := []
  rxcur := 0
  rxlen := 0
  hsState := .idle
  sess := .ready
  lastStatus := .ok
  busy := false
  running := none
  host := []
  image := []
  imageHeld := true
  answers := []
  returns := []
  draws := 0
  trace := []

/-- The machine right after reset, for the spec's test configuration. notes/assumptions/3.md. -/
def State.reset : State := State.resetOf Config.test

end Sys2Proof.Machine
end

