-- ==== Sys2Proof/Machine/Flags.lean ====
section
/-! DEFINITION. The codes of SESS, LAST_STATUS, HS_STATE and the progress phases, the STATUS register, and the
session gating. The block has no condition flags (spec/10_state.md R38): a command's outcome is its status. -/

namespace Sys2Proof.Machine

open Sys2Proof

/-- spec/10_state.md R23. -/
def Sess.code : Sess → BitVec 2
  | .ready => 0#2
  | .linked => 1#2
  | .done => 2#2
  | .failed => 3#2

/-- spec/30_encoding.md R94. -/
def Status.code : Status → BitVec 3
  | .ok => 0#3
  | .timeout => 1#3
  | .error => 2#3
  | .precond => 3#3
  | .illegal => 4#3

/-- spec/10_state.md R29. -/
def HsState.code : HsState → BitVec 4
  | .idle => 0#4
  | .reset => 1#4
  | .calibrationSent => 2#4
  | .patternSent => 3#4
  | .responseAwaited => 4#4
  | .responseVerifying => 5#4
  | .versionAwaited => 6#4
  | .done => 7#4
  | .error => 8#4
  | .timeout => 9#4

/-- spec/30_encoding.md R97. -/
def Phase.code : Phase → BitVec 3
  | .handshakeStart => 0#3
  | .responseStart => 1#3
  | .versionStart => 2#3
  | .handshakeDone => 3#3
  | .program => 4#3
  | .eepromWrite => 5#3
  | .eepromVerify => 6#3
  | .done => 7#3

/-- The STATUS register: HS_STATE in [8:5], LAST_STATUS in [4:2], SESS in [1:0], 0 above (spec/10_state.md R35). -/
def statusWord (hs : HsState) (last : Status) (sess : Sess) : Word :=
  (hs.code ++ last.code ++ sess.code).setWidth 32

/-- Allowed(OP, SESS) (spec/40_control.md R112). -/
def allowed (op : Opcode) (sess : Sess) : Bool :=
  match op with
  | .init => true
  | .readReg => true
  | .lfsrSeed => sess != .failed
  | .lfsrStep => sess != .failed
  | .appendByte => sess != .failed
  | .appendWord => sess != .failed
  | .flush => sess != .failed
  | .receiveBit => sess != .failed
  | .waitForAck => sess != .failed
  | .handshake => sess == .ready
  | .loadImage => sess == .linked
  | .shutdown => sess == .linked

/-- A kind that includes EEPROM persistence (spec/30_encoding.md R97). -/
def hasEeprom : LoadKind → Bool
  | .shutdown => false
  | .run => false
  | .eeprom => true
  | .eepromRun => true

/-- The statuses that make the session FAILED (spec/60_exceptions.md R273). -/
def isFailure : Status → Bool
  | .timeout => true
  | .error => true
  | .ok => false
  | .precond => false
  | .illegal => false

end Sys2Proof.Machine
end

