-- ==== Sys2Proof/Machine/Memory.lean ====
section
/-! DEFINITION. One byte-addressed space: read, write, and its canonical form (spec/20_memory.md R50). -/

namespace Sys2Proof.Machine

open Sys2Proof

/-- What an address that is not listed reads as: the reset contents (spec/70_reset_and_hazards.md R300). -/
def unlistedByte : Byte := 0x00#8

/-- `MemRead(space, a, 1)`. -/
def readByte : Memory → Nat → Byte
  | [], _ => unlistedByte
  | (k, v) :: m, a => if a = k then v else readByte m a

/-- The cell of a byte at an address, or none when it equals what an unlisted address reads as. -/
def cellOf (a : Nat) (b : Byte) : Memory := if b = unlistedByte then [] else [(a, b)]

/-- `MemWrite(space, a, 1, b)`. The canonical form is kept. -/
def writeByte : Memory → Nat → Byte → Memory
  | [], a, b => cellOf a b
  | (k, v) :: m, a, b =>
    if k < a then (k, v) :: writeByte m a b
    else if k = a then cellOf a b ++ m
    else cellOf a b ++ (k, v) :: m

/-- `MemWrite` of consecutive bytes, one at a time, from an address up. -/
def writeBytes : Memory → Nat → List Byte → Memory
  | m, _, [] => m
  | m, a, b :: bs => writeBytes (writeByte m a b) (a + 1) bs

/-- The canonical form: addresses strictly rising, no entry equal to what an unlisted address reads as. -/
def Memory.wf : Memory → Bool
  | [] => true
  | (k, v) :: m => v != unlistedByte && m.all (fun c => decide (k < c.1)) && Memory.wf m

/-- Every listed address is below the capacity (spec/20_memory.md R50). -/
def Memory.below (cap : Nat) (m : Memory) : Bool := m.all (fun c => decide (c.1 < cap))

end Sys2Proof.Machine
end

