-- ==== Sys2Proof/Machine/Wire.lean ====
section
/-! DEFINITION. The wire encoding and the shift register: symbols, EncodeWord, the reference decoder, the
classification of received bytes, the LFSR step (spec/30_encoding.md section 1; spec/43_lfsr.md). -/

namespace Sys2Proof.Machine

open Sys2Proof

/-- `zext_8` of one bit. -/
def bit8 (b : Bool) : Byte := if b then 0x01#8 else 0x00#8

/-- `zext_32` of one bit. -/
def bit32 (b : Bool) : Word := if b then 1#32 else 0#32

/-- The calibration byte and the probe byte of an acknowledgement attempt (spec/30_encoding.md R81). -/
def calibrationByte : Byte := 0xF9#8

/-- The byte of a connect-pattern bit, 0xFE | b (spec/30_encoding.md R81, R86). -/
def patternByte (b : Bool) : Byte := 0xFE#8 ||| bit8 b

/-- The byte WaitForAck takes as ACK (spec/30_encoding.md R88). -/
def ackByte : Byte := 0xFE#8

/-- Byte `i` of EncodeWord for the value `r` that remains at iteration `i` (spec/30_encoding.md R82). -/
def encodeGroup (i : Nat) (r : Word) : Byte :=
  let b := 0x92#8 ||| bit8 (r.getLsbD 0) ||| bit8 (r.getLsbD 1) <<< 3 ||| bit8 (r.getLsbD 2) <<< 6
  if i = 10 then b ||| 0x60#8 else b

/-- EncodeWord: 11 bytes, the least significant 3-bit group first (spec/30_encoding.md R82). Iteration `i` sees the
value shifted right by 3 bits `i` times. -/
def encodeWord (v : Word) : List Byte :=
  (List.range 11).map fun i => encodeGroup i (v >>> (3 * i))

/-- WordFramed of the reference decoder (spec/30_encoding.md R85). The block does not contain it. -/
def wordFramed (bs : List Byte) : Bool :=
  bs.length == 11 && (bs.take 10).all (fun b => b &&& 0xB6#8 == 0x92#8) &&
    (bs.drop 10).all (fun b => b &&& 0xF6#8 == 0xF2#8)

/-- The data bits of byte `j` of a word, as the reference decoder reads them (spec/30_encoding.md R85). -/
def decodeGroup (j : Nat) (b : Byte) : Word :=
  let d := bit32 (b.getLsbD 0) ||| bit32 (b.getLsbD 3) <<< 1
  if j < 10 then d ||| bit32 (b.getLsbD 6) <<< 2 else d

/-- DecodeWord of the bytes from byte `j` up, the rest of the loop of spec/30_encoding.md R85. -/
def decodeWordFrom (j : Nat) : List Byte → Word
  | [] => 0#32
  | b :: bs => decodeGroup j b <<< (3 * j) ||| decodeWordFrom (j + 1) bs

/-- DecodeWord of the reference decoder (spec/30_encoding.md R85). The block does not contain it. -/
def decodeWord (bs : List Byte) : Word := decodeWordFrom 0 bs

/-- What ReceiveBit makes of a received byte: `some` bit, or `none` for noise (spec/30_encoding.md R87). -/
def classify (x : Byte) : Option Bool :=
  if x = 0xFE#8 then some false
  else if x = 0xFF#8 then some true
  else none

/-- The bit LfsrStep emits: bit 0 before the step (spec/43_lfsr.md R170). -/
def lfsrBit (r : Byte) : Bool := r.getLsbD 0

/-- The register after LfsrStep (spec/43_lfsr.md R170). -/
def lfsrNext (r : Byte) : Byte :=
  (r <<< 1 &&& 0xFE#8) |||
    bit8 ((r.getLsbD 7 ^^ r.getLsbD 5) ^^ (r.getLsbD 4 ^^ r.getLsbD 1))

/-- The register after `n` steps. -/
def lfsrAfter : Nat → Byte → Byte
  | 0, r => r
  | n + 1, r => lfsrAfter n (lfsrNext r)

/-- The first `n` bits emitted from a register value. -/
def lfsrBits : Nat → Byte → List Bool
  | 0, _ => []
  | n + 1, r => lfsrBit r :: lfsrBits n (lfsrNext r)

/-- The handshake seed, the character 'P' (spec/43_lfsr.md R173; spec/44_handshake.md R190 step 2). -/
def handshakeSeed : Byte := 0x50#8

/-- The 509 bytes that a HANDSHAKE appends (spec/44_handshake.md R192). -/
def handshakeStream : List Byte :=
  calibrationByte :: (lfsrBits 250 handshakeSeed).map patternByte ++ List.replicate 258 calibrationByte

/-- The 250 bits the response must repeat, bits 250..499 of the sequence (spec/44_handshake.md R191). -/
def responseBits : List Bool := lfsrBits 250 (lfsrAfter 250 handshakeSeed)

/-- A version bit goes in at the top, so that bits arrive least significant first (spec/44_handshake.md R190
step 8). -/
def accumulateVersion (acc : Byte) (b : Bool) : Byte := acc >>> 1 ||| bit8 b <<< 7

/-- `{b3, b2, b1, b0}`: the little-endian word of four bytes, b0 at the lowest offset (spec/20_memory.md R54). -/
def littleEndian (b0 b1 b2 b3 : Byte) : Word := b3 ++ b2 ++ b1 ++ b0

end Sys2Proof.Machine
end

