-- ==== Sys2Proof/Machine/Ops.lean ====
section
/-! DEFINITION. The named operations of the block over its state: events, buffers, transmit, receive, the end of a
command, the failure entry and the way out of it, dispatch (spec/40_control.md to spec/60_exceptions.md). -/

namespace Sys2Proof.Machine

open Sys2Proof

/-- How a part of a command ends. -/
inductive Flow (α : Type) where
  /-- It ran to its end with a value. -/
  | done (a : α) (s : State)
  /-- It raised a status other than OK (`raise`, spec/00_scope.md R11). -/
  | fail (st : Status) (s : State)
  /-- It waits for the answer of a TReceive, the only suspension point there is (spec/20_memory.md R59). -/
  | wait (s : State)
  /-- It made a TReset or TTransmit call that never returns (spec/70_reset_and_hazards.md R312). -/
  | hung (s : State)
  /-- The machine stops. -/
  | fault (f : Fault)
  /-- The situation is not admitted. -/
  | refused (r : Refusal)
  deriving DecidableEq, Repr

/-- One part after the other, in textual order; the first that does not run to its end is the last
(spec/20_memory.md R62; spec/60_exceptions.md R273). -/
def Flow.bind {α β : Type} (x : Flow α) (f : α → State → Flow β) : Flow β :=
  match x with
  | .done a s => f a s
  | .fail st s => .fail st s
  | .wait s => .wait s
  | .hung s => .hung s
  | .fault e => .fault e
  | .refused r => .refused r

/-- Keeps where the command stands, if it waits (spec/10_state.md R21). -/
def Flow.waitingAs {α : Type} (x : Flow α) (p : Pending) : Flow α :=
  match x with
  | .wait s => .wait { s with running := some p }
  | .done a s => .done a s
  | .fail st s => .fail st s
  | .hung s => .hung s
  | .fault e => .fault e
  | .refused r => .refused r

/-- What a command still writes when a part of it raises a status. -/
def Flow.onFail {α : Type} (x : Flow α) (f : State → State) : Flow α :=
  match x with
  | .fail st s => .fail st (f s)
  | .done a s => .done a s
  | .wait s => .wait s
  | .hung s => .hung s
  | .fault e => .fault e
  | .refused r => .refused r

/-- One event on a port (spec/00_scope.md R12). -/
def State.emit (s : State) (e : Event) : State := { s with trace := s.trace ++ [e] }

/-- `Progress(phase, offset, total)` (spec/20_memory.md R60). -/
def progress (phase : Phase) (offset total : Word) (s : State) : State :=
  s.emit (.progress phase offset total)

/-- The state once a TReset or TTransmit call is made. -/
def State.called (s : State) (e : Event) : State := { s.emit e with returns := s.returns.tail }

/-- A TReset or TTransmit call (spec/20_memory.md R56, R57): its event, and nothing more of the command where the
transport never returns from it (spec/93_implementation_defined.md S5). notes/assumptions/2.md. -/
def callTransport (e : Event) (s : State) : Flow Unit :=
  if s.returns.headD true then .done () (s.called e) else .hung (s.called e)

/-! ## The transmit side (spec/41_encoder.md) -/

/-- The pending bytes TXBUF[0..TXCUR-1] (spec/10_state.md R31). -/
def pendingBytes (s : State) : List Byte := (List.range s.txcur).map (readByte s.txbuf)

/-- `MemWrite(TXBUF, a, 1, b)` (spec/20_memory.md R50, R51). -/
def writeTx (a : Nat) (b : Byte) (s : State) : Flow Unit :=
  if a < s.cfg.txCap then .done () { s with txbuf := writeByte s.txbuf a b }
  else .fault (.noSuchAddress .txbuf a)

/-- `Flush()` (spec/41_encoder.md R132): no event when nothing is pending; the bytes stay in TXBUF as stale
contents. -/
def flush (s : State) : Flow Unit :=
  if s.txcur = 0 then .done () s
  else if s.txcur ≤ s.cfg.txCap then
    (callTransport (.ttransmit (pendingBytes s)) s).bind fun _ s => .done () { s with txcur := 0 }
  else .fault (.noSuchAddress .txbuf s.cfg.txCap)

/-- `AppendByte(b)` (spec/41_encoder.md R130): a full buffer is flushed first. -/
def appendByte (b : Byte) (s : State) : Flow Unit :=
  (if s.txcur = s.cfg.txCap then flush s else .done () s).bind fun _ s =>
    (writeTx s.txcur b s).bind fun _ s =>
      .done () { s with txcur := s.txcur + 1 }

/-- AppendByte of each byte, in order. -/
def appendBytes : List Byte → State → Flow Unit
  | [], s => .done () s
  | b :: bs, s => (appendByte b s).bind fun _ s => appendBytes bs s

/-- `AppendWord(v)` (spec/41_encoder.md R131). -/
def appendWord (v : Word) (s : State) : Flow Unit := appendBytes (encodeWord v) s

/-! ## The shift register (spec/43_lfsr.md) -/

/-- The state after `LfsrStep()`; the bit it returns is `lfsrBit s.lfsr` (spec/43_lfsr.md R170). -/
def lfsrStep (s : State) : State := { s with lfsr := lfsrNext s.lfsr }

/-! ## The receive side (spec/42_decoder.md, spec/45_ack_retry.md) -/

/-- `TReceive(max, timeoutMs)` with the transport's answer, the further answers left in place
(spec/20_memory.md R58). -/
def tReceive (max : Nat) (timeoutMs : Word) (answer : List Byte) (rest : List (List Byte)) (s : State) :
    Flow Unit :=
  if answer.length ≤ max then
    .done () { s.emit (.treceive max timeoutMs answer) with answers := rest }
  else .refused (.answerTooLong max answer.length)

/-- `MemRead(RXBUF, a, 1)` (spec/20_memory.md R50, R52). -/
def readRx (a : Nat) (s : State) : Flow Byte :=
  if a < s.cfg.rxCap then .done (readByte s.rxbuf a) s
  else .fault (.noSuchAddress .rxbuf a)

/-- The refill's writes: the answer's bytes at 0 and up, RXLEN <- |s|, RXCUR <- 0 (spec/42_decoder.md R150). An
empty answer only clears the two counts. -/
def fillWindow (answer : List Byte) (s : State) : State :=
  { s with rxbuf := writeBytes s.rxbuf 0 answer, rxlen := answer.length, rxcur := 0 }

/-- Takes bytes from the window until one is a bit or `n` are taken: the part of ReceiveBit's loop between two
refills (spec/42_decoder.md R150). `none`: every byte was noise. -/
def scanWindow : Nat → State → Flow (Option Bool)
  | 0, s => .done none s
  | n + 1, s =>
    (readRx s.rxcur s).bind fun x s =>
      let s := { s with rxcur := s.rxcur + 1 }
      match classify x with
      | some b => .done (some b) s
      | none => scanWindow n s

/-- ReceiveBit's loop, over the answers the transport has ready (spec/42_decoder.md R150). An empty refill is
hardware-lost. With no answer ready it waits in its TReceive. -/
def receiveBitOver (t : Word) : List (List Byte) → State → Flow Bool
  | [], s =>
    (scanWindow (s.rxlen - s.rxcur) s).bind fun found s =>
      match found with
      | some b => .done b s
      | none => .wait s
  | answer :: rest, s =>
    (scanWindow (s.rxlen - s.rxcur) s).bind fun found s =>
      match found with
      | some b => .done b s
      | none =>
        (tReceive s.cfg.rxCap t answer rest s).bind fun _ s =>
          let s := fillWindow answer s
          if answer = [] then .fail .timeout s else receiveBitOver t rest s

/-- `ReceiveBit(t)` (spec/42_decoder.md R150). -/
def receiveBit (t : Word) (s : State) : Flow Bool := receiveBitOver t s.answers s

/-- One probe of an acknowledgement attempt: AppendByte(0xF9), Flush() (spec/45_ack_retry.md R220). -/
def sendProbe (s : State) : Flow Unit := (appendByte calibrationByte s).bind fun _ s => flush s

/-- WaitForAck from the TReceive of an attempt on, with `k` attempts left, over the answers the transport has
ready; `at_` says where the command stands if it waits (spec/45_ack_retry.md R220). -/
def awaitAck (at_ : Nat → Pending) : List (List Byte) → Nat → State → Flow Unit
  | [], k, s => .wait { s with running := some (at_ k) }
  | answer :: rest, k, s =>
    (tReceive 1 25#32 answer rest s).bind fun _ s =>
      match answer with
      | b :: _ => if b = ackByte then .done () s else .fail .error s
      | [] =>
        if k ≤ 1 then .fail .timeout s
        else (sendProbe s).bind fun _ s => awaitAck at_ rest (k - 1) s

/-- `WaitForAck(n)` (spec/45_ack_retry.md R220). -/
def waitForAck (at_ : Nat → Pending) (n : Nat) (s : State) : Flow Unit :=
  if n = 0 then .fail .timeout s
  else (sendProbe s).bind fun _ s => awaitAck at_ s.answers n s

/-! ## The end of a command (spec/40_control.md R113, spec/60_exceptions.md) -/

/-- The failure entry of TIMEOUT and ERROR: SESS <- FAILED and nothing rolled back (spec/60_exceptions.md R273). -/
def failureEntry (s : State) : State := { s with sess := .failed }

/-- `complete(status, data)` (spec/40_control.md R113). -/
def complete (st : Status) (data : Word) (s : State) : State :=
  let s := if isFailure st then failureEntry s else s
  let data := if st = .ok then data else 0#32
  { ({ s with lastStatus := st } : State).emit (.response st data) with busy := false }

/-- Every element of spec/10_state.md R22 but LAST_STATUS and BUSY at its reset value: what INIT writes
(spec/40_control.md R114), and the only way out of FAILED but block reset (spec/60_exceptions.md R274). An empty
canonical memory reads 0x00 at every address. -/
def reinit (s : State) : State :=
  { s with
    lfsr := 0x00#8, version := 0x00#8, txbuf := [], txcur := 0, rxbuf := [], rxcur := 0, rxlen := 0,
    hsState := .idle, sess := .ready }

/-- Block reset (spec/70_reset_and_hazards.md R300, R301): every element at its reset value, no event, the command in
progress dropped. notes/assumptions/7.md. -/
def blockReset (s : State) : State :=
  { reinit s with lastStatus := .ok, busy := false, running := none }

/-- What the flow of a command with operation code `op` leaves: its end is `complete`; a command that waits or hangs keeps
BUSY = 1. -/
def settle (op : Opcode) (x : Flow Word) : Host.Outcome State Fault Refusal :=
  match x with
  | .done data s => .next (complete .ok data s)
  | .fail st s => .next (complete st 0#32 s)
  | .wait s => .next s
  | .hung s => .next { s with running := some (.hung op) }
  | .fault f => .fault f
  | .refused r => .refused r

/-- Acceptance of a command (spec/40_control.md R110, R111): BUSY <- 1. -/
def accept (s : State) : State := { s with busy := true }

/-- Dispatch after the checks on the command word (spec/40_control.md R111, R112): the session gating, then the
rule of the command. A command while BUSY = 1 is not admitted (spec/93_implementation_defined.md S1). -/
def dispatch (op : Opcode) (rule : State → Flow Word) (s : State) : Host.Outcome State Fault Refusal :=
  if s.busy then .refused .commandWhileBusy
  else if allowed op s.sess then settle op (rule (accept s))
  else .next (complete .precond 0#32 (accept s))

/-- Dispatch of a command word outside the opcode map (spec/30_encoding.md R93; spec/40_control.md R111). -/
def dispatchIllegal (s : State) : Host.Outcome State Fault Refusal :=
  if s.busy then .refused .commandWhileBusy
  else .next (complete .illegal 0#32 (accept s))

end Sys2Proof.Machine
end

