-- ==== Sys2Proof/Machine/AckRetry.lean ====
section
/-! DEFINITION. Retry-timeout engine: WAIT_FOR_ACK (spec/45_ack_retry.md). -/

namespace Sys2Proof.Machine

open Sys2Proof

/-- WAIT_FOR_ACK from an attempt's TReceive on, with `k` attempts left (spec/45_ack_retry.md R220). -/
def waitForAckFrom (k : Nat) (s : State) : Flow Word :=
  (awaitAck .waitForAck s.answers k s).bind fun _ s => .done 0#32 s

/-- WAIT_FOR_ACK (spec/45_ack_retry.md R221). -/
def execWaitForAck (maxRetries : Word) (s : State) : Host.Outcome State Fault Refusal :=
  dispatch .waitForAck
    (fun s => (waitForAck .waitForAck maxRetries.toNat s).bind fun _ s => .done 0#32 s) s

end Sys2Proof.Machine
end

