-- ==== Sys2Proof/Machine/BitDecoder.lean ====
section
/-! DEFINITION. Bit decoder: RECEIVE_BIT (spec/42_decoder.md). -/

namespace Sys2Proof.Machine

open Sys2Proof

/-- The rule of RECEIVE_BIT (spec/42_decoder.md R151), from its start or from the refill it waits in. -/
def receiveBitRule (timeoutMs : Word) (s : State) : Flow Word :=
  ((receiveBit timeoutMs s).waitingAs (.receiveBit timeoutMs)).bind fun b s => .done (bit32 b) s

/-- RECEIVE_BIT (spec/42_decoder.md R151). -/
def execReceiveBit (timeoutMs : Word) (s : State) : Host.Outcome State Fault Refusal :=
  dispatch .receiveBit (receiveBitRule timeoutMs) s

end Sys2Proof.Machine
end

