-- ==== Sys2Proof/Machine/Operands.lean ====
section
/-! DEFINITION. The operand forms: a register by index, an image word by offset, a load kind's word. -/

namespace Sys2Proof.Machine

open Sys2Proof

/-- A number as the u32 READ_REG answers; a free value where it does not fit (spec/10_state.md R34).
notes/assumptions/5.md. -/
def regNumber (n : Nat) : Word := if n < 2 ^ 32 then BitVec.ofNat 32 n else Config.wideRegister n

/-- RegValue (spec/10_state.md R34); `none` for the indices 0x09..0xFF. -/
def regValue (s : State) (index : Byte) : Option Word :=
  match index.toNat with
  | 0x00 => some (statusWord s.hsState s.lastStatus s.sess)
  | 0x01 => some (s.lfsr.setWidth 32)
  | 0x02 => some (s.version.setWidth 32)
  | 0x03 => some (regNumber s.txcur)
  | 0x04 => some (regNumber s.rxcur)
  | 0x05 => some (regNumber s.rxlen)
  | 0x06 => some (regNumber s.cfg.txCap)
  | 0x07 => some (regNumber s.cfg.rxCap)
  | 0x08 => some (regNumber s.cfg.maxImage)
  | _ => none

/-- The 32-bit word sent for a load kind, KIND_CODE(kind): `zext_32(kind)` for the default codes (spec/00_scope.md R8;
spec/30_encoding.md R97; spec/46_load.md R241). -/
def kindWord (kind : LoadKind) (s : State) : Word := s.cfg.kindCodes.word kind

/-- `MemRead(IMAGE, a, 1)` (spec/20_memory.md R53). -/
def readImage (a : Nat) (s : State) : Flow Byte :=
  match s.image[a]? with
  | some b => .done b s
  | none => .fault (.noSuchAddress .image a)

/-- ImageWord(o) (spec/20_memory.md R54). Where the host changes IMAGE during the command the word is a free value
(R66). notes/assumptions/4.md. -/
def imageWord (o : Nat) (s : State) : Flow Word :=
  if s.imageHeld then
    (readImage o s).bind fun b0 s =>
      (readImage (o + 1) s).bind fun b1 s =>
        (readImage (o + 2) s).bind fun b2 s =>
          (readImage (o + 3) s).bind fun b3 s =>
            .done (littleEndian b0 b1 b2 b3) s
  else .done (Config.changedImageWord s.draws) { s with draws := s.draws + 1 }

end Sys2Proof.Machine
end

