-- ==== Sys2Proof/Machine/Control.lean ====
section
/-! DEFINITION. Session control and register read: INIT, READ_REG (spec/40_control.md). -/

namespace Sys2Proof.Machine

open Sys2Proof

/-- INIT (spec/40_control.md R114). -/
def execInit (s : State) : Host.Outcome State Fault Refusal :=
  dispatch .init (fun s => .done 0#32 (reinit s)) s

/-- READ_REG (spec/40_control.md R115): the register's value before this command. -/
def execReadReg (index : Byte) (s : State) : Host.Outcome State Fault Refusal :=
  dispatch .readReg
    (fun s =>
      match regValue s index with
      | some data => .done data s
      | none => .fail .illegal s)
    s

end Sys2Proof.Machine
end

