-- ==== Sys2Proof/Machine/Encoder.lean ====
section
/-! DEFINITION. Word encoder and transmit buffer: APPEND_BYTE, APPEND_WORD, FLUSH (spec/41_encoder.md). -/

namespace Sys2Proof.Machine

open Sys2Proof

/-- APPEND_BYTE (spec/41_encoder.md R133). -/
def execAppendByte (byte : Byte) (s : State) : Host.Outcome State Fault Refusal :=
  dispatch .appendByte (fun s => (appendByte byte s).bind fun _ s => .done 0#32 s) s

/-- APPEND_WORD (spec/41_encoder.md R134). -/
def execAppendWord (value : Word) (s : State) : Host.Outcome State Fault Refusal :=
  dispatch .appendWord (fun s => (appendWord value s).bind fun _ s => .done 0#32 s) s

/-- FLUSH (spec/41_encoder.md R135). -/
def execFlush (s : State) : Host.Outcome State Fault Refusal :=
  dispatch .flush (fun s => (flush s).bind fun _ s => .done 0#32 s) s

end Sys2Proof.Machine
end

