-- ==== Sys2Proof/Machine/Handshake.lean ====
section
/-! DEFINITION. Serial frame synchronizer: HANDSHAKE (spec/44_handshake.md R190). -/

namespace Sys2Proof.Machine

open Sys2Proof

/-- Step 4: `n` pattern bytes, each from one LFSR step. -/
def sendPattern : Nat → State → Flow Unit
  | 0, s => .done () s
  | n + 1, s =>
    (appendByte (patternByte (lfsrBit s.lfsr)) (lfsrStep s)).bind fun _ s => sendPattern n s

/-- Steps 1 to 6, up to the first receive of step 7. -/
def sendConnect (s : State) : Flow Unit :=
  let s := progress .handshakeStart 0#32 0#32 { s with hsState := .reset }
  (callTransport .treset s).bind fun _ s =>
    (appendByte calibrationByte { s with lfsr := handshakeSeed }).bind fun _ s =>
      (sendPattern 250 { s with hsState := .calibrationSent }).bind fun _ s =>
        (appendBytes (List.replicate 258 calibrationByte) { s with hsState := .patternSent }).bind fun _ s =>
          (flush s).bind fun _ s =>
            let s := { progress .responseStart 0#32 0#32 s with hsState := .responseAwaited }
            .done () { s with hsState := .responseVerifying }

/-- HS_STATE <- Timeout, where a receive reports hardware-lost. -/
def handshakeTimeout (s : State) : State := { s with hsState := .timeout }

/-- Step 7 with `n` response bits still to receive and compare. The LFSR is advanced only after a bit is received
(spec/44_handshake.md R191). -/
def verifyResponse : Nat → State → Flow Unit
  | 0, s => .done () s
  | n + 1, s =>
    (((receiveBit 100#32 s).waitingAs (.response (n + 1))).onFail handshakeTimeout).bind fun b s =>
      let expected := lfsrBit s.lfsr
      let s := lfsrStep s
      if b = expected then verifyResponse n s
      else .fail .error { s with hsState := .error }

/-- Step 8 with `n` version bits still to receive and `acc` accumulated so far. -/
def receiveVersion : Nat → Byte → State → Flow Byte
  | 0, acc, s => .done acc s
  | n + 1, acc, s =>
    (((receiveBit 50#32 s).waitingAs (.version (n + 1) acc)).onFail handshakeTimeout).bind fun b s =>
      receiveVersion n (accumulateVersion acc b) s

/-- Step 9: the session is linked and the version answered. -/
def finishHandshake (version : Byte) (s : State) : Flow Word :=
  let s := progress .handshakeDone 0#32 0#32 s
  .done (version.setWidth 32) { s with hsState := .done, version := version, sess := .linked }

/-- Steps 8 and 9, with `n` version bits still to receive. -/
def handshakeFromVersion (n : Nat) (acc : Byte) (s : State) : Flow Word :=
  (receiveVersion n acc s).bind finishHandshake

/-- Steps 7 to 9, with `n` response bits still to receive. -/
def handshakeFromResponse (n : Nat) (s : State) : Flow Word :=
  (verifyResponse n s).bind fun _ s =>
    handshakeFromVersion 8 0x00#8
      { progress .versionStart 0#32 0#32 s with hsState := .versionAwaited }

/-- The rule of HANDSHAKE (spec/44_handshake.md R190). -/
def handshakeRule (s : State) : Flow Word :=
  (sendConnect s).bind fun _ s => handshakeFromResponse 250 s

/-- HANDSHAKE (spec/44_handshake.md R190). -/
def execHandshake (s : State) : Host.Outcome State Fault Refusal :=
  dispatch .handshake handshakeRule s

end Sys2Proof.Machine
end

