-- ==== Sys2Proof/Machine/Lfsr.lean ====
section
/-! DEFINITION. LFSR synchronization generator: LFSR_SEED, LFSR_STEP (spec/43_lfsr.md). -/

namespace Sys2Proof.Machine

open Sys2Proof

/-- LFSR_SEED (spec/43_lfsr.md R173). -/
def execLfsrSeed (seed : Byte) (s : State) : Host.Outcome State Fault Refusal :=
  dispatch .lfsrSeed (fun s => .done 0#32 { s with lfsr := seed }) s

/-- LFSR_STEP (spec/43_lfsr.md R174). -/
def execLfsrStep (s : State) : Host.Outcome State Fault Refusal :=
  dispatch .lfsrStep (fun s => .done (bit32 (lfsrBit s.lfsr)) (lfsrStep s)) s

end Sys2Proof.Machine
end

