-- ==== Sys2Proof/Machine/Load.lean ====
section
/-! DEFINITION. Load sequencer: LOAD_IMAGE, SHUTDOWN (spec/46_load.md). -/

namespace Sys2Proof.Machine

open Sys2Proof

/-- The retry budgets (spec/45_ack_retry.md R223). -/
def ackBudget : AckPhase → Nat
  | .program => 400
  | .eepromWrite => 200
  | .eepromVerify => 80

/-- Step 3 with `n` image words still to append, the next at offset `o`: a Program report at each multiple of 1024,
before the word (spec/46_load.md R241). -/
def streamWords : Nat → Nat → Word → State → Flow Unit
  | 0, _, _, s => .done () s
  | n + 1, o, size, s =>
    let s := if o % 1024 = 0 then progress .program (BitVec.ofNat 32 o) size s else s
    (imageWord o s).bind fun v s =>
      (appendWord v s).bind fun _ s => streamWords n (o + 4) size s

/-- Step 7 and the end of LOAD_IMAGE: SESS <- DONE (spec/46_load.md R240, R241). -/
def finishLoad (size : Word) (s : State) : Flow Word :=
  .done 0#32 { progress .done 0#32 size s with sess := .done }

/-- WaitForAck of a phase, with the phase's budget (spec/45_ack_retry.md R223). -/
def loadAck (phase : AckPhase) (kind : LoadKind) (size : Word) (s : State) : Flow Unit :=
  waitForAck (.load phase kind size) (ackBudget phase) s

/-- Step 6, second half: EEPROM-Verify. -/
def loadVerify (kind : LoadKind) (size : Word) (s : State) : Flow Word :=
  (loadAck .eepromVerify kind size (progress .eepromVerify 0#32 size s)).bind fun _ s =>
    finishLoad size s

/-- Step 6, first half: EEPROM-Write. -/
def loadWrite (kind : LoadKind) (size : Word) (s : State) : Flow Word :=
  (loadAck .eepromWrite kind size (progress .eepromWrite 0#32 size s)).bind fun _ s =>
    loadVerify kind size s

/-- What follows the ACK of a phase (spec/46_load.md R241 steps 6 and 7, R242). -/
def afterAck (phase : AckPhase) (kind : LoadKind) (size : Word) (s : State) : Flow Word :=
  match phase with
  | .program => if hasEeprom kind then loadWrite kind size s else finishLoad size s
  | .eepromWrite => loadVerify kind size s
  | .eepromVerify => finishLoad size s

/-- Steps 2 to 4: the kind word, the word count, the image, Flush (spec/46_load.md R241). -/
def sendImage (kind : LoadKind) (size : Word) (s : State) : Flow Unit :=
  (appendWord (kindWord kind s) s).bind fun _ s =>
    (appendWord (size / 4#32) s).bind fun _ s =>
      (streamWords (size.toNat / 4) 0 size s).bind fun _ s => flush s

/-- LoadSequence (spec/46_load.md R241). -/
def loadSequence (kind : LoadKind) (size : Word) (s : State) : Flow Word :=
  (sendImage kind size s).bind fun _ s =>
    (loadAck .program kind size s).bind fun _ s => afterAck .program kind size s

/-- The rule of LOAD_IMAGE: its checks on the size in the order of spec/46_load.md R240, then LoadSequence. -/
def loadRule (kind : LoadKind) (size : Word) (s : State) : Flow Word :=
  if size.toNat % 4 ≠ 0 then .fail .precond s
  else if s.cfg.maxImage < size.toNat then .fail .precond s
  else if s.image.length < size.toNat then .fail .precond s
  else loadSequence kind size s

/-- LOAD_IMAGE from the TReceive of a phase's acknowledgement on, with `k` attempts left. -/
def loadFrom (phase : AckPhase) (kind : LoadKind) (size : Word) (k : Nat) (s : State) : Flow Word :=
  (awaitAck (.load phase kind size) s.answers k s).bind fun _ s => afterAck phase kind size s

/-- LOAD_IMAGE (spec/46_load.md R240). -/
def execLoadImage (kind : LoadKind) (size : Word) (s : State) : Host.Outcome State Fault Refusal :=
  dispatch .loadImage (loadRule kind size) s

/-- The rule of SHUTDOWN (spec/46_load.md R243). -/
def shutdownRule (s : State) : Flow Word :=
  (appendWord (kindWord .shutdown s) s).bind fun _ s =>
    (flush s).bind fun _ s => .done 0#32 { s with sess := .done }

/-- SHUTDOWN (spec/46_load.md R243). -/
def execShutdown (s : State) : Host.Outcome State Fault Refusal :=
  dispatch .shutdown shutdownRule s

end Sys2Proof.Machine
end

