-- ==== Sys2Proof/Machine/Dispatch.lean ====
section
/-! DEFINITION. The meaning of each command, one arm per constructor (spec/30_encoding.md R91). -/

namespace Sys2Proof.Machine

open Sys2Proof

/-- The effect of a command in a state (spec/40_control.md R111). -/
def exec (i : Instr) (s : State) : Host.Outcome State Fault Refusal :=
  match i with
  | .init => Sys2Proof.Machine.execInit s
  | .readReg index => Sys2Proof.Machine.execReadReg index s
  | .lfsrSeed seed => Sys2Proof.Machine.execLfsrSeed seed s
  | .lfsrStep => Sys2Proof.Machine.execLfsrStep s
  | .appendByte byte => Sys2Proof.Machine.execAppendByte byte s
  | .appendWord value => Sys2Proof.Machine.execAppendWord value s
  | .flush => Sys2Proof.Machine.execFlush s
  | .receiveBit timeoutMs => Sys2Proof.Machine.execReceiveBit timeoutMs s
  | .handshake => Sys2Proof.Machine.execHandshake s
  | .waitForAck maxRetries => Sys2Proof.Machine.execWaitForAck maxRetries s
  | .loadImage kind size => Sys2Proof.Machine.execLoadImage kind size s
  | .shutdown => Sys2Proof.Machine.execShutdown s

end Sys2Proof.Machine
end

