-- ==== Sys2Proof/Machine/Resume.lean ====
section
/-! DEFINITION. A command in progress goes on when the transport answers (spec/40_control.md R110: "blocks the calling
thread until data arrives or a timeout elapses"), and stays where it is in a call that never returns
(spec/70_reset_and_hazards.md R312). -/

namespace Sys2Proof.Machine

open Sys2Proof

/-- The operation code of a command in progress. -/
def pendingOpcode : Pending → Opcode
  | .receiveBit _ => .receiveBit
  | .response _ => .handshake
  | .version _ _ => .handshake
  | .waitForAck _ => .waitForAck
  | .load _ _ _ _ => .loadImage
  | .hung op => op

/-- The rest of a command's rule, from the call it waits in. -/
def resumeRule (p : Pending) (s : State) : Flow Word :=
  match p with
  | .receiveBit timeoutMs => receiveBitRule timeoutMs s
  | .response n => handshakeFromResponse n s
  | .version n acc => handshakeFromVersion n acc s
  | .waitForAck k => waitForAckFrom k s
  | .load phase kind size k => loadFrom phase kind size k s
  | .hung _ => .hung s

/-- The `max` of the TReceive that a command waits in, 0 where it waits in none (spec/42_decoder.md R150;
spec/45_ack_retry.md R220). -/
def Pending.maxBytes (p : Pending) (cfg : Config) : Nat :=
  match p with
  | .receiveBit _ => cfg.rxCap
  | .response _ => cfg.rxCap
  | .version _ _ => cfg.rxCap
  | .waitForAck _ => 1
  | .load _ _ _ _ => 1
  | .hung _ => 0

/-- A command in progress goes on. -/
def resume (p : Pending) (s : State) : Host.Outcome State Fault Refusal :=
  settle (pendingOpcode p) (resumeRule p { s with running := none })

/-- The transport's free draw, when no scripted answer is left: an admitted answer is put in place, or the call has
not returned yet and the command goes on waiting (spec/20_memory.md R58; spec/93_implementation_defined.md U8, S4,
S5). notes/assumptions/2.md. -/
def drawAnswer (p : Pending) (s : State) : Option State :=
  match Config.transportDraw s.draws with
  | some a => some { s with draws := s.draws + 1, answers := [a.take (p.maxBytes s.cfg)] }
  | none => none

/-- One step of a block with BUSY = 1. A command whose call never returns stays where it is
(spec/93_implementation_defined.md S5). -/
def continueCommand (s : State) : Host.Outcome State Fault Refusal :=
  match s.running with
  | none => .fault .noCommandInProgress
  | some (.hung _) => .next s
  | some p =>
    match s.answers with
    | _ :: _ => resume p s
    | [] =>
      match drawAnswer p s with
      | some s => resume p s
      | none => .next { s with draws := s.draws + 1 }

end Sys2Proof.Machine
end

