-- ==== Sys2Proof/Machine/Port.lean ====
section
/-! DEFINITION. The command port: what a step does with the host's next move (spec/40_control.md R110, R111). -/

namespace Sys2Proof.Machine

open Sys2Proof

/-- The state in which a command is dispatched: the move is made, the image is on the image port
(spec/20_memory.md R53, R61). -/
def presented (image : List Byte) (imageHeld : Bool) (rest : List HostMove) (s : State) : State :=
  { s with host := rest, image := image, imageHeld := imageHeld }

/-- Dispatch of a command word (spec/40_control.md R111): a word outside the opcode map ends ILLEGAL. -/
def runWord (word : Command) (s : State) : Host.Outcome State Fault Refusal :=
  match decode word with
  | .ok i => exec i s
  | .error _ => dispatchIllegal s

/-- One step. A block reset takes effect at once. With BUSY = 1 the command in progress goes on and the host waits.
With BUSY = 0 the next command is dispatched; with none, the block waits for one (spec/70_reset_and_hazards.md
R302). -/
def stepBlock (s : State) : Host.Outcome State Fault Refusal :=
  match s.host with
  | .blockReset :: rest => .next (blockReset { s with host := rest })
  | .command word image imageHeld :: rest =>
    if s.busy then continueCommand s else runWord word (presented image imageHeld rest s)
  | [] => if s.busy then continueCommand s else .next s

/-- The command placed as the host's very next move, on a block that is ready for it. -/
def placeCommand (word : Command) (s : State) : State :=
  { s with host := .command word s.image s.imageHeld :: s.host, busy := false, running := none }

end Sys2Proof.Machine
end

