-- ==== Sys2Proof/Machine/Step.lean ====
section
/-! DEFINITION. The step of the machine, and where a test places the next command. -/

namespace Sys2Proof.Machine

open Sys2Proof

/-- One step of the block: a command from its acceptance to its response or to the TReceive it has to wait in, or the
next stretch of the command in progress (spec/20_memory.md R59, R62; spec/40_control.md R110). -/
def step (s : State) : Host.Outcome State Fault Refusal := stepBlock s

/-- `s` with the table word `w` as the host's next command, so that the very next step runs it.
notes/assumptions/1.md. -/
def State.withFetchWord (s : State) (nbits w : Nat) : State := placeCommand (commandOfBits nbits w) s

end Sys2Proof.Machine
end

