-- ==== Sys2Proof/Machine/Text.lean ====
section
/-! DEFINITION. The textual form of commands (spec/30_encoding.md R95): one command a line. A line becomes the command
word it names, legal or not; dispatch makes the checks. notes/assumptions/10.md. -/

namespace Sys2Proof.Machine

open Sys2Proof

/-- What counts as a blank: a space or a tab, and no other character. DESIGN CHOICE, safe, notes/assumptions/10.md: R95
does not say which characters are blanks; its examples show single spaces. -/
def isSpace (c : Char) : Bool := c = ' ' || c = '\t'

/-- The characters without the blanks around them. DESIGN CHOICE, safe, notes/assumptions/10.md: R95 does not say where
blanks may stand; the parser lets any number of them stand at both ends of a line and of an operand. -/
def trimSpaces (cs : List Char) : List Char :=
  ((cs.dropWhile isSpace).reverse.dropWhile isSpace).reverse

/-- The fields between commas. -/
def commaFields : List Char → List (List Char)
  | [] => [[]]
  | c :: cs =>
    if c = ',' then [] :: commaFields cs
    else
      match commaFields cs with
      | [] => [[c]]
      | f :: fs => (c :: f) :: fs

/-- The value of a digit in base 10 or 16. DESIGN CHOICE, safe, notes/assumptions/10.md: R95 does not say in which case the
digits A to F stand; the parser takes both. -/
def digitValue (base : Nat) (c : Char) : Option Nat :=
  let n := c.toNat
  let d :=
    if 48 ≤ n ∧ n ≤ 57 then some (n - 48)
    else if 65 ≤ n ∧ n ≤ 70 then some (n - 55)
    else if 97 ≤ n ∧ n ≤ 102 then some (n - 87)
    else none
  match d with
  | some v => if v < base then some v else none
  | none => none

/-- The number that digits go on to write after `acc`. -/
def digitsFrom (base : Nat) : Nat → List Char → Option Nat
  | acc, [] => some acc
  | acc, c :: cs =>
    match digitValue base c with
    | some d => digitsFrom base (acc * base + d) cs
    | none => none

/-- An integer, decimal or `0x` hexadecimal. DESIGN CHOICE, safe, notes/assumptions/10.md: a sign is no part of one, and
leading zeros are allowed; R95 says neither. -/
def integerOf (cs : List Char) : Option Nat :=
  match cs with
  | '0' :: 'x' :: d :: ds => digitsFrom 16 0 (d :: ds)
  | d :: ds => digitsFrom 10 0 (d :: ds)
  | [] => none

/-- The value a name stands for in a list of names, first name first. -/
def nameIndex (names : List String) (cs : List Char) : Option Nat :=
  names.findIdx? (fun n => n.toList == cs)

/-- The register names, by index (spec/10_state.md R34). -/
def registerNames : List String :=
  ["STATUS", "LFSR", "VERSION", "TXCUR", "RXCUR", "RXLEN", "TXCAP", "RXCAP", "MAXIMG"]

/-- The kind names, by code (spec/30_encoding.md R95, R97). -/
def kindNames : List String := ["SHUTDOWN", "RUN", "EEPROM", "EEPROM_RUN"]

/-- The names an operand in ARG0 may be given by. -/
def operandNames : Opcode → List String
  | .readReg => registerNames
  | .loadImage => kindNames
  | .init => []
  | .lfsrSeed => []
  | .lfsrStep => []
  | .appendByte => []
  | .appendWord => []
  | .flush => []
  | .receiveBit => []
  | .handshake => []
  | .waitForAck => []
  | .shutdown => []

/-- An operand as the u32 of its argument field. -/
def operandOf (names : List String) (cs : List Char) : Option Word :=
  let value :=
    match nameIndex names cs with
    | some n => some n
    | none => integerOf cs
  match value with
  | some n => if n < 2 ^ 32 then some (BitVec.ofNat 32 n) else none
  | none => none

/-- The mnemonics in the order of their operation codes, 0x01 first (spec/30_encoding.md R91). -/
def mnemonics : List String :=
  ["INIT", "READ_REG", "LFSR_SEED", "LFSR_STEP", "APPEND_BYTE", "APPEND_WORD", "FLUSH", "RECEIVE_BIT",
    "HANDSHAKE", "WAIT_FOR_ACK", "LOAD_IMAGE", "SHUTDOWN"]

/-- The operation code of a mnemonic. -/
def opcodeOfName (cs : List Char) : Option Opcode :=
  match nameIndex mnemonics cs with
  | some n => opcodeOf (BitVec.ofNat 8 (n + 1))
  | none => none

/-- The command word of a mnemonic and its operands; an omitted operand is 0, and an operand that the command does not
take is no text of a command. DESIGN CHOICE, safe, notes/assumptions/10.md: an omitted operand is one that the line ends
before. An empty field between commas, or behind the last one (`LOAD_IMAGE , 8`, `LOAD_IMAGE RUN,`), is not read as an
omitted operand, which R95 neither says nor excludes: it is no integer and no name, so the line gives no word. -/
def assemble (op : Opcode) (operands : List (List Char)) : Option Command :=
  match operands with
  | [] => some (mkCommand op.code 0#32 0#32)
  | [a] =>
    if op.arg0Bits = 0 then none
    else
      match operandOf (operandNames op) a with
      | some x => some (mkCommand op.code x 0#32)
      | none => none
  | [a, b] =>
    if op.arg1Bits = 0 then none
    else
      match operandOf (operandNames op) a, operandOf [] b with
      | some x, some y => some (mkCommand op.code x y)
      | _, _ => none
  | _ => none

/-- The command word of a line of text; `none` for a line that holds no command of the form of R95. DESIGN CHOICE, safe,
notes/assumptions/10.md: where blanks may stand, which R95 does not say. Here they may stand before the mnemonic, before
the comment or the line's end, and on either side of a comma, in any number; at least one stands between the
mnemonic and its first operand. -/
def parseLine (line : String) : Option Command :=
  let cs := trimSpaces (line.toList.takeWhile (fun c => c != ';'))
  let name := cs.takeWhile (fun c => !isSpace c)
  let rest := trimSpaces (cs.dropWhile (fun c => !isSpace c))
  match opcodeOfName name with
  | some op => assemble op (if rest = [] then [] else (commaFields rest).map trimSpaces)
  | none => none

end Sys2Proof.Machine
end

