-- ==== Sys2Proof/Safety.lean ====
section
/-! DEFINITION. What counts as a sound state, and the vocabulary of the statements: the bytes on the wire, the bytes
still to be received, the frames of the transmit and the receive side. -/

namespace Sys2Proof.Machine

open Sys2Proof

/-! ## What the trace shows -/

/-- The bytes handed to the transport, in order (spec/20_memory.md R63). -/
def wireBytes : List Event → List Byte
  | [] => []
  | .ttransmit seq :: es => seq ++ wireBytes es
  | .treset :: es => wireBytes es
  | .treceive _ _ _ :: es => wireBytes es
  | .progress _ _ _ :: es => wireBytes es
  | .response _ _ :: es => wireBytes es

/-- The TReceive events, in order. -/
def receiveEvents : List Event → List Event
  | [] => []
  | .treceive n t a :: es => .treceive n t a :: receiveEvents es
  | .treset :: es => receiveEvents es
  | .ttransmit _ :: es => receiveEvents es
  | .progress _ _ _ :: es => receiveEvents es
  | .response _ _ :: es => receiveEvents es

/-- The Progress events, in order (spec/20_memory.md R60). -/
def progressEvents : List Event → List Event
  | [] => []
  | .progress p o n :: es => .progress p o n :: progressEvents es
  | .treset :: es => progressEvents es
  | .ttransmit _ :: es => progressEvents es
  | .treceive _ _ _ :: es => progressEvents es
  | .response _ _ :: es => progressEvents es

/-- How many responses were given. -/
def responseCount : List Event → Nat
  | [] => 0
  | .response _ _ :: es => responseCount es + 1
  | .treset :: es => responseCount es
  | .ttransmit _ :: es => responseCount es
  | .treceive _ _ _ :: es => responseCount es
  | .progress _ _ _ :: es => responseCount es

/-- How many TReset and TTransmit calls were made: those that answer nothing and may never return. -/
def transportCalls : List Event → Nat
  | [] => 0
  | .treset :: es => transportCalls es + 1
  | .ttransmit _ :: es => transportCalls es + 1
  | .treceive _ _ _ :: es => transportCalls es
  | .progress _ _ _ :: es => transportCalls es
  | .response _ _ :: es => transportCalls es

/-- What a port lets through: payloads of 1..TXCAP bytes (spec/20_memory.md R57; spec/41_encoder.md R136), answers of
at most max bytes with max >= 1 (R58), no data beside a status other than OK (spec/40_control.md R113). -/
def eventLegal (cfg : Config) : Event → Prop
  | .treset => True
  | .ttransmit seq => 1 ≤ seq.length ∧ seq.length ≤ cfg.txCap
  | .treceive n _ a => 1 ≤ n ∧ a.length ≤ n
  | .progress _ _ _ => True
  | .response st d => st = .ok ∨ d = 0#32

/-! ## The bytes still to be received -/

/-- The unconsumed bytes of the receive window, RXBUF[RXCUR..RXLEN-1] (spec/10_state.md R32). -/
def windowBytes (s : State) : List Byte :=
  (List.range (s.rxlen - s.rxcur)).map fun j => readByte s.rxbuf (s.rxcur + j)

/-- The logical bits in a sequence of received bytes, noise left out (spec/30_encoding.md R87). -/
def bitsOf (bs : List Byte) : List Bool := bs.filterMap classify

/-- Answers that bring bytes and are admitted for refills of the window (spec/20_memory.md R58). -/
abbrev Refills (cfg : Config) (answers : List (List Byte)) : Prop :=
  ∀ a ∈ answers, a ≠ [] ∧ a.length ≤ cfg.rxCap

/-- The bits the block will see in the window and then in the given answers. -/
def incomingBits (s : State) (answers : List (List Byte)) : List Bool :=
  bitsOf (windowBytes s ++ answers.flatten)

/-- The version byte of eight received bits, least significant first (spec/44_handshake.md R193). -/
def versionOf (bits : List Bool) : Byte := bits.foldl accumulateVersion 0x00#8

/-! ## Sound states -/

/-- The transmit buffer is in order (spec/10_state.md R31; spec/00_scope.md R8). -/
structure TxOk (s : State) : Prop where
  cap : 1 ≤ s.cfg.txCap
  cur : s.txcur ≤ s.cfg.txCap
  mem : Memory.wf s.txbuf = true
  below : Memory.below s.cfg.txCap s.txbuf = true

/-- The receive window is in order (spec/10_state.md R32; spec/00_scope.md R8). -/
structure RxOk (s : State) : Prop where
  cap : 1 ≤ s.cfg.rxCap
  cur : s.rxcur ≤ s.rxlen
  len : s.rxlen ≤ s.cfg.rxCap
  mem : Memory.wf s.rxbuf = true
  below : Memory.below s.cfg.rxCap s.rxbuf = true

/-- The commands that make TReset or TTransmit calls (spec/20_memory.md R56, R57). -/
def callsTransport : Opcode → Bool
  | .appendByte => true
  | .appendWord => true
  | .flush => true
  | .handshake => true
  | .waitForAck => true
  | .loadImage => true
  | .shutdown => true
  | .init => false
  | .readReg => false
  | .lfsrSeed => false
  | .lfsrStep => false
  | .receiveBit => false

/-- What holds while a command waits: the window is exhausted where the command refills it, the pending bytes were
flushed where it flushes first, and the session is one in which the command may run (spec/10_state.md R30;
spec/20_memory.md R64; spec/40_control.md R112; spec/44_handshake.md R194). A HANDSHAKE whose call never returns is in
one of its steps 1 to 6. -/
def pendingSound (s : State) : Pending → Prop
  | .receiveBit _ => s.rxcur = s.rxlen ∧ s.sess ≠ .failed ∧ (s.sess = .ready → s.hsState = .idle)
  | .response n =>
    1 ≤ n ∧ n ≤ 250 ∧ s.rxcur = s.rxlen ∧ s.txcur = 0 ∧ s.sess = .ready ∧
      s.hsState = .responseVerifying ∧ s.lfsr = lfsrAfter (500 - n) handshakeSeed
  | .version n _ =>
    1 ≤ n ∧ n ≤ 8 ∧ s.rxcur = s.rxlen ∧ s.txcur = 0 ∧ s.sess = .ready ∧
      s.hsState = .versionAwaited ∧ s.lfsr = lfsrAfter 500 handshakeSeed
  | .waitForAck k =>
    1 ≤ k ∧ k < 2 ^ 32 ∧ s.txcur = 0 ∧ s.sess ≠ .failed ∧ (s.sess = .ready → s.hsState = .idle)
  | .load phase kind _ k =>
    1 ≤ k ∧ k ≤ ackBudget phase ∧ s.txcur = 0 ∧ s.sess = .linked ∧
      (phase = .program ∨ hasEeprom kind = true)
  | .hung op =>
    callsTransport op = true ∧ allowed op s.sess = true ∧
      (op = .handshake → s.hsState = .reset ∨ s.hsState = .calibrationSent ∨ s.hsState = .patternSent) ∧
      (op ≠ .handshake → s.sess = .ready → s.hsState = .idle)

/-- The handshake state agrees with the session (spec/10_state.md R24, R30): Done from the handshake on, Idle in
READY unless a handshake is running, never a state inside a handshake after a failure. -/
def hsStateSound (s : State) : Prop :=
  match s.sess with
  | .ready => s.hsState = .idle ∨ s.busy = true
  | .linked => s.hsState = .done
  | .done => s.hsState = .done
  | .failed => s.hsState = .idle ∨ s.hsState = .done ∨ s.hsState = .error ∨ s.hsState = .timeout

/-- The invariant of the block between two steps. -/
structure Sound (s : State) : Prop where
  cfgOk : s.cfg.wf
  tx : TxOk s
  rx : RxOk s
  busyRunning : s.busy = s.running.isSome
  waits : ∀ p, s.running = some p → pendingSound s p
  hs : hsStateSound s
  events : ∀ e ∈ s.trace, eventLegal s.cfg e

/-! ## Frames -/

/-- `t` is `s` after the bytes `bs` were appended to the transmit buffer, and after some flushes: nothing but TXBUF,
TXCUR and TTransmit events differs, each TTransmit is one call that returned, and no byte is lost, doubled or out of
order (spec/20_memory.md R57, R63; spec/41_encoder.md R130, R132, R136). -/
structure Appended (s t : State) (bs : List Byte) : Prop where
  frame : t = { s with txbuf := t.txbuf, txcur := t.txcur, returns := t.returns, trace := t.trace }
  ok : TxOk t
  wire : wireBytes t.trace ++ pendingBytes t = wireBytes s.trace ++ pendingBytes s ++ bs
  events : ∃ payloads : List (List Byte), t.trace = s.trace ++ payloads.map .ttransmit ∧
    t.returns = s.returns.drop payloads.length ∧ ∀ p ∈ payloads, 1 ≤ p.length ∧ p.length ≤ s.cfg.txCap

/-- `t` is `s` after the receive window took some of the transport's answers, each in a TReceive(RXCAP, timeoutMs):
nothing but the window, the answers left and the TReceive events differs, and a byte of RXBUF beyond every answer taken
reads as before (spec/42_decoder.md R150). -/
structure Refilled (timeoutMs : Word) (s t : State) : Prop where
  frame : t = { s with
    rxbuf := t.rxbuf, rxcur := t.rxcur, rxlen := t.rxlen, answers := t.answers, trace := t.trace }
  ok : RxOk t
  events : ∃ taken : List (List Byte), s.answers = taken ++ t.answers ∧
    t.trace = s.trace ++ taken.map (Event.treceive s.cfg.rxCap timeoutMs) ∧
    (∀ ans ∈ taken, ans.length ≤ s.cfg.rxCap) ∧
    ∀ a, (∀ ans ∈ taken, ans.length ≤ a) → readByte t.rxbuf a = readByte s.rxbuf a

/-- The words of an image from offset `o` up (spec/20_memory.md R54; spec/46_load.md R241 step 3). -/
def imageWords (image : List Byte) : Nat → Nat → List Word
  | 0, _ => []
  | n + 1, o =>
    littleEndian (image.getD o 0#8) (image.getD (o + 1) 0#8) (image.getD (o + 2) 0#8) (image.getD (o + 3) 0#8) ::
      imageWords image n (o + 4)

/-- The bytes a LOAD_IMAGE appends before its first acknowledgement (spec/46_load.md R241, R244): the kind word, the word
count, then the given image words. -/
def loadBytes (cfg : Config) (kind : LoadKind) (size : Word) (words : List Word) : List Byte :=
  ([cfg.kindCodes.word kind, size / 4#32] ++ words).flatMap encodeWord

/-- The wire stream of a LOAD_IMAGE (spec/46_load.md R244). -/
def loadStream (cfg : Config) (kind : LoadKind) (size : Word) (image : List Byte) : List Byte :=
  loadBytes cfg kind size (imageWords image (size.toNat / 4) 0)

/-- The Program progress events of a load: one at each multiple of 1024 below the size (spec/46_load.md R245 (b)). -/
def programReports (size : Word) : List Event :=
  (List.range ((size.toNat + 1023) / 1024)).map fun j => .progress .program (BitVec.ofNat 32 (1024 * j)) size

/-- How many of `n` bytes that went into the transmit buffer have left it by automatic flushes alone: every full buffer
but the last, which only the next byte flushes (spec/41_encoder.md R130). -/
def autoFlushed (cap n : Nat) : Nat := (n - 1) / cap * cap

/-- The address in TXBUF at which the `i`-th of several appended bytes is stored, when they are appended with no
explicit flush between them (spec/41_encoder.md R130): the automatic flush starts again at address 0. -/
def appendAddress (s : State) (i : Nat) : Nat := (s.txcur + i) % s.cfg.txCap

/-- What LOAD_IMAGE shows and stores before its first acknowledgement, where it appends `bytes` (spec/46_load.md R241
steps 2 to 4, R245). `only`: there is no TReset, no TReceive and no response among the events. `places`: a Program report
stands behind the appends of the kind word, the count and the words below its offset, and before the append of its own
word, so that the bytes sent by then are those that 22 + 11 x (1024 j / 4) appended bytes have pushed out. -/
structure LoadSent (s t : State) (size : Word) (bytes : List Byte) (sent : List Event) : Prop where
  wire : wireBytes sent = pendingBytes s ++ bytes
  reports : progressEvents sent = programReports size
  only : ∀ e ∈ sent, (∃ p, e = .ttransmit p ∧ 1 ≤ p.length ∧ p.length ≤ s.cfg.txCap) ∨
    ∃ o, e = .progress .program o size
  places : ∀ j, 1024 * j < size.toNat → ∃ before after : List Event,
    sent = before ++ .progress .program (BitVec.ofNat 32 (1024 * j)) size :: after ∧
    progressEvents before = (programReports size).take j ∧
    wireBytes before = (pendingBytes s ++ bytes).take (autoFlushed s.cfg.txCap (s.txcur + 22 + 2816 * j))
  stored : ∀ a, a ≠ 0 → (∀ i < bytes.length, a ≠ appendAddress s i) → readByte t.txbuf a = readByte s.txbuf a

/-- The image words that a LOAD_IMAGE may send: those of a held image, else as many of any value (spec/20_memory.md R54,
R66). -/
def SentWords (s : State) (size : Word) (words : List Word) : Prop :=
  words.length = size.toNat / 4 ∧ (s.imageHeld = true → words = imageWords s.image (size.toNat / 4) 0)

/-- How many free values a LOAD_IMAGE draws for its image words. -/
def imageDraws (s : State) (size : Word) : Nat := if s.imageHeld then 0 else size.toNat / 4

/-- `t` is `s` after a LOAD_IMAGE that sent the image words `words`, then made the events `later`, and ended with the
status `st` in session `sess`, the answers `rest` not taken (spec/46_load.md R240, R241): TXBUF, TXCUR, SESS and
LAST_STATUS are written, and nothing else of the block. -/
def LoadEnded (s t : State) (kind : LoadKind) (size : Word) (words : List Word) (later : List Event) (sess : Sess)
    (st : Status) (rest : List (List Byte)) : Prop :=
  ∃ sent : List Event,
    t = { s with
      txbuf := t.txbuf, txcur := 0, sess := sess, lastStatus := st, busy := false, answers := rest,
      draws := s.draws + imageDraws s size,
      trace := s.trace ++ sent ++ later ++ [.response st 0#32] } ∧
    LoadSent s t size (loadBytes s.cfg kind size words) sent

/-- An acknowledged WaitForAck's answers: silent attempts, then 0xFE (spec/45_ack_retry.md R221). -/
def ackAnswers (silent : Nat) : List (List Byte) := List.replicate silent [] ++ [[ackByte]]

/-- An unsuccessful WaitForAck's answers, and its status: a byte other than 0xFE behind silent attempts within the
budget, or silence through the whole budget (spec/45_ack_retry.md R220, R222). -/
inductive AckFailure (budget : Nat) : List (List Byte) → Status → Prop where
  | nak {silent : Nat} {b : Byte} (within : silent < budget) (other : b ≠ 0xFE#8) :
    AckFailure budget (List.replicate silent [] ++ [[b]]) .error
  | silence : AckFailure budget (List.replicate budget []) .timeout

/-- The events of acknowledgement attempts that start with nothing pending: one probe in a TTransmit of its own, one
TReceive(1, 25) (spec/45_ack_retry.md R220). -/
def attemptEvents (answers : List (List Byte)) : List Event :=
  answers.flatMap fun a => [.ttransmit [calibrationByte], .treceive 1 25#32 a]

/-! ## Which command a step runs -/

/-- Every TReset and TTransmit call from now on returns: the transport keeps its duty (spec/20_memory.md R56, R57). -/
abbrev CallsReturn (s : State) : Prop := s.returns = []

/-- A command may be dispatched: BUSY = 0 and the session allows it (spec/40_control.md R110, R112). -/
abbrev Ready (op : Opcode) (s : State) : Prop := s.busy = false ∧ allowed op s.sess = true

/-- The host's next move is a block reset. -/
def resetsNext (s : State) : Bool :=
  match s.host with
  | .blockReset :: _ => true
  | .command _ _ _ :: _ => false
  | [] => false

/-- The operation code of the legal command that the next step runs, if it runs one. -/
def commandOf (s : State) : Option Opcode :=
  if resetsNext s then none
  else if s.busy then s.running.map pendingOpcode
  else
    match s.host with
    | .command word _ _ :: _ =>
      match decode word with
      | .ok i => some i.opcode
      | .error _ => none
    | _ => none

/-- Whether the next step accepts a command word, legal or not (spec/40_control.md R110). -/
def acceptsNext (s : State) : Bool :=
  match s.host with
  | .command _ _ _ :: _ => !s.busy
  | .blockReset :: _ => false
  | [] => false

/-- What a command that ends at once with no data leaves, beside its own writes (spec/40_control.md R113). -/
def answered (st : Status) (data : Word) (s : State) : State :=
  { s with lastStatus := st, trace := s.trace ++ [.response st data], busy := false }

end Sys2Proof.Machine
end

