-- ==== Sys2Proof/Certificates/Slice0/Obligations.lean ====
section
/-! DEFINITION. The statements about the model, from the numbered rules of spec/. -/

open Sys2Proof Sys2Proof.Machine

/-! ## Encodings -/

/-- spec/30_encoding.md R90, R91: decoding the word of a well-formed command gives the command back, for every command
and every value of its operands. -/
def Obligations.DecodeOfEncode : Prop :=
  ∀ i : Instr, i.wellFormed = true → decode (encode i) = .ok i

/-- spec/30_encoding.md R91, R92: a word that decodes is the word of its command, so two words never mean the same
command and no bit of a word is ignored. -/
def Obligations.EncodeOfDecode : Prop :=
  ∀ (c : Command) (i : Instr), decode c = .ok i → encode i = c ∧ i.wellFormed = true

/-- spec/30_encoding.md R91 to R93 and the rows of spec/opcode_table.json: a word is legal exactly if it matches a
row's mask and, for READ_REG, its index is at most 0x08. -/
def Obligations.LegalWordsAreTheTableRows : Prop :=
  ∀ c : Command, (∃ i, decode c = .ok i) ↔
    (∃ row ∈ ([(0xFFFFFFFFFFFFFFFFFF, 0x01), (0xFFFFFFFFFFFFFF00FF, 0x02), (0xFFFFFFFFFFFFFF00FF, 0x03),
        (0xFFFFFFFFFFFFFFFFFF, 0x04), (0xFFFFFFFFFFFFFF00FF, 0x05), (0xFFFFFFFF00000000FF, 0x06),
        (0xFFFFFFFFFFFFFFFFFF, 0x07), (0xFFFFFFFF00000000FF, 0x08), (0xFFFFFFFFFFFFFFFFFF, 0x09),
        (0xFFFFFFFF00000000FF, 0x0A), (0x00000000FFFFFFFCFF, 0x0B), (0xFFFFFFFFFFFFFFFFFF, 0x0C)] :
        List (Command × Command)), c &&& row.1 = row.2) ∧
    (cmdOp c = 0x02#8 → cmdArg0 c ≤ 0x08#32)

/-- spec/30_encoding.md R90, R91; spec/95_test_vectors.md: words written out from the encoding decode to their
commands. -/
def Obligations.SampleWordsDecode : Prop :=
  decode 0x000000000000000001#72 = .ok .init ∧
  decode 0x000000000000000802#72 = .ok (.readReg 0x08#8) ∧
  decode 0x000000000000005003#72 = .ok (.lfsrSeed 0x50#8) ∧
  decode 0x00000000000000F905#72 = .ok (.appendByte 0xF9#8) ∧
  decode 0x000000001234567806#72 = .ok (.appendWord 0x12345678#32) ∧
  decode 0x000000000000006408#72 = .ok (.receiveBit 100#32) ∧
  decode 0x000000000000000009#72 = .ok .handshake ∧
  decode 0x00000000000001900A#72 = .ok (.waitForAck 400#32) ∧
  decode 0x00000008000000010B#72 = .ok (.loadImage .run 8#32)

/-- spec/30_encoding.md R83: the bits of the eleven encoded bytes, and the tables of their values by 3-bit group. -/
def Obligations.EncodedWordLayout : Prop :=
  (∀ v : Word, (encodeWord v).length = 11) ∧
  (∀ (v : Word) (i : Nat), i < 10 → (encodeWord v)[i]? = some
    (BitVec.ofBool true ++ BitVec.ofBool (v.getLsbD (3 * i + 2)) ++ BitVec.ofBool false ++ BitVec.ofBool true ++
      BitVec.ofBool (v.getLsbD (3 * i + 1)) ++ BitVec.ofBool false ++ BitVec.ofBool true ++
      BitVec.ofBool (v.getLsbD (3 * i)))) ∧
  (∀ v : Word, (encodeWord v)[10]? = some
    (BitVec.ofBool true ++ BitVec.ofBool true ++ BitVec.ofBool true ++ BitVec.ofBool true ++
      BitVec.ofBool (v.getLsbD 31) ++ BitVec.ofBool false ++ BitVec.ofBool true ++ BitVec.ofBool (v.getLsbD 30))) ∧
  (∀ (v : Word) (i : Nat), i < 10 → (encodeWord v)[i]? =
    [0x92#8, 0x93#8, 0x9A#8, 0x9B#8, 0xD2#8, 0xD3#8, 0xDA#8, 0xDB#8][(v.extractLsb' (3 * i) 3).toNat]?) ∧
  (∀ v : Word, (encodeWord v)[10]? = [0xF2#8, 0xF3#8, 0xFA#8, 0xFB#8][(v.extractLsb' 30 2).toNat]?)

/-- spec/30_encoding.md R85: the reference decoder accepts every encoded word and recovers its value. -/
def Obligations.EncodedWordRoundTrip : Prop :=
  ∀ v : Word, wordFramed (encodeWord v) = true ∧ decodeWord (encodeWord v) = v

/-- spec/30_encoding.md R84: the framing bits of encoded bytes, and no collision with the other wire symbols. -/
def Obligations.EncodedBytesAreFramed : Prop :=
  ∀ v : Word,
    (∀ b ∈ encodeWord v, b.getLsbD 7 = true ∧ b.getLsbD 4 = true ∧ b.getLsbD 1 = true ∧ b.getLsbD 2 = false) ∧
    (∀ i < 10, ∀ b, (encodeWord v)[i]? = some b → b.getLsbD 5 = false ∧ b.getLsbD 6 = v.getLsbD (3 * i + 2)) ∧
    (∀ b, (encodeWord v)[10]? = some b → b.getLsbD 5 = true ∧ b.getLsbD 6 = true) ∧
    (∀ b ∈ encodeWord v, b ≠ 0xF9#8 ∧ b ≠ 0xFE#8 ∧ b ≠ 0xFF#8)

/-- spec/30_encoding.md R87: a received byte is a bit exactly if it is 0xFE or 0xFF, and then it is the byte less
0xFE, taken modulo 256 or as a signed integer; every other byte is noise. -/
def Obligations.ReceivedByteClassification : Prop :=
  classify 0xFE#8 = some false ∧ classify 0xFF#8 = some true ∧
  (∀ x : Byte, x ≠ 0xFE#8 → x ≠ 0xFF#8 → classify x = none) ∧
  (∀ (x : Byte) (b : Bool), classify x = some b ↔ x - 0xFE#8 = bit8 b) ∧
  (∀ (x : Byte) (b : Bool), classify x = some b ↔ (x.toNat : Int) - 0xFE = if b then 1 else 0)

/-- spec/30_encoding.md R95: the example lines of the rule, a comment and an omitted operand, and the command words they
stand for. The last clause, that `JUMP 4` gives no word, is the model's own choice for a line that is not of R95's form
(notes/assumptions/10.md). -/
def Obligations.TextLinesNameTheirCommands : Prop :=
  parseLine "LFSR_SEED 0x50" = some (encode (.lfsrSeed 0x50#8)) ∧
  parseLine "APPEND_WORD 0x12345678" = some (encode (.appendWord 0x12345678#32)) ∧
  parseLine "RECEIVE_BIT 100" = some (encode (.receiveBit 100#32)) ∧
  parseLine "WAIT_FOR_ACK 400" = some (encode (.waitForAck 400#32)) ∧
  parseLine "READ_REG STATUS" = some (encode (.readReg 0#8)) ∧
  parseLine "LOAD_IMAGE RUN, 8 ; the image stands beside" = some (encode (.loadImage .run 8#32)) ∧
  parseLine "READ_REG" = some (encode (.readReg 0#8)) ∧
  parseLine "JUMP 4" = none

/-! ## The shift register -/

/-- spec/43_lfsr.md R170: the emitted bit and the new register value, in both forms the rule gives; a step writes
LFSR and nothing else. -/
def Obligations.LfsrAdvanceRule : Prop :=
  (∀ s : State, lfsrStep s = { s with lfsr := lfsrNext s.lfsr }) ∧
  ∀ r : Byte,
    bit8 (lfsrBit r) = r &&& 1#8 ∧
    lfsrNext r = ((r <<< 1) &&& 0xFE#8) ||| ((((r >>> 7) ^^^ (r >>> 5)) ^^^ (r >>> 4) ^^^ (r >>> 1)) &&& 1#8) ∧
    lfsrNext r = r.extractLsb' 0 7 ++
      BitVec.ofBool (((r.getLsbD 7 ^^ r.getLsbD 5) ^^ r.getLsbD 4) ^^ r.getLsbD 1)

/-- spec/43_lfsr.md R171 (a) to (d): the fixed point 0 for ever, the single cycle of length 255 and the period of its
bits, and the states and bits the rule lists. -/
def Obligations.LfsrCycle : Prop :=
  (∀ n : Nat, lfsrAfter n 0x00#8 = 0x00#8 ∧ lfsrBits n 0x00#8 = List.replicate n false) ∧
  (∀ r : Byte, r ≠ 0#8 → ∃ n < 255, lfsrAfter n handshakeSeed = r) ∧
  (∀ n < 255, 0 < n → lfsrAfter n handshakeSeed ≠ handshakeSeed) ∧
  lfsrAfter 255 handshakeSeed = handshakeSeed ∧
  (∀ k : Nat, lfsrBit (lfsrAfter (k + 255) handshakeSeed) = lfsrBit (lfsrAfter k handshakeSeed)) ∧
  (List.range 21).map (fun k => lfsrAfter k handshakeSeed) =
    [0x50#8, 0xA1#8, 0x42#8, 0x85#8, 0x0B#8, 0x17#8, 0x2E#8, 0x5C#8, 0xB9#8, 0x73#8, 0xE7#8, 0xCF#8, 0x9E#8,
      0x3D#8, 0x7A#8, 0xF5#8, 0xEB#8, 0xD7#8, 0xAF#8, 0x5F#8, 0xBE#8] ∧
  lfsrAfter 250 handshakeSeed = 0x9A#8 ∧ lfsrAfter 251 handshakeSeed = 0x35#8 ∧
  lfsrAfter 350 handshakeSeed = 0xD9#8 ∧ lfsrAfter 500 handshakeSeed = 0x14#8 ∧
  lfsrBits 8 handshakeSeed = [false, true, false, true, true, true, false, false]

/-- spec/43_lfsr.md R171 (b): from every state, at every point, the register comes back after 255 steps, and the
emitted sequence has that period. -/
def Obligations.LfsrPeriod : Prop :=
  (∀ (k : Nat) (r : Byte), lfsrAfter (k + 255) r = lfsrAfter k r) ∧
  (∀ (k n : Nat) (r : Byte), lfsrBits n (lfsrAfter (k + 255) r) = lfsrBits n (lfsrAfter k r))

/-! ## Reset, registers, the plain commands -/

/-- spec/70_reset_and_hazards.md R300: block reset leaves every element of the block at zero, Idle, READY, OK. -/
def Obligations.ResetLeavesZeroState : Prop :=
  ∀ cfg : Config, let s := State.resetOf cfg
    s.lfsr = 0x00#8 ∧ s.version = 0x00#8 ∧ (∀ a, readByte s.txbuf a = 0x00#8) ∧ (∀ a, readByte s.rxbuf a = 0x00#8) ∧
    s.txcur = 0 ∧ s.rxcur = 0 ∧ s.rxlen = 0 ∧ s.hsState = .idle ∧ s.sess = .ready ∧ s.lastStatus = .ok ∧
    s.busy = false

/-- spec/70_reset_and_hazards.md R300, R301: a block reset sets the same values in any state, also while a command
waits, and makes no event. Which state it finds the block in is the model's own (notes/assumptions/7.md). -/
def Obligations.BlockResetStep : Prop :=
  ∀ (s : State) (rest : List HostMove), s.host = .blockReset :: rest →
    step s = .next { s with
      lfsr := 0x00#8, version := 0x00#8, txbuf := [], txcur := 0, rxbuf := [], rxcur := 0, rxlen := 0,
      hsState := .idle, sess := .ready, lastStatus := .ok, busy := false, running := none, host := rest }

/-- spec/40_control.md R114: INIT, in every session state, zeroes every element, answers (OK, 0), and makes no
other event. -/
def Obligations.InitResetsTheSession : Prop :=
  ∀ s : State, s.busy = false →
    exec .init s = .next (answered .ok 0#32 { s with
      lfsr := 0x00#8, version := 0x00#8, txbuf := [], txcur := 0, rxbuf := [], rxcur := 0, rxlen := 0,
      hsState := .idle, sess := .ready }) ∧
    ∀ a, readByte [] a = 0x00#8

/-- spec/40_control.md R115; spec/10_state.md R34, R35: READ_REG answers the register's value before the command, at
each of the nine indices, in every session state, and changes nothing but LAST_STATUS. A number that does not fit in
a u32 is no clause of the rule (notes/assumptions/5.md). -/
def Obligations.ReadRegAnswersTheRegister : Prop :=
  ∀ s : State, s.busy = false →
    exec (.readReg 0x00#8) s = .next (answered .ok
      ((s.hsState.code ++ s.lastStatus.code ++ s.sess.code).setWidth 32) s) ∧
    exec (.readReg 0x01#8) s = .next (answered .ok (s.lfsr.setWidth 32) s) ∧
    exec (.readReg 0x02#8) s = .next (answered .ok (s.version.setWidth 32) s) ∧
    (s.txcur < 2 ^ 32 → exec (.readReg 0x03#8) s = .next (answered .ok (BitVec.ofNat 32 s.txcur) s)) ∧
    (s.rxcur < 2 ^ 32 → exec (.readReg 0x04#8) s = .next (answered .ok (BitVec.ofNat 32 s.rxcur) s)) ∧
    (s.rxlen < 2 ^ 32 → exec (.readReg 0x05#8) s = .next (answered .ok (BitVec.ofNat 32 s.rxlen) s)) ∧
    (s.cfg.txCap < 2 ^ 32 → exec (.readReg 0x06#8) s = .next (answered .ok (BitVec.ofNat 32 s.cfg.txCap) s)) ∧
    (s.cfg.rxCap < 2 ^ 32 → exec (.readReg 0x07#8) s = .next (answered .ok (BitVec.ofNat 32 s.cfg.rxCap) s)) ∧
    (s.cfg.maxImage < 2 ^ 32 → exec (.readReg 0x08#8) s = .next (answered .ok (BitVec.ofNat 32 s.cfg.maxImage) s))

/-- spec/40_control.md R115; spec/30_encoding.md R92: READ_REG of an index above 0x08 ends ILLEGAL, with no effect but
LAST_STATUS. -/
def Obligations.ReadRegAboveTheMapIsIllegal : Prop :=
  ∀ (s : State) (index : Byte), s.busy = false → 0x08#8 < index →
    exec (.readReg index) s = .next (answered .illegal 0#32 s)

/-- spec/10_state.md R35: the three fields of STATUS and its zero bits, with the codes of R23, R29 and
spec/30_encoding.md R94. -/
def Obligations.StatusFields : Prop :=
  ∀ (hs : HsState) (last : Status) (sess : Sess),
    (statusWord hs last sess).extractLsb' 0 2 = sess.code ∧
    (statusWord hs last sess).extractLsb' 2 3 = last.code ∧
    (statusWord hs last sess).extractLsb' 5 4 = hs.code ∧
    statusWord hs last sess >>> 9 = 0#32 ∧
    (∀ s : State, s.hsState = hs → s.lastStatus = last → s.sess = sess →
      regValue s 0x00#8 = some ((hs.code ++ last.code ++ sess.code).setWidth 32) ∧
      statusWord hs last sess = (hs.code ++ last.code ++ sess.code).setWidth 32) ∧
    sess.code.toNat ≤ 3 ∧ last.code.toNat ≤ 4 ∧ hs.code.toNat ≤ 9

/-- spec/43_lfsr.md R173: LFSR_SEED loads the register, 0x00 included, and writes nothing else. -/
def Obligations.LfsrSeedLoadsTheRegister : Prop :=
  ∀ (s : State) (seed : Byte), Ready .lfsrSeed s →
    exec (.lfsrSeed seed) s = .next (answered .ok 0#32 { s with lfsr := seed })

/-- spec/43_lfsr.md R174: LFSR_STEP answers bit 0 of the register and advances it, and writes nothing else. -/
def Obligations.LfsrStepAdvancesTheRegister : Prop :=
  ∀ s : State, Ready .lfsrStep s →
    exec .lfsrStep s = .next (answered .ok (if s.lfsr.getLsbD 0 then 1#32 else 0#32)
      { s with lfsr := s.lfsr.extractLsb' 0 7 ++
        BitVec.ofBool (((s.lfsr.getLsbD 7 ^^ s.lfsr.getLsbD 5) ^^ s.lfsr.getLsbD 4) ^^ s.lfsr.getLsbD 1) })

/-! ## The transmit side -/

/-- spec/41_encoder.md R133: APPEND_BYTE with room in the buffer stores the byte at TXCUR; with a full buffer it sends
the TXCAP pending bytes as one unit first and stores the byte at address 0. Nothing else changes; a byte at another
address reads as before. -/
def Obligations.AppendByteStoresOneByte : Prop :=
  ∀ (s : State) (b : Byte), Ready .appendByte s → 1 ≤ s.cfg.txCap →
    (s.txcur < s.cfg.txCap →
      exec (.appendByte b) s = .next (answered .ok 0#32
        { s with txbuf := writeByte s.txbuf s.txcur b, txcur := s.txcur + 1 }) ∧
      (∀ a, a ≠ s.txcur → readByte (writeByte s.txbuf s.txcur b) a = readByte s.txbuf a) ∧
      (Memory.wf s.txbuf = true → readByte (writeByte s.txbuf s.txcur b) s.txcur = b)) ∧
    (s.txcur = s.cfg.txCap → CallsReturn s →
      exec (.appendByte b) s = .next (answered .ok 0#32
        { s with txbuf := writeByte s.txbuf 0 b, txcur := 1,
                 trace := s.trace ++ [.ttransmit (pendingBytes s)] }) ∧
      (∀ a, a ≠ 0 → readByte (writeByte s.txbuf 0 b) a = readByte s.txbuf a) ∧
      (Memory.wf s.txbuf = true → readByte (writeByte s.txbuf 0 b) 0 = b))

/-- spec/41_encoder.md R134, R131: APPEND_WORD appends the eleven bytes of EncodeWord, in order, with automatic flushes
as they fall; nothing but TXBUF, TXCUR and TTransmit events changes, and a byte at an address that none of the eleven
was stored at reads as before. -/
def Obligations.AppendWordAppendsElevenBytes : Prop :=
  ∀ (s : State) (v : Word), Ready .appendWord s → TxOk s → CallsReturn s →
    ∃ t, exec (.appendWord v) s = .next (answered .ok 0#32 t) ∧ Appended s t (encodeWord v) ∧
      t.txcur % s.cfg.txCap = (s.txcur + 11) % s.cfg.txCap ∧ 1 ≤ t.txcur ∧
      (∀ a, (∀ i < 11, a ≠ appendAddress s i) → readByte t.txbuf a = readByte s.txbuf a)

/-- spec/41_encoder.md R135, R132: FLUSH with nothing pending makes no event; otherwise it sends the pending bytes as
one unit and sets TXCUR to 0. The bytes of TXBUF stay. -/
def Obligations.FlushSendsThePendingBytes : Prop :=
  ∀ s : State, Ready .flush s →
    (s.txcur = 0 → exec .flush s = .next (answered .ok 0#32 s)) ∧
    (0 < s.txcur → s.txcur ≤ s.cfg.txCap → CallsReturn s →
      exec .flush s = .next (answered .ok 0#32
        { s with txcur := 0, trace := s.trace ++ [.ttransmit ((List.range s.txcur).map (readByte s.txbuf))] }))

/-- spec/41_encoder.md R136: wherever AppendByte or Flush ends, the cursor is in its bounds and every payload has 1..TXCAP
bytes; both end where the transport's calls return. -/
def Obligations.TransmitCursorBounds : Prop :=
  ∀ s : State, 1 ≤ s.cfg.txCap → s.txcur ≤ s.cfg.txCap →
    (∀ b t, appendByte b s = .done () t → 1 ≤ t.txcur ∧ t.txcur ≤ s.cfg.txCap ∧
      ∃ sent : List (List Byte), t.trace = s.trace ++ sent.map .ttransmit ∧
        ∀ p ∈ sent, 1 ≤ p.length ∧ p.length ≤ s.cfg.txCap) ∧
    (∀ t, flush s = .done () t → t.txcur = 0 ∧
      ∃ sent : List (List Byte), t.trace = s.trace ++ sent.map .ttransmit ∧
        ∀ p ∈ sent, 1 ≤ p.length ∧ p.length ≤ s.cfg.txCap) ∧
    (CallsReturn s → (∀ b, ∃ t, appendByte b s = .done () t) ∧ ∃ t, flush s = .done () t)

/-- spec/46_load.md R243; spec/00_scope.md R8: SHUTDOWN sends the instance's Shutdown word behind whatever was pending,
flushes, and ends the session; nothing is received and nothing reported. With the default code 0 the word is the eleven
bytes of the rule's example. -/
def Obligations.ShutdownSendsTheShutdownWord : Prop :=
  (∀ s : State, Ready .shutdown s → TxOk s → CallsReturn s →
    ∃ (t : State) (payloads : List (List Byte)),
      exec .shutdown s = .next t ∧
      t = { s with
        txbuf := t.txbuf, txcur := 0, sess := .done, lastStatus := .ok, busy := false,
        trace := s.trace ++ payloads.map .ttransmit ++ [.response .ok 0#32] } ∧
      payloads.flatten = pendingBytes s ++ encodeWord s.cfg.kindCodes.shutdown ∧
      (∀ p ∈ payloads, 1 ≤ p.length ∧ p.length ≤ s.cfg.txCap) ∧
      (∀ a, (∀ i < 11, a ≠ appendAddress s i) → readByte t.txbuf a = readByte s.txbuf a)) ∧
  encodeWord KindCodes.default.shutdown = [0x92#8, 0x92#8, 0x92#8, 0x92#8, 0x92#8, 0x92#8, 0x92#8, 0x92#8, 0x92#8,
    0x92#8, 0xF2#8]

/-- spec/20_memory.md R63: for every TXCAP, the bytes sent and then those pending, in order, only ever grow at their
end: no command but INIT takes back, drops or reorders a byte, and the buffer stays in order. Where a TTransmit never
returns, TXCUR still counts the bytes handed to it (notes/assumptions/2.md). -/
def Obligations.WireOrderIsAppendOrder : Prop :=
  ∀ s t : State, TxOk s → resetsNext s = false → commandOf s ≠ some .init → step s = .next t →
    (wireBytes s.trace ++ pendingBytes s) <+: (wireBytes t.trace ++ pendingBytes t) ∧ TxOk t

/-! ## The receive side -/

/-- spec/42_decoder.md R151, R150: RECEIVE_BIT answers the next bit that is to come from the window and then from
refills, noise left out; the bits behind it are still to come. Each refill is a TReceive(RXCAP, timeoutMs). Nothing but
the window, the answers taken and LAST_STATUS changes; a byte of RXBUF beyond every answer taken reads as before. -/
def Obligations.ReceiveBitAnswersTheNextBit : Prop :=
  ∀ (s : State) (timeoutMs : Word) (pre tail : List (List Byte)) (b : Bool) (more : List Bool),
    Ready .receiveBit s → RxOk s → s.answers = pre ++ tail → Refills s.cfg pre →
    incomingBits s pre = b :: more →
    ∃ (t : State) (left taken : List (List Byte)),
      exec (.receiveBit timeoutMs) s = .next (answered .ok (if b then 1#32 else 0#32) t) ∧
      pre = taken ++ left ∧ incomingBits t left = more ∧
      t = { s with
        rxbuf := t.rxbuf, rxcur := t.rxcur, rxlen := t.rxlen, answers := left ++ tail,
        trace := s.trace ++ taken.map (.treceive s.cfg.rxCap timeoutMs) } ∧
      RxOk t ∧
      ∀ a, (∀ ans ∈ taken, ans.length ≤ a) → readByte t.rxbuf a = readByte s.rxbuf a

/-- spec/42_decoder.md R150, R151; spec/60_exceptions.md R273: where only noise comes before an empty answer, RECEIVE_BIT
ends TIMEOUT: the window is cleared, the session FAILED, all else as it was. -/
def Obligations.ReceiveBitTimesOut : Prop :=
  ∀ (s : State) (timeoutMs : Word) (pre rest : List (List Byte)),
    Ready .receiveBit s → RxOk s → s.answers = pre ++ [] :: rest → Refills s.cfg pre →
    incomingBits s pre = [] →
    ∃ t, exec (.receiveBit timeoutMs) s = .next t ∧
      t = { s with
        rxbuf := t.rxbuf, rxcur := 0, rxlen := 0, answers := rest, sess := .failed, lastStatus := .timeout,
        busy := false,
        trace := s.trace ++ (pre ++ [[]]).map (.treceive s.cfg.rxCap timeoutMs) ++ [.response .timeout 0#32] } ∧
      ∀ a, (∀ ans ∈ pre, ans.length ≤ a) → readByte t.rxbuf a = readByte s.rxbuf a

/-- spec/70_reset_and_hazards.md R312; spec/42_decoder.md R152 (d): the ways a command hangs. While the transport answers
with noise only, RECEIVE_BIT and HANDSHAKE take every answer, report no status and stay in progress; no number of noise
answers ends them. A step in which every TReset and TTransmit call returns is the same step whatever the transport does
with later calls; where one of its calls never returns, the step stops at that call, behind the same events, with the
command in progress, and every further step leaves that state as it is. That the events show a call from the moment it
is made is the model's choice (notes/assumptions/2.md). -/
def Obligations.HangingCommandsStayInProgress : Prop :=
  (∀ (s : State) (timeoutMs : Word), Ready .receiveBit s → RxOk s → Refills s.cfg s.answers →
    incomingBits s s.answers = [] →
    ∃ t, exec (.receiveBit timeoutMs) s = .next t ∧
      t = { s with
        rxbuf := t.rxbuf, rxcur := t.rxlen, rxlen := t.rxlen, answers := [], busy := true,
        running := some (.receiveBit timeoutMs),
        trace := s.trace ++ s.answers.map (.treceive s.cfg.rxCap timeoutMs) } ∧
      ∀ a, (∀ ans ∈ s.answers, ans.length ≤ a) → readByte t.rxbuf a = readByte s.rxbuf a) ∧
  (∀ s : State, Ready .handshake s → TxOk s → RxOk s → CallsReturn s → Refills s.cfg s.answers →
    incomingBits s s.answers = [] →
    ∃ (t : State) (payloads : List (List Byte)), exec .handshake s = .next t ∧
      t = { s with
        lfsr := 0x9A#8, txbuf := t.txbuf, txcur := 0, rxbuf := t.rxbuf, rxcur := t.rxlen, rxlen := t.rxlen,
        hsState := .responseVerifying, answers := [], busy := true, running := some (.response 250),
        trace := s.trace ++ [.progress .handshakeStart 0#32 0#32, .treset] ++ payloads.map .ttransmit ++
          [.progress .responseStart 0#32 0#32] ++ s.answers.map (.treceive s.cfg.rxCap 100#32) } ∧
      payloads.flatten = pendingBytes s ++ handshakeStream ∧
      (∀ a, (∀ j < 509, a ≠ appendAddress s j) → readByte t.txbuf a = readByte s.txbuf a) ∧
      ∀ a, (∀ ans ∈ s.answers, ans.length ≤ a) → readByte t.rxbuf a = readByte s.rxbuf a) ∧
  (∀ (s t : State) (calls : Nat), step { s with returns := [] } = .next t →
    transportCalls t.trace = transportCalls s.trace + calls →
    (false ∉ s.returns.take calls → step s = .next { t with returns := s.returns.drop calls }) ∧
    (∀ k < calls, false ∉ s.returns.take k → s.returns[k]? = some false →
      ∃ (u : State) (op : Opcode) (es : List Event) (e : Event),
        step s = .next u ∧ commandOf s = some op ∧ u.busy = true ∧ u.running = some (.hung op) ∧
        u.returns = s.returns.drop (k + 1) ∧ u.trace = s.trace ++ es ++ [e] ∧ u.trace <+: t.trace ∧
        transportCalls es = k ∧ transportCalls [e] = 1)) ∧
  (∀ (s : State) (op : Opcode), s.busy = true → s.running = some (.hung op) → resetsNext s = false →
    step s = .next s)

/-- spec/42_decoder.md R152 (c): how the transport divides its bytes into refills does not change the bits returned:
two states that differ only in the receive window and the answers, with the same bytes to come, answer the same bit and
have the same bits to come after it. -/
def Obligations.RefillDivisionDoesNotMatter : Prop :=
  ∀ (s₁ s₂ t₁ : State) (timeoutMs : Word),
    RxOk s₁ → RxOk s₂ → Refills s₁.cfg s₁.answers → Refills s₂.cfg s₂.answers →
    s₂ = { s₁ with rxbuf := s₂.rxbuf, rxcur := s₂.rxcur, rxlen := s₂.rxlen, answers := s₂.answers } →
    windowBytes s₁ ++ s₁.answers.flatten = windowBytes s₂ ++ s₂.answers.flatten →
    exec (.receiveBit timeoutMs) s₁ = .next t₁ → t₁.busy = false →
    ∃ t₂, exec (.receiveBit timeoutMs) s₂ = .next t₂ ∧ t₂.busy = false ∧
      t₂.lastStatus = t₁.lastStatus ∧ t₂.trace.getLast? = t₁.trace.getLast? ∧
      incomingBits t₂ t₂.answers = incomingBits t₁ t₁.answers

/-- spec/45_ack_retry.md R221, R220: an ACK within the budget, after some silent attempts. Each attempt is a probe in a
flush and a TReceive(1, 25); the pending bytes go ahead of the first probe; the receive window is not touched. -/
def Obligations.WaitForAckAcknowledged : Prop :=
  ∀ (s : State) (n : Word) (silent : Nat) (rest : List (List Byte)),
    Ready .waitForAck s → TxOk s → CallsReturn s → silent < n.toNat → s.answers = ackAnswers silent ++ rest →
    ∃ (t : State) (payloads : List (List Byte)), exec (.waitForAck n) s = .next t ∧
      t = { s with
        txbuf := t.txbuf, txcur := 0, answers := rest, lastStatus := .ok, busy := false,
        trace := s.trace ++ payloads.map .ttransmit ++ (attemptEvents (ackAnswers silent)).drop 1 ++
          [.response .ok 0#32] } ∧
      payloads.flatten = pendingBytes s ++ [calibrationByte] ∧
      (∀ p ∈ payloads, 1 ≤ p.length ∧ p.length ≤ s.cfg.txCap) ∧
      ∀ a, a ≠ appendAddress s 0 → silent = 0 ∨ a ≠ 0 → readByte t.txbuf a = readByte s.txbuf a

/-- spec/45_ack_retry.md R221, R222: any byte but 0xFE, 0xFF included, ends the wait at once with ERROR; no further
attempt is made, whatever budget is left. -/
def Obligations.WaitForAckNak : Prop :=
  ∀ (s : State) (n : Word) (silent : Nat) (b : Byte) (rest : List (List Byte)),
    Ready .waitForAck s → TxOk s → CallsReturn s → silent < n.toNat → b ≠ 0xFE#8 →
    s.answers = List.replicate silent [] ++ [b] :: rest →
    ∃ (t : State) (payloads : List (List Byte)), exec (.waitForAck n) s = .next t ∧
      t = { s with
        txbuf := t.txbuf, txcur := 0, answers := rest, sess := .failed, lastStatus := .error, busy := false,
        trace := s.trace ++ payloads.map .ttransmit ++
          (attemptEvents (List.replicate silent [] ++ [[b]])).drop 1 ++ [.response .error 0#32] } ∧
      payloads.flatten = pendingBytes s ++ [calibrationByte] ∧
      (∀ p ∈ payloads, 1 ≤ p.length ∧ p.length ≤ s.cfg.txCap) ∧
      ∀ a, a ≠ appendAddress s 0 → silent = 0 ∨ a ≠ 0 → readByte t.txbuf a = readByte s.txbuf a

/-- spec/45_ack_retry.md R221: silence through the whole budget ends TIMEOUT after exactly n attempts; a budget of 0
makes no attempt and no event, and leaves the pending bytes pending (notes/assumptions/9.md). -/
def Obligations.WaitForAckSilence : Prop :=
  ∀ (s : State) (n : Word) (rest : List (List Byte)),
    Ready .waitForAck s → TxOk s → CallsReturn s → s.answers = List.replicate n.toNat [] ++ rest →
    (n = 0#32 → exec (.waitForAck n) s = .next (answered .timeout 0#32 { s with sess := .failed })) ∧
    (n ≠ 0#32 → ∃ (t : State) (payloads : List (List Byte)), exec (.waitForAck n) s = .next t ∧
      t = { s with
        txbuf := t.txbuf, txcur := 0, answers := rest, sess := .failed, lastStatus := .timeout, busy := false,
        trace := s.trace ++ payloads.map .ttransmit ++
          (attemptEvents (List.replicate n.toNat [])).drop 1 ++ [.response .timeout 0#32] } ∧
      payloads.flatten = pendingBytes s ++ [calibrationByte] ∧
      (∀ p ∈ payloads, 1 ≤ p.length ∧ p.length ≤ s.cfg.txCap) ∧
      ∀ a, a ≠ appendAddress s 0 → n = 1#32 ∨ a ≠ 0 → readByte t.txbuf a = readByte s.txbuf a)

/-! ## The handshake -/

/-- spec/44_handshake.md R190 to R193, R195 (d): with the correct echo and eight version bits to come, in refills of any
sizes with any noise among them, HANDSHAKE completes: the events in their order, the 509 bytes behind whatever was
pending, the LFSR after 500 steps, the version, the session LINKED. -/
def Obligations.HandshakeSucceeds : Prop :=
  ∀ (s : State) (vbits more : List Bool) (pre tail : List (List Byte)),
    Ready .handshake s → TxOk s → RxOk s → CallsReturn s → s.answers = pre ++ tail → Refills s.cfg pre →
    vbits.length = 8 →
    incomingBits s pre = responseBits ++ vbits ++ more →
    ∃ (t : State) (payloads taken₁ taken₂ left : List (List Byte)),
      exec .handshake s = .next t ∧
      t = { s with
        lfsr := 0x14#8, version := versionOf vbits, txbuf := t.txbuf, txcur := 0, rxbuf := t.rxbuf,
        rxcur := t.rxcur, rxlen := t.rxlen, hsState := .done, sess := .linked, lastStatus := .ok, busy := false,
        answers := left ++ tail,
        trace := s.trace ++ [.progress .handshakeStart 0#32 0#32, .treset] ++ payloads.map .ttransmit ++
          [.progress .responseStart 0#32 0#32] ++ taken₁.map (.treceive s.cfg.rxCap 100#32) ++
          [.progress .versionStart 0#32 0#32] ++ taken₂.map (.treceive s.cfg.rxCap 50#32) ++
          [.progress .handshakeDone 0#32 0#32, .response .ok ((versionOf vbits).setWidth 32)] } ∧
      payloads.flatten = pendingBytes s ++ handshakeStream ∧
      (∀ p ∈ payloads, 1 ≤ p.length ∧ p.length ≤ s.cfg.txCap) ∧
      pre = taken₁ ++ taken₂ ++ left ∧ incomingBits t left = more ∧ RxOk t ∧
      (∀ a, (∀ i < 509, a ≠ appendAddress s i) → readByte t.txbuf a = readByte s.txbuf a) ∧
      (∀ a, (∀ ans ∈ taken₁ ++ taken₂, ans.length ≤ a) → readByte t.rxbuf a = readByte s.rxbuf a)

/-- spec/44_handshake.md R194: a response bit that differs, the `i`-th, ends HANDSHAKE with ERROR: the LFSR after
251 + i steps, HS_STATE = Error, the session FAILED, VERSION as it was, TXCUR = 0, no progress event after
Response-Start, and the bits behind the differing one still to come. -/
def Obligations.HandshakeMismatch : Prop :=
  ∀ (s : State) (i : Nat) (b : Bool) (more : List Bool) (pre tail : List (List Byte)),
    Ready .handshake s → TxOk s → RxOk s → CallsReturn s → s.answers = pre ++ tail → Refills s.cfg pre →
    responseBits[i]? = some (!b) → incomingBits s pre = responseBits.take i ++ b :: more →
    ∃ (t : State) (payloads taken left : List (List Byte)),
      exec .handshake s = .next t ∧
      t = { s with
        lfsr := lfsrAfter (251 + i) handshakeSeed, txbuf := t.txbuf, txcur := 0, rxbuf := t.rxbuf,
        rxcur := t.rxcur, rxlen := t.rxlen, hsState := .error, sess := .failed, lastStatus := .error, busy := false,
        answers := left ++ tail,
        trace := s.trace ++ [.progress .handshakeStart 0#32 0#32, .treset] ++ payloads.map .ttransmit ++
          [.progress .responseStart 0#32 0#32] ++ taken.map (.treceive s.cfg.rxCap 100#32) ++
          [.response .error 0#32] } ∧
      payloads.flatten = pendingBytes s ++ handshakeStream ∧
      (∀ p ∈ payloads, 1 ≤ p.length ∧ p.length ≤ s.cfg.txCap) ∧
      pre = taken ++ left ∧ incomingBits t left = more ∧ RxOk t ∧
      (∀ a, (∀ j < 509, a ≠ appendAddress s j) → readByte t.txbuf a = readByte s.txbuf a) ∧
      (∀ a, (∀ ans ∈ taken, ans.length ≤ a) → readByte t.rxbuf a = readByte s.rxbuf a)

/-- spec/44_handshake.md R194: a receive of step 7 or step 8 that reports hardware-lost ends HANDSHAKE with TIMEOUT: the
LFSR after 250 + i steps in step 7 and after 500 in step 8, HS_STATE = Timeout, the session FAILED, VERSION as it was,
TXCUR = 0, the window cleared, no further progress event. -/
def Obligations.HandshakeTimesOut : Prop :=
  ∀ (s : State) (pre rest : List (List Byte)),
    Ready .handshake s → TxOk s → RxOk s → CallsReturn s → s.answers = pre ++ [] :: rest → Refills s.cfg pre →
    (∀ i < 250, incomingBits s pre = responseBits.take i →
      ∃ (t : State) (payloads : List (List Byte)), exec .handshake s = .next t ∧
        t = { s with
          lfsr := lfsrAfter (250 + i) handshakeSeed, txbuf := t.txbuf, txcur := 0, rxbuf := t.rxbuf, rxcur := 0,
          rxlen := 0, hsState := .timeout, sess := .failed, lastStatus := .timeout, busy := false, answers := rest,
          trace := s.trace ++ [.progress .handshakeStart 0#32 0#32, .treset] ++ payloads.map .ttransmit ++
            [.progress .responseStart 0#32 0#32] ++ (pre ++ [[]]).map (.treceive s.cfg.rxCap 100#32) ++
            [.response .timeout 0#32] } ∧
        payloads.flatten = pendingBytes s ++ handshakeStream ∧
        (∀ p ∈ payloads, 1 ≤ p.length ∧ p.length ≤ s.cfg.txCap) ∧
        (∀ a, (∀ j < 509, a ≠ appendAddress s j) → readByte t.txbuf a = readByte s.txbuf a) ∧
        (∀ a, (∀ ans ∈ pre, ans.length ≤ a) → readByte t.rxbuf a = readByte s.rxbuf a)) ∧
    (∀ vbits : List Bool, vbits.length < 8 → incomingBits s pre = responseBits ++ vbits →
      ∃ (t : State) (payloads taken₁ taken₂ : List (List Byte)), exec .handshake s = .next t ∧
        t = { s with
          lfsr := 0x14#8, txbuf := t.txbuf, txcur := 0, rxbuf := t.rxbuf, rxcur := 0, rxlen := 0,
          hsState := .timeout, sess := .failed, lastStatus := .timeout, busy := false, answers := rest,
          trace := s.trace ++ [.progress .handshakeStart 0#32 0#32, .treset] ++ payloads.map .ttransmit ++
            [.progress .responseStart 0#32 0#32] ++ taken₁.map (.treceive s.cfg.rxCap 100#32) ++
            [.progress .versionStart 0#32 0#32] ++ taken₂.map (.treceive s.cfg.rxCap 50#32) ++
            [.response .timeout 0#32] } ∧
        payloads.flatten = pendingBytes s ++ handshakeStream ∧ pre ++ [[]] = taken₁ ++ taken₂ ∧
        (∀ p ∈ payloads, 1 ≤ p.length ∧ p.length ≤ s.cfg.txCap) ∧
        (∀ a, (∀ j < 509, a ≠ appendAddress s j) → readByte t.txbuf a = readByte s.txbuf a) ∧
        (∀ a, (∀ ans ∈ pre, ans.length ≤ a) → readByte t.rxbuf a = readByte s.rxbuf a))

/-- spec/44_handshake.md R192, R191: the handshake's stream has 509 bytes, the calibration byte first, then the pattern,
then 258 calibration bytes; the response continues the same LFSR sequence. spec/46_load.md R244: the stream of a load has
22 + 11 x (size / 4) bytes, whatever the image and the kind words. -/
def Obligations.StreamShapes : Prop :=
  handshakeStream.length = 509 ∧
  handshakeStream = 0xF9#8 :: ((lfsrBits 500 0x50#8).take 250).map (fun b => 0xFE#8 ||| bit8 b) ++
    List.replicate 258 0xF9#8 ∧
  responseBits = (lfsrBits 500 0x50#8).drop 250 ∧
  (∀ (cfg : Config) (kind : LoadKind) (size : Word) (image : List Byte),
    (loadStream cfg kind size image).length = 22 + 11 * (size.toNat / 4))

/-- spec/44_handshake.md R193: the version bits arrive least significant first. -/
def Obligations.VersionBitsArriveLsbFirst : Prop :=
  ∀ v : Byte, versionOf ((List.range 8).map fun i => v.getLsbD i) = v

/-! ## The load -/

/-- spec/46_load.md R240 to R242, R244, R245: a Run or Shutdown load of a sound size, acknowledged within the budget of
400, completes: the stream behind whatever was pending, a Program report at each multiple of 1024 before its word is
appended, no other event among them, the attempts, the Done report, SESS = DONE. -/
def Obligations.LoadImageWithOneAck : Prop :=
  ∀ (s : State) (kind : LoadKind) (size : Word) (silent : Nat) (rest : List (List Byte)),
    Ready .loadImage s → TxOk s → CallsReturn s → kind = .run ∨ kind = .shutdown → size.toNat % 4 = 0 →
    size.toNat ≤ s.cfg.maxImage → size.toNat ≤ s.image.length → s.imageHeld = true → silent < 400 →
    s.answers = ackAnswers silent ++ rest →
    ∃ t : State, exec (.loadImage kind size) s = .next t ∧
      LoadEnded s t kind size (imageWords s.image (size.toNat / 4) 0)
        (attemptEvents (ackAnswers silent) ++ [.progress .done 0#32 size]) .done .ok rest

/-- spec/46_load.md R240 to R242, R245: an EEPROM load sends the same and waits for three ACKs, with budgets 400, 200 and
80, and reports EEPROM-Write and EEPROM-Verify between them. -/
def Obligations.LoadImageWithThreeAcks : Prop :=
  ∀ (s : State) (kind : LoadKind) (size : Word) (silent₁ silent₂ silent₃ : Nat) (rest : List (List Byte)),
    Ready .loadImage s → TxOk s → CallsReturn s → kind = .eeprom ∨ kind = .eepromRun → size.toNat % 4 = 0 →
    size.toNat ≤ s.cfg.maxImage → size.toNat ≤ s.image.length → s.imageHeld = true →
    silent₁ < 400 → silent₂ < 200 → silent₃ < 80 →
    s.answers = ackAnswers silent₁ ++ ackAnswers silent₂ ++ ackAnswers silent₃ ++ rest →
    ∃ t : State, exec (.loadImage kind size) s = .next t ∧
      LoadEnded s t kind size (imageWords s.image (size.toNat / 4) 0)
        (attemptEvents (ackAnswers silent₁) ++ [.progress .eepromWrite 0#32 size] ++
          attemptEvents (ackAnswers silent₂) ++ [.progress .eepromVerify 0#32 size] ++
          attemptEvents (ackAnswers silent₃) ++ [.progress .done 0#32 size]) .done .ok rest

/-- spec/46_load.md R241, R245 (e); spec/45_ack_retry.md R222, R223: where an acknowledgement does not succeed, LOAD_IMAGE
ends with its status, ERROR for a NAK and TIMEOUT after the whole budget in silence, and nothing follows it: the program
acknowledgement (400) of any kind, the EEPROM-write (200) and the EEPROM-verify (80) acknowledgements of the EEPROM kinds,
behind the acknowledged ones. Of a held image its words are sent, of another as many of any value
(notes/assumptions/4.md). -/
def Obligations.LoadImageShortCircuits : Prop :=
  ∀ (s : State) (kind : LoadKind) (size : Word) (failing rest : List (List Byte)) (st : Status),
    Ready .loadImage s → TxOk s → CallsReturn s → size.toNat % 4 = 0 → size.toNat ≤ s.cfg.maxImage →
    size.toNat ≤ s.image.length →
    (AckFailure 400 failing st → s.answers = failing ++ rest →
      ∃ (t : State) (words : List Word), exec (.loadImage kind size) s = .next t ∧ SentWords s size words ∧
        LoadEnded s t kind size words (attemptEvents failing) .failed st rest) ∧
    (∀ silent₁ : Nat, kind = .eeprom ∨ kind = .eepromRun → silent₁ < 400 → AckFailure 200 failing st →
      s.answers = ackAnswers silent₁ ++ failing ++ rest →
      ∃ (t : State) (words : List Word), exec (.loadImage kind size) s = .next t ∧ SentWords s size words ∧
        LoadEnded s t kind size words
          (attemptEvents (ackAnswers silent₁) ++ [.progress .eepromWrite 0#32 size] ++ attemptEvents failing)
          .failed st rest) ∧
    (∀ silent₁ silent₂ : Nat, kind = .eeprom ∨ kind = .eepromRun → silent₁ < 400 → silent₂ < 200 →
      AckFailure 80 failing st → s.answers = ackAnswers silent₁ ++ ackAnswers silent₂ ++ failing ++ rest →
      ∃ (t : State) (words : List Word), exec (.loadImage kind size) s = .next t ∧ SentWords s size words ∧
        LoadEnded s t kind size words
          (attemptEvents (ackAnswers silent₁) ++ [.progress .eepromWrite 0#32 size] ++
            attemptEvents (ackAnswers silent₂) ++ [.progress .eepromVerify 0#32 size] ++ attemptEvents failing)
          .failed st rest)

/-- spec/46_load.md R240; spec/60_exceptions.md R272, R276: a size that is no multiple of 4, above MAX_IMAGE or above the
image's length ends PRECOND with no effect but LAST_STATUS. -/
def Obligations.LoadImageChecksTheSize : Prop :=
  ∀ (s : State) (kind : LoadKind) (size : Word), Ready .loadImage s →
    size.toNat % 4 ≠ 0 ∨ s.cfg.maxImage < size.toNat ∨ s.image.length < size.toNat →
    exec (.loadImage kind size) s = .next (answered .precond 0#32 s)

/-- spec/20_memory.md R66; spec/93_implementation_defined.md S2: where the host changes IMAGE during the command, the load
of any kind still runs to its end; some words of the same number are sent, each framed as every word, and all else is as
with a held image. That the words are free is the model's form of "not defined" (notes/assumptions/4.md). -/
def Obligations.LoadImageWithChangingImage : Prop :=
  ∀ (s : State) (kind : LoadKind) (size : Word) (silent₁ silent₂ silent₃ : Nat) (rest : List (List Byte)),
    Ready .loadImage s → TxOk s → CallsReturn s → size.toNat % 4 = 0 → size.toNat ≤ s.cfg.maxImage →
    size.toNat ≤ s.image.length → s.imageHeld = false → silent₁ < 400 → silent₂ < 200 → silent₃ < 80 →
    (kind = .run ∨ kind = .shutdown → s.answers = ackAnswers silent₁ ++ rest →
      ∃ (t : State) (words : List Word), exec (.loadImage kind size) s = .next t ∧ words.length = size.toNat / 4 ∧
        LoadEnded s t kind size words
          (attemptEvents (ackAnswers silent₁) ++ [.progress .done 0#32 size]) .done .ok rest) ∧
    (kind = .eeprom ∨ kind = .eepromRun →
      s.answers = ackAnswers silent₁ ++ ackAnswers silent₂ ++ ackAnswers silent₃ ++ rest →
      ∃ (t : State) (words : List Word), exec (.loadImage kind size) s = .next t ∧ words.length = size.toNat / 4 ∧
        LoadEnded s t kind size words
          (attemptEvents (ackAnswers silent₁) ++ [.progress .eepromWrite 0#32 size] ++
            attemptEvents (ackAnswers silent₂) ++ [.progress .eepromVerify 0#32 size] ++
            attemptEvents (ackAnswers silent₃) ++ [.progress .done 0#32 size]) .done .ok rest)

/-! ## Dispatch and session -/

/-- spec/40_control.md R112: the gating table, and PRECOND for every "no" of it, with no effect but LAST_STATUS. -/
def Obligations.SessionGating : Prop :=
  (∀ sess, allowed .init sess = true ∧ allowed .readReg sess = true) ∧
  (∀ op ∈ [Opcode.lfsrSeed, .lfsrStep, .appendByte, .appendWord, .flush, .receiveBit, .waitForAck],
    allowed op .ready = true ∧ allowed op .linked = true ∧ allowed op .done = true ∧ allowed op .failed = false) ∧
  (allowed .handshake .ready = true ∧ allowed .handshake .linked = false ∧ allowed .handshake .done = false ∧
    allowed .handshake .failed = false) ∧
  (∀ op ∈ [Opcode.loadImage, .shutdown],
    allowed op .ready = false ∧ allowed op .linked = true ∧ allowed op .done = false ∧ allowed op .failed = false) ∧
  (∀ (i : Instr) (s : State), s.busy = false → allowed i.opcode s.sess = false →
    exec i s = .next (answered .precond 0#32 s))

/-- spec/60_exceptions.md R272: whenever a command ends PRECOND or ILLEGAL, it made no transport and no progress event
and changed no state but LAST_STATUS. -/
def Obligations.RefusalChangesOnlyLastStatus : Prop :=
  ∀ (s t : State) (word : Command), s.busy = false → runWord word s = .next t → t.busy = false →
    t.lastStatus = .precond ∨ t.lastStatus = .illegal → t = answered t.lastStatus 0#32 s

/-- spec/30_encoding.md R93; spec/40_control.md R111: a step on a word with a reserved OP, a must-be-zero bit set or a
READ_REG index above 0x08 ends ILLEGAL in every session state, with no effect but LAST_STATUS and the host's move made. -/
def Obligations.IllegalWordEndsIllegal : Prop :=
  ∀ (s : State) (word : Command) (image : List Byte) (held : Bool) (rest : List HostMove),
    s.host = .command word image held :: rest → s.busy = false →
    (cmdOp word = 0x00#8 ∨ 0x0D#8 ≤ cmdOp word ∨
      (∃ op : Opcode, op.code = cmdOp word ∧
        (cmdArg0 word >>> op.arg0Bits ≠ 0#32 ∨ cmdArg1 word >>> op.arg1Bits ≠ 0#32)) ∨
      (cmdOp word = 0x02#8 ∧ 0x08#8 < (cmdArg0 word).setWidth 8)) →
    step s = .next (answered .illegal 0#32 { s with host := rest, image := image, imageHeld := held })

/-- spec/40_control.md R110, R111: a step on a legal word is exec of its command, in the state in which the move is made
and the image given. -/
def Obligations.StepRunsTheDecodedCommand : Prop :=
  ∀ (s : State) (word : Command) (image : List Byte) (held : Bool) (rest : List HostMove) (i : Instr),
    s.host = .command word image held :: rest → s.busy = false → decode word = .ok i →
    step s = exec i { s with host := rest, image := image, imageHeld := held }

/-- spec/70_reset_and_hazards.md R302: with no command presented the block waits. -/
def Obligations.StepWaitsForACommand : Prop :=
  ∀ s : State, s.host = [] → s.busy = false → step s = .next s

/-- spec/93_implementation_defined.md S1, the model's choice of notes/assumptions/1.md: a command given while BUSY = 1 is
not admitted. -/
def Obligations.CommandWhileBusyIsRefused : Prop :=
  ∀ (i : Instr) (s : State), s.busy = true → exec i s = .refused .commandWhileBusy

/-- spec/40_control.md R110; spec/20_memory.md R59: a command that waits for the transport goes on, when further answers
come, exactly as if they had been there from the start, and a command whose call never returns takes none of them. That
a command is suspended between two steps where no answer is ready is the model's form (notes/assumptions/2.md). -/
def Obligations.WaitingCommandGoesOn : Prop :=
  ∀ (i : Instr) (s t : State) (first more : List (List Byte)),
    s.running = none → resetsNext s = false → exec i { s with answers := first } = .next t → t.busy = true →
    more ≠ [] → step { t with answers := t.answers ++ more } = exec i { s with answers := first ++ more }

/-- spec/20_memory.md R58; spec/93_implementation_defined.md U8, S5; the model's form in notes/assumptions/2.md: with no
scripted answer left, a command that waits in a TReceive goes on with the transport's free draw, cut to max bytes, or
waits on while the call has not returned. -/
def Obligations.WaitingCommandDrawsAnAnswer : Prop :=
  ∀ (s : State) (p : Pending), s.busy = true → s.running = some p → (∀ op, p ≠ .hung op) → s.answers = [] →
    resetsNext s = false →
    (∀ a, Config.transportDraw s.draws = some a →
      step s = step { s with draws := s.draws + 1, answers := [a.take (p.maxBytes s.cfg)] }) ∧
    (Config.transportDraw s.draws = none → step s = .next { s with draws := s.draws + 1 })

/-! ## Rules of the whole machine -/

/-- spec/10_state.md R31, R32, R26, R30; spec/41_encoder.md R136; spec/20_memory.md R57, R58: every step keeps the
invariant of the block. -/
def Obligations.StepKeepsSound : Prop :=
  ∀ s t : State, Sound s → step s = .next t → Sound t

/-- The reset state of every instance with the parameters in their ranges meets the invariant. -/
def Obligations.ResetIsSound : Prop :=
  (∀ cfg : Config, cfg.wf → Sound (State.resetOf cfg)) ∧ Sound State.reset

/-- No rule of the block accesses an address outside a buffer or the image, and no BUSY is without a command
(spec/20_memory.md R50, R51 to R53): from a sound state no step faults. -/
def Obligations.SoundStatesDoNotFault : Prop :=
  ∀ (s : State) (f : Fault), Sound s → step s ≠ .fault f

/-- spec/60_exceptions.md R274: in FAILED every command but INIT and READ_REG ends PRECOND, and only INIT or a block
reset leaves FAILED. -/
def Obligations.FailedIsLeftOnlyByInit : Prop :=
  (∀ (i : Instr) (s : State), s.sess = .failed → s.busy = false → i.opcode ≠ .init → i.opcode ≠ .readReg →
    exec i s = .next (answered .precond 0#32 s)) ∧
  (∀ s t : State, Sound s → s.sess = .failed → step s = .next t → t.sess ≠ .failed →
    resetsNext s = true ∨ commandOf s = some .init)

/-- spec/10_state.md R24: SESS changes at the points the rule lists, and only there. -/
def Obligations.SessionChangesOnlyWhereListed : Prop :=
  ∀ s t : State, step s = .next t →
    (resetsNext s = true ∨ commandOf s = some .init ∧ t.busy = false → t.sess = .ready) ∧
    (commandOf s = some .handshake → t.busy = false → t.lastStatus = .ok → t.sess = .linked) ∧
    (commandOf s = some .loadImage ∨ commandOf s = some .shutdown → t.busy = false → t.lastStatus = .ok →
      t.sess = .done) ∧
    (∀ op, commandOf s = some op → t.busy = false → t.lastStatus = .timeout ∨ t.lastStatus = .error →
      t.sess = .failed) ∧
    (t.sess ≠ s.sess →
      (t.sess = .ready ∧ (resetsNext s = true ∨ commandOf s = some .init)) ∨
      (t.sess = .linked ∧ commandOf s = some .handshake ∧ t.lastStatus = .ok ∧ t.busy = false) ∨
      (t.sess = .done ∧ (commandOf s = some .loadImage ∨ commandOf s = some .shutdown) ∧ t.lastStatus = .ok ∧
        t.busy = false) ∨
      (t.sess = .failed ∧ (t.lastStatus = .timeout ∨ t.lastStatus = .error) ∧ t.busy = false ∧ commandOf s ≠ none))

/-- spec/10_state.md R22, R27, R28, R30: which commands write LFSR, VERSION, HS_STATE and the receive window; VERSION is
written by HANDSHAKE only when it ends OK. -/
def Obligations.RegistersHaveTheirWriters : Prop :=
  ∀ s t : State, step s = .next t → resetsNext s = false → commandOf s ≠ some .init →
    (t.lfsr ≠ s.lfsr → commandOf s ∈ [some .lfsrSeed, some .lfsrStep, some .handshake]) ∧
    (t.version ≠ s.version → commandOf s = some .handshake ∧ t.lastStatus = .ok ∧ t.busy = false) ∧
    (t.hsState ≠ s.hsState → commandOf s = some .handshake) ∧
    (¬(t.rxbuf = s.rxbuf ∧ t.rxcur = s.rxcur ∧ t.rxlen = s.rxlen) →
      commandOf s ∈ [some .receiveBit, some .handshake]) ∧
    (¬(t.txbuf = s.txbuf ∧ t.txcur = s.txcur) →
      commandOf s ∈ [some .appendByte, some .appendWord, some .flush, some .handshake, some .waitForAck,
        some .loadImage, some .shutdown])

/-- spec/10_state.md R33: no step writes the instance's parameters. spec/00_scope.md R12: events are only ever added, so
what the ports have shown stays shown. -/
def Obligations.StepKeepsParametersAndEvents : Prop :=
  ∀ s t : State, step s = .next t → t.cfg = s.cfg ∧ s.trace <+: t.trace

/-- spec/40_control.md R110: each accepted command gets exactly one response, but for a command that a block reset drops:
in a step without a block reset, the responses given and the command still in progress count up by one with each
acceptance, and else not at all; a block reset gives no response and leaves no command in progress
(notes/assumptions/7.md). -/
def Obligations.OneResponsePerCommand : Prop :=
  ∀ s t : State, step s = .next t →
    (resetsNext s = false →
      responseCount t.trace + (if t.busy then 1 else 0) =
        responseCount s.trace + (if s.busy then 1 else 0) + (if acceptsNext s then 1 else 0)) ∧
    (resetsNext s = true → responseCount t.trace = responseCount s.trace ∧ t.busy = false)

/-- spec/10_state.md R25; spec/40_control.md R113; spec/60_exceptions.md R273: the response is the last event of its
command, carries LAST_STATUS, and carries no data unless it is OK; after TIMEOUT and ERROR the session is FAILED. -/
def Obligations.ResponseEndsTheCommand : Prop :=
  ∀ s t : State, step s = .next t → responseCount s.trace < responseCount t.trace →
    t.busy = false ∧
    (∃ es data, t.trace = s.trace ++ es ++ [.response t.lastStatus data] ∧ responseCount es = 0 ∧
      (t.lastStatus ≠ .ok → data = 0#32)) ∧
    (t.lastStatus = .timeout ∨ t.lastStatus = .error → t.sess = .failed)
end

