-- ==== Sys2Proof/Laws/State.lean ====
section
/-! SUPPORT. One lemma per field per named update of the state, so that no proof unfolds a record update. -/

namespace Sys2Proof.Machine

open Sys2Proof

/-! ## emit -/

@[simp] theorem emit_cfg (e : Event) (s : State) : (s.emit e).cfg = s.cfg := rfl
@[simp] theorem emit_lfsr (e : Event) (s : State) : (s.emit e).lfsr = s.lfsr := rfl
@[simp] theorem emit_version (e : Event) (s : State) : (s.emit e).version = s.version := rfl
@[simp] theorem emit_txbuf (e : Event) (s : State) : (s.emit e).txbuf = s.txbuf := rfl
@[simp] theorem emit_txcur (e : Event) (s : State) : (s.emit e).txcur = s.txcur := rfl
@[simp] theorem emit_rxbuf (e : Event) (s : State) : (s.emit e).rxbuf = s.rxbuf := rfl
@[simp] theorem emit_rxcur (e : Event) (s : State) : (s.emit e).rxcur = s.rxcur := rfl
@[simp] theorem emit_rxlen (e : Event) (s : State) : (s.emit e).rxlen = s.rxlen := rfl
@[simp] theorem emit_hsState (e : Event) (s : State) : (s.emit e).hsState = s.hsState := rfl
@[simp] theorem emit_sess (e : Event) (s : State) : (s.emit e).sess = s.sess := rfl
@[simp] theorem emit_lastStatus (e : Event) (s : State) : (s.emit e).lastStatus = s.lastStatus := rfl
@[simp] theorem emit_busy (e : Event) (s : State) : (s.emit e).busy = s.busy := rfl
@[simp] theorem emit_running (e : Event) (s : State) : (s.emit e).running = s.running := rfl
@[simp] theorem emit_host (e : Event) (s : State) : (s.emit e).host = s.host := rfl
@[simp] theorem emit_image (e : Event) (s : State) : (s.emit e).image = s.image := rfl
@[simp] theorem emit_imageHeld (e : Event) (s : State) : (s.emit e).imageHeld = s.imageHeld := rfl
@[simp] theorem emit_answers (e : Event) (s : State) : (s.emit e).answers = s.answers := rfl
@[simp] theorem emit_returns (e : Event) (s : State) : (s.emit e).returns = s.returns := rfl
@[simp] theorem emit_draws (e : Event) (s : State) : (s.emit e).draws = s.draws := rfl
@[simp] theorem emit_trace (e : Event) (s : State) : (s.emit e).trace = s.trace ++ [e] := rfl

/-! ## called -/

@[simp] theorem called_cfg (e : Event) (s : State) : (s.called e).cfg = s.cfg := rfl
@[simp] theorem called_lfsr (e : Event) (s : State) : (s.called e).lfsr = s.lfsr := rfl
@[simp] theorem called_version (e : Event) (s : State) : (s.called e).version = s.version := rfl
@[simp] theorem called_txbuf (e : Event) (s : State) : (s.called e).txbuf = s.txbuf := rfl
@[simp] theorem called_txcur (e : Event) (s : State) : (s.called e).txcur = s.txcur := rfl
@[simp] theorem called_rxbuf (e : Event) (s : State) : (s.called e).rxbuf = s.rxbuf := rfl
@[simp] theorem called_rxcur (e : Event) (s : State) : (s.called e).rxcur = s.rxcur := rfl
@[simp] theorem called_rxlen (e : Event) (s : State) : (s.called e).rxlen = s.rxlen := rfl
@[simp] theorem called_hsState (e : Event) (s : State) : (s.called e).hsState = s.hsState := rfl
@[simp] theorem called_sess (e : Event) (s : State) : (s.called e).sess = s.sess := rfl
@[simp] theorem called_lastStatus (e : Event) (s : State) : (s.called e).lastStatus = s.lastStatus := rfl
@[simp] theorem called_busy (e : Event) (s : State) : (s.called e).busy = s.busy := rfl
@[simp] theorem called_running (e : Event) (s : State) : (s.called e).running = s.running := rfl
@[simp] theorem called_host (e : Event) (s : State) : (s.called e).host = s.host := rfl
@[simp] theorem called_image (e : Event) (s : State) : (s.called e).image = s.image := rfl
@[simp] theorem called_imageHeld (e : Event) (s : State) : (s.called e).imageHeld = s.imageHeld := rfl
@[simp] theorem called_answers (e : Event) (s : State) : (s.called e).answers = s.answers := rfl
@[simp] theorem called_returns (e : Event) (s : State) : (s.called e).returns = s.returns.tail := rfl
@[simp] theorem called_draws (e : Event) (s : State) : (s.called e).draws = s.draws := rfl
@[simp] theorem called_trace (e : Event) (s : State) : (s.called e).trace = s.trace ++ [e] := rfl

/-! ## progress -/

@[simp] theorem progress_cfg (phase : Phase) (offset total : Word) (s : State) : (progress phase offset total s).cfg = s.cfg := rfl
@[simp] theorem progress_lfsr (phase : Phase) (offset total : Word) (s : State) : (progress phase offset total s).lfsr = s.lfsr := rfl
@[simp] theorem progress_version (phase : Phase) (offset total : Word) (s : State) : (progress phase offset total s).version = s.version := rfl
@[simp] theorem progress_txbuf (phase : Phase) (offset total : Word) (s : State) : (progress phase offset total s).txbuf = s.txbuf := rfl
@[simp] theorem progress_txcur (phase : Phase) (offset total : Word) (s : State) : (progress phase offset total s).txcur = s.txcur := rfl
@[simp] theorem progress_rxbuf (phase : Phase) (offset total : Word) (s : State) : (progress phase offset total s).rxbuf = s.rxbuf := rfl
@[simp] theorem progress_rxcur (phase : Phase) (offset total : Word) (s : State) : (progress phase offset total s).rxcur = s.rxcur := rfl
@[simp] theorem progress_rxlen (phase : Phase) (offset total : Word) (s : State) : (progress phase offset total s).rxlen = s.rxlen := rfl
@[simp] theorem progress_hsState (phase : Phase) (offset total : Word) (s : State) : (progress phase offset total s).hsState = s.hsState := rfl
@[simp] theorem progress_sess (phase : Phase) (offset total : Word) (s : State) : (progress phase offset total s).sess = s.sess := rfl
@[simp] theorem progress_lastStatus (phase : Phase) (offset total : Word) (s : State) : (progress phase offset total s).lastStatus = s.lastStatus := rfl
@[simp] theorem progress_busy (phase : Phase) (offset total : Word) (s : State) : (progress phase offset total s).busy = s.busy := rfl
@[simp] theorem progress_running (phase : Phase) (offset total : Word) (s : State) : (progress phase offset total s).running = s.running := rfl
@[simp] theorem progress_host (phase : Phase) (offset total : Word) (s : State) : (progress phase offset total s).host = s.host := rfl
@[simp] theorem progress_image (phase : Phase) (offset total : Word) (s : State) : (progress phase offset total s).image = s.image := rfl
@[simp] theorem progress_imageHeld (phase : Phase) (offset total : Word) (s : State) : (progress phase offset total s).imageHeld = s.imageHeld := rfl
@[simp] theorem progress_answers (phase : Phase) (offset total : Word) (s : State) : (progress phase offset total s).answers = s.answers := rfl
@[simp] theorem progress_returns (phase : Phase) (offset total : Word) (s : State) : (progress phase offset total s).returns = s.returns := rfl
@[simp] theorem progress_draws (phase : Phase) (offset total : Word) (s : State) : (progress phase offset total s).draws = s.draws := rfl
@[simp] theorem progress_trace (phase : Phase) (offset total : Word) (s : State) : (progress phase offset total s).trace = s.trace ++ [.progress phase offset total] := rfl

/-! ## lfsrStep -/

@[simp] theorem lfsrStep_cfg (s : State) : (lfsrStep s).cfg = s.cfg := rfl
@[simp] theorem lfsrStep_lfsr (s : State) : (lfsrStep s).lfsr = lfsrNext s.lfsr := rfl
@[simp] theorem lfsrStep_version (s : State) : (lfsrStep s).version = s.version := rfl
@[simp] theorem lfsrStep_txbuf (s : State) : (lfsrStep s).txbuf = s.txbuf := rfl
@[simp] theorem lfsrStep_txcur (s : State) : (lfsrStep s).txcur = s.txcur := rfl
@[simp] theorem lfsrStep_rxbuf (s : State) : (lfsrStep s).rxbuf = s.rxbuf := rfl
@[simp] theorem lfsrStep_rxcur (s : State) : (lfsrStep s).rxcur = s.rxcur := rfl
@[simp] theorem lfsrStep_rxlen (s : State) : (lfsrStep s).rxlen = s.rxlen := rfl
@[simp] theorem lfsrStep_hsState (s : State) : (lfsrStep s).hsState = s.hsState := rfl
@[simp] theorem lfsrStep_sess (s : State) : (lfsrStep s).sess = s.sess := rfl
@[simp] theorem lfsrStep_lastStatus (s : State) : (lfsrStep s).lastStatus = s.lastStatus := rfl
@[simp] theorem lfsrStep_busy (s : State) : (lfsrStep s).busy = s.busy := rfl
@[simp] theorem lfsrStep_running (s : State) : (lfsrStep s).running = s.running := rfl
@[simp] theorem lfsrStep_host (s : State) : (lfsrStep s).host = s.host := rfl
@[simp] theorem lfsrStep_image (s : State) : (lfsrStep s).image = s.image := rfl
@[simp] theorem lfsrStep_imageHeld (s : State) : (lfsrStep s).imageHeld = s.imageHeld := rfl
@[simp] theorem lfsrStep_answers (s : State) : (lfsrStep s).answers = s.answers := rfl
@[simp] theorem lfsrStep_returns (s : State) : (lfsrStep s).returns = s.returns := rfl
@[simp] theorem lfsrStep_draws (s : State) : (lfsrStep s).draws = s.draws := rfl
@[simp] theorem lfsrStep_trace (s : State) : (lfsrStep s).trace = s.trace := rfl

/-! ## fillWindow -/

@[simp] theorem fillWindow_cfg (answer : List Byte) (s : State) : (fillWindow answer s).cfg = s.cfg := rfl
@[simp] theorem fillWindow_lfsr (answer : List Byte) (s : State) : (fillWindow answer s).lfsr = s.lfsr := rfl
@[simp] theorem fillWindow_version (answer : List Byte) (s : State) : (fillWindow answer s).version = s.version := rfl
@[simp] theorem fillWindow_txbuf (answer : List Byte) (s : State) : (fillWindow answer s).txbuf = s.txbuf := rfl
@[simp] theorem fillWindow_txcur (answer : List Byte) (s : State) : (fillWindow answer s).txcur = s.txcur := rfl
@[simp] theorem fillWindow_rxbuf (answer : List Byte) (s : State) : (fillWindow answer s).rxbuf = writeBytes s.rxbuf 0 answer := rfl
@[simp] theorem fillWindow_rxcur (answer : List Byte) (s : State) : (fillWindow answer s).rxcur = 0 := rfl
@[simp] theorem fillWindow_rxlen (answer : List Byte) (s : State) : (fillWindow answer s).rxlen = answer.length := rfl
@[simp] theorem fillWindow_hsState (answer : List Byte) (s : State) : (fillWindow answer s).hsState = s.hsState := rfl
@[simp] theorem fillWindow_sess (answer : List Byte) (s : State) : (fillWindow answer s).sess = s.sess := rfl
@[simp] theorem fillWindow_lastStatus (answer : List Byte) (s : State) : (fillWindow answer s).lastStatus = s.lastStatus := rfl
@[simp] theorem fillWindow_busy (answer : List Byte) (s : State) : (fillWindow answer s).busy = s.busy := rfl
@[simp] theorem fillWindow_running (answer : List Byte) (s : State) : (fillWindow answer s).running = s.running := rfl
@[simp] theorem fillWindow_host (answer : List Byte) (s : State) : (fillWindow answer s).host = s.host := rfl
@[simp] theorem fillWindow_image (answer : List Byte) (s : State) : (fillWindow answer s).image = s.image := rfl
@[simp] theorem fillWindow_imageHeld (answer : List Byte) (s : State) : (fillWindow answer s).imageHeld = s.imageHeld := rfl
@[simp] theorem fillWindow_answers (answer : List Byte) (s : State) : (fillWindow answer s).answers = s.answers := rfl
@[simp] theorem fillWindow_returns (answer : List Byte) (s : State) : (fillWindow answer s).returns = s.returns := rfl
@[simp] theorem fillWindow_draws (answer : List Byte) (s : State) : (fillWindow answer s).draws = s.draws := rfl
@[simp] theorem fillWindow_trace (answer : List Byte) (s : State) : (fillWindow answer s).trace = s.trace := rfl

/-! ## handshakeTimeout -/

@[simp] theorem handshakeTimeout_cfg (s : State) : (handshakeTimeout s).cfg = s.cfg := rfl
@[simp] theorem handshakeTimeout_lfsr (s : State) : (handshakeTimeout s).lfsr = s.lfsr := rfl
@[simp] theorem handshakeTimeout_version (s : State) : (handshakeTimeout s).version = s.version := rfl
@[simp] theorem handshakeTimeout_txbuf (s : State) : (handshakeTimeout s).txbuf = s.txbuf := rfl
@[simp] theorem handshakeTimeout_txcur (s : State) : (handshakeTimeout s).txcur = s.txcur := rfl
@[simp] theorem handshakeTimeout_rxbuf (s : State) : (handshakeTimeout s).rxbuf = s.rxbuf := rfl
@[simp] theorem handshakeTimeout_rxcur (s : State) : (handshakeTimeout s).rxcur = s.rxcur := rfl
@[simp] theorem handshakeTimeout_rxlen (s : State) : (handshakeTimeout s).rxlen = s.rxlen := rfl
@[simp] theorem handshakeTimeout_hsState (s : State) : (handshakeTimeout s).hsState = .timeout := rfl
@[simp] theorem handshakeTimeout_sess (s : State) : (handshakeTimeout s).sess = s.sess := rfl
@[simp] theorem handshakeTimeout_lastStatus (s : State) : (handshakeTimeout s).lastStatus = s.lastStatus := rfl
@[simp] theorem handshakeTimeout_busy (s : State) : (handshakeTimeout s).busy = s.busy := rfl
@[simp] theorem handshakeTimeout_running (s : State) : (handshakeTimeout s).running = s.running := rfl
@[simp] theorem handshakeTimeout_host (s : State) : (handshakeTimeout s).host = s.host := rfl
@[simp] theorem handshakeTimeout_image (s : State) : (handshakeTimeout s).image = s.image := rfl
@[simp] theorem handshakeTimeout_imageHeld (s : State) : (handshakeTimeout s).imageHeld = s.imageHeld := rfl
@[simp] theorem handshakeTimeout_answers (s : State) : (handshakeTimeout s).answers = s.answers := rfl
@[simp] theorem handshakeTimeout_returns (s : State) : (handshakeTimeout s).returns = s.returns := rfl
@[simp] theorem handshakeTimeout_draws (s : State) : (handshakeTimeout s).draws = s.draws := rfl
@[simp] theorem handshakeTimeout_trace (s : State) : (handshakeTimeout s).trace = s.trace := rfl

/-! ## failureEntry -/

@[simp] theorem failureEntry_cfg (s : State) : (failureEntry s).cfg = s.cfg := rfl
@[simp] theorem failureEntry_lfsr (s : State) : (failureEntry s).lfsr = s.lfsr := rfl
@[simp] theorem failureEntry_version (s : State) : (failureEntry s).version = s.version := rfl
@[simp] theorem failureEntry_txbuf (s : State) : (failureEntry s).txbuf = s.txbuf := rfl
@[simp] theorem failureEntry_txcur (s : State) : (failureEntry s).txcur = s.txcur := rfl
@[simp] theorem failureEntry_rxbuf (s : State) : (failureEntry s).rxbuf = s.rxbuf := rfl
@[simp] theorem failureEntry_rxcur (s : State) : (failureEntry s).rxcur = s.rxcur := rfl
@[simp] theorem failureEntry_rxlen (s : State) : (failureEntry s).rxlen = s.rxlen := rfl
@[simp] theorem failureEntry_hsState (s : State) : (failureEntry s).hsState = s.hsState := rfl
@[simp] theorem failureEntry_sess (s : State) : (failureEntry s).sess = .failed := rfl
@[simp] theorem failureEntry_lastStatus (s : State) : (failureEntry s).lastStatus = s.lastStatus := rfl
@[simp] theorem failureEntry_busy (s : State) : (failureEntry s).busy = s.busy := rfl
@[simp] theorem failureEntry_running (s : State) : (failureEntry s).running = s.running := rfl
@[simp] theorem failureEntry_host (s : State) : (failureEntry s).host = s.host := rfl
@[simp] theorem failureEntry_image (s : State) : (failureEntry s).image = s.image := rfl
@[simp] theorem failureEntry_imageHeld (s : State) : (failureEntry s).imageHeld = s.imageHeld := rfl
@[simp] theorem failureEntry_answers (s : State) : (failureEntry s).answers = s.answers := rfl
@[simp] theorem failureEntry_returns (s : State) : (failureEntry s).returns = s.returns := rfl
@[simp] theorem failureEntry_draws (s : State) : (failureEntry s).draws = s.draws := rfl
@[simp] theorem failureEntry_trace (s : State) : (failureEntry s).trace = s.trace := rfl

/-! ## accept -/

@[simp] theorem accept_cfg (s : State) : (accept s).cfg = s.cfg := rfl
@[simp] theorem accept_lfsr (s : State) : (accept s).lfsr = s.lfsr := rfl
@[simp] theorem accept_version (s : State) : (accept s).version = s.version := rfl
@[simp] theorem accept_txbuf (s : State) : (accept s).txbuf = s.txbuf := rfl
@[simp] theorem accept_txcur (s : State) : (accept s).txcur = s.txcur := rfl
@[simp] theorem accept_rxbuf (s : State) : (accept s).rxbuf = s.rxbuf := rfl
@[simp] theorem accept_rxcur (s : State) : (accept s).rxcur = s.rxcur := rfl
@[simp] theorem accept_rxlen (s : State) : (accept s).rxlen = s.rxlen := rfl
@[simp] theorem accept_hsState (s : State) : (accept s).hsState = s.hsState := rfl
@[simp] theorem accept_sess (s : State) : (accept s).sess = s.sess := rfl
@[simp] theorem accept_lastStatus (s : State) : (accept s).lastStatus = s.lastStatus := rfl
@[simp] theorem accept_busy (s : State) : (accept s).busy = true := rfl
@[simp] theorem accept_running (s : State) : (accept s).running = s.running := rfl
@[simp] theorem accept_host (s : State) : (accept s).host = s.host := rfl
@[simp] theorem accept_image (s : State) : (accept s).image = s.image := rfl
@[simp] theorem accept_imageHeld (s : State) : (accept s).imageHeld = s.imageHeld := rfl
@[simp] theorem accept_answers (s : State) : (accept s).answers = s.answers := rfl
@[simp] theorem accept_returns (s : State) : (accept s).returns = s.returns := rfl
@[simp] theorem accept_draws (s : State) : (accept s).draws = s.draws := rfl
@[simp] theorem accept_trace (s : State) : (accept s).trace = s.trace := rfl

/-! ## complete -/

@[simp] theorem complete_cfg (st : Status) (data : Word) (s : State) : (complete st data s).cfg = s.cfg := by cases st <;> rfl
@[simp] theorem complete_lfsr (st : Status) (data : Word) (s : State) : (complete st data s).lfsr = s.lfsr := by cases st <;> rfl
@[simp] theorem complete_version (st : Status) (data : Word) (s : State) : (complete st data s).version = s.version := by cases st <;> rfl
@[simp] theorem complete_txbuf (st : Status) (data : Word) (s : State) : (complete st data s).txbuf = s.txbuf := by cases st <;> rfl
@[simp] theorem complete_txcur (st : Status) (data : Word) (s : State) : (complete st data s).txcur = s.txcur := by cases st <;> rfl
@[simp] theorem complete_rxbuf (st : Status) (data : Word) (s : State) : (complete st data s).rxbuf = s.rxbuf := by cases st <;> rfl
@[simp] theorem complete_rxcur (st : Status) (data : Word) (s : State) : (complete st data s).rxcur = s.rxcur := by cases st <;> rfl
@[simp] theorem complete_rxlen (st : Status) (data : Word) (s : State) : (complete st data s).rxlen = s.rxlen := by cases st <;> rfl
@[simp] theorem complete_hsState (st : Status) (data : Word) (s : State) : (complete st data s).hsState = s.hsState := by cases st <;> rfl
@[simp] theorem complete_sess (st : Status) (data : Word) (s : State) : (complete st data s).sess = if isFailure st then .failed else s.sess := by cases st <;> rfl
@[simp] theorem complete_lastStatus (st : Status) (data : Word) (s : State) : (complete st data s).lastStatus = st := by cases st <;> rfl
@[simp] theorem complete_busy (st : Status) (data : Word) (s : State) : (complete st data s).busy = false := by cases st <;> rfl
@[simp] theorem complete_running (st : Status) (data : Word) (s : State) : (complete st data s).running = s.running := by cases st <;> rfl
@[simp] theorem complete_host (st : Status) (data : Word) (s : State) : (complete st data s).host = s.host := by cases st <;> rfl
@[simp] theorem complete_image (st : Status) (data : Word) (s : State) : (complete st data s).image = s.image := by cases st <;> rfl
@[simp] theorem complete_imageHeld (st : Status) (data : Word) (s : State) : (complete st data s).imageHeld = s.imageHeld := by cases st <;> rfl
@[simp] theorem complete_answers (st : Status) (data : Word) (s : State) : (complete st data s).answers = s.answers := by cases st <;> rfl
@[simp] theorem complete_returns (st : Status) (data : Word) (s : State) : (complete st data s).returns = s.returns := by cases st <;> rfl
@[simp] theorem complete_draws (st : Status) (data : Word) (s : State) : (complete st data s).draws = s.draws := by cases st <;> rfl
@[simp] theorem complete_trace (st : Status) (data : Word) (s : State) : (complete st data s).trace = s.trace ++ [.response st (if st = .ok then data else 0#32)] := by cases st <;> rfl

/-! ## reinit -/

@[simp] theorem reinit_cfg (s : State) : (reinit s).cfg = s.cfg := rfl
@[simp] theorem reinit_lfsr (s : State) : (reinit s).lfsr = 0x00#8 := rfl
@[simp] theorem reinit_version (s : State) : (reinit s).version = 0x00#8 := rfl
@[simp] theorem reinit_txbuf (s : State) : (reinit s).txbuf = [] := rfl
@[simp] theorem reinit_txcur (s : State) : (reinit s).txcur = 0 := rfl
@[simp] theorem reinit_rxbuf (s : State) : (reinit s).rxbuf = [] := rfl
@[simp] theorem reinit_rxcur (s : State) : (reinit s).rxcur = 0 := rfl
@[simp] theorem reinit_rxlen (s : State) : (reinit s).rxlen = 0 := rfl
@[simp] theorem reinit_hsState (s : State) : (reinit s).hsState = .idle := rfl
@[simp] theorem reinit_sess (s : State) : (reinit s).sess = .ready := rfl
@[simp] theorem reinit_lastStatus (s : State) : (reinit s).lastStatus = s.lastStatus := rfl
@[simp] theorem reinit_busy (s : State) : (reinit s).busy = s.busy := rfl
@[simp] theorem reinit_running (s : State) : (reinit s).running = s.running := rfl
@[simp] theorem reinit_host (s : State) : (reinit s).host = s.host := rfl
@[simp] theorem reinit_image (s : State) : (reinit s).image = s.image := rfl
@[simp] theorem reinit_imageHeld (s : State) : (reinit s).imageHeld = s.imageHeld := rfl
@[simp] theorem reinit_answers (s : State) : (reinit s).answers = s.answers := rfl
@[simp] theorem reinit_returns (s : State) : (reinit s).returns = s.returns := rfl
@[simp] theorem reinit_draws (s : State) : (reinit s).draws = s.draws := rfl
@[simp] theorem reinit_trace (s : State) : (reinit s).trace = s.trace := rfl

/-! ## blockReset -/

@[simp] theorem blockReset_cfg (s : State) : (blockReset s).cfg = s.cfg := rfl
@[simp] theorem blockReset_lfsr (s : State) : (blockReset s).lfsr = 0x00#8 := rfl
@[simp] theorem blockReset_version (s : State) : (blockReset s).version = 0x00#8 := rfl
@[simp] theorem blockReset_txbuf (s : State) : (blockReset s).txbuf = [] := rfl
@[simp] theorem blockReset_txcur (s : State) : (blockReset s).txcur = 0 := rfl
@[simp] theorem blockReset_rxbuf (s : State) : (blockReset s).rxbuf = [] := rfl
@[simp] theorem blockReset_rxcur (s : State) : (blockReset s).rxcur = 0 := rfl
@[simp] theorem blockReset_rxlen (s : State) : (blockReset s).rxlen = 0 := rfl
@[simp] theorem blockReset_hsState (s : State) : (blockReset s).hsState = .idle := rfl
@[simp] theorem blockReset_sess (s : State) : (blockReset s).sess = .ready := rfl
@[simp] theorem blockReset_lastStatus (s : State) : (blockReset s).lastStatus = .ok := rfl
@[simp] theorem blockReset_busy (s : State) : (blockReset s).busy = false := rfl
@[simp] theorem blockReset_running (s : State) : (blockReset s).running = none := rfl
@[simp] theorem blockReset_host (s : State) : (blockReset s).host = s.host := rfl
@[simp] theorem blockReset_image (s : State) : (blockReset s).image = s.image := rfl
@[simp] theorem blockReset_imageHeld (s : State) : (blockReset s).imageHeld = s.imageHeld := rfl
@[simp] theorem blockReset_answers (s : State) : (blockReset s).answers = s.answers := rfl
@[simp] theorem blockReset_returns (s : State) : (blockReset s).returns = s.returns := rfl
@[simp] theorem blockReset_draws (s : State) : (blockReset s).draws = s.draws := rfl
@[simp] theorem blockReset_trace (s : State) : (blockReset s).trace = s.trace := rfl

/-! ## presented -/

@[simp] theorem presented_cfg (image : List Byte) (held : Bool) (rest : List HostMove) (s : State) : (presented image held rest s).cfg = s.cfg := rfl
@[simp] theorem presented_lfsr (image : List Byte) (held : Bool) (rest : List HostMove) (s : State) : (presented image held rest s).lfsr = s.lfsr := rfl
@[simp] theorem presented_version (image : List Byte) (held : Bool) (rest : List HostMove) (s : State) : (presented image held rest s).version = s.version := rfl
@[simp] theorem presented_txbuf (image : List Byte) (held : Bool) (rest : List HostMove) (s : State) : (presented image held rest s).txbuf = s.txbuf := rfl
@[simp] theorem presented_txcur (image : List Byte) (held : Bool) (rest : List HostMove) (s : State) : (presented image held rest s).txcur = s.txcur := rfl
@[simp] theorem presented_rxbuf (image : List Byte) (held : Bool) (rest : List HostMove) (s : State) : (presented image held rest s).rxbuf = s.rxbuf := rfl
@[simp] theorem presented_rxcur (image : List Byte) (held : Bool) (rest : List HostMove) (s : State) : (presented image held rest s).rxcur = s.rxcur := rfl
@[simp] theorem presented_rxlen (image : List Byte) (held : Bool) (rest : List HostMove) (s : State) : (presented image held rest s).rxlen = s.rxlen := rfl
@[simp] theorem presented_hsState (image : List Byte) (held : Bool) (rest : List HostMove) (s : State) : (presented image held rest s).hsState = s.hsState := rfl
@[simp] theorem presented_sess (image : List Byte) (held : Bool) (rest : List HostMove) (s : State) : (presented image held rest s).sess = s.sess := rfl
@[simp] theorem presented_lastStatus (image : List Byte) (held : Bool) (rest : List HostMove) (s : State) : (presented image held rest s).lastStatus = s.lastStatus := rfl
@[simp] theorem presented_busy (image : List Byte) (held : Bool) (rest : List HostMove) (s : State) : (presented image held rest s).busy = s.busy := rfl
@[simp] theorem presented_running (image : List Byte) (held : Bool) (rest : List HostMove) (s : State) : (presented image held rest s).running = s.running := rfl
@[simp] theorem presented_host (image : List Byte) (held : Bool) (rest : List HostMove) (s : State) : (presented image held rest s).host = rest := rfl
@[simp] theorem presented_image (image : List Byte) (held : Bool) (rest : List HostMove) (s : State) : (presented image held rest s).image = image := rfl
@[simp] theorem presented_imageHeld (image : List Byte) (held : Bool) (rest : List HostMove) (s : State) : (presented image held rest s).imageHeld = held := rfl
@[simp] theorem presented_answers (image : List Byte) (held : Bool) (rest : List HostMove) (s : State) : (presented image held rest s).answers = s.answers := rfl
@[simp] theorem presented_returns (image : List Byte) (held : Bool) (rest : List HostMove) (s : State) : (presented image held rest s).returns = s.returns := rfl
@[simp] theorem presented_draws (image : List Byte) (held : Bool) (rest : List HostMove) (s : State) : (presented image held rest s).draws = s.draws := rfl
@[simp] theorem presented_trace (image : List Byte) (held : Bool) (rest : List HostMove) (s : State) : (presented image held rest s).trace = s.trace := rfl

/-! ## placeCommand -/

@[simp] theorem placeCommand_cfg (word : Command) (s : State) : (placeCommand word s).cfg = s.cfg := rfl
@[simp] theorem placeCommand_lfsr (word : Command) (s : State) : (placeCommand word s).lfsr = s.lfsr := rfl
@[simp] theorem placeCommand_version (word : Command) (s : State) : (placeCommand word s).version = s.version := rfl
@[simp] theorem placeCommand_txbuf (word : Command) (s : State) : (placeCommand word s).txbuf = s.txbuf := rfl
@[simp] theorem placeCommand_txcur (word : Command) (s : State) : (placeCommand word s).txcur = s.txcur := rfl
@[simp] theorem placeCommand_rxbuf (word : Command) (s : State) : (placeCommand word s).rxbuf = s.rxbuf := rfl
@[simp] theorem placeCommand_rxcur (word : Command) (s : State) : (placeCommand word s).rxcur = s.rxcur := rfl
@[simp] theorem placeCommand_rxlen (word : Command) (s : State) : (placeCommand word s).rxlen = s.rxlen := rfl
@[simp] theorem placeCommand_hsState (word : Command) (s : State) : (placeCommand word s).hsState = s.hsState := rfl
@[simp] theorem placeCommand_sess (word : Command) (s : State) : (placeCommand word s).sess = s.sess := rfl
@[simp] theorem placeCommand_lastStatus (word : Command) (s : State) : (placeCommand word s).lastStatus = s.lastStatus := rfl
@[simp] theorem placeCommand_busy (word : Command) (s : State) : (placeCommand word s).busy = false := rfl
@[simp] theorem placeCommand_running (word : Command) (s : State) : (placeCommand word s).running = none := rfl
@[simp] theorem placeCommand_host (word : Command) (s : State) : (placeCommand word s).host = .command word s.image s.imageHeld :: s.host := rfl
@[simp] theorem placeCommand_image (word : Command) (s : State) : (placeCommand word s).image = s.image := rfl
@[simp] theorem placeCommand_imageHeld (word : Command) (s : State) : (placeCommand word s).imageHeld = s.imageHeld := rfl
@[simp] theorem placeCommand_answers (word : Command) (s : State) : (placeCommand word s).answers = s.answers := rfl
@[simp] theorem placeCommand_returns (word : Command) (s : State) : (placeCommand word s).returns = s.returns := rfl
@[simp] theorem placeCommand_draws (word : Command) (s : State) : (placeCommand word s).draws = s.draws := rfl
@[simp] theorem placeCommand_trace (word : Command) (s : State) : (placeCommand word s).trace = s.trace := rfl

end Sys2Proof.Machine
end

