-- ==== Sys2Proof/Laws/Flow.lean ====
section
/-! SUPPORT. The laws of flows: what a sequence does, in terms of its parts; what the trace shows of two stretches. -/

namespace Sys2Proof.Machine

open Sys2Proof

variable {α β : Type}

@[simp] theorem Flow.bind_done (a : α) (s : State) (f : α → State → Flow β) :
    (Flow.done a s).bind f = f a s := rfl
@[simp] theorem Flow.bind_fail (st : Status) (s : State) (f : α → State → Flow β) :
    (Flow.fail st s : Flow α).bind f = .fail st s := rfl
@[simp] theorem Flow.bind_wait (s : State) (f : α → State → Flow β) :
    (Flow.wait s : Flow α).bind f = .wait s := rfl
@[simp] theorem Flow.bind_hung (s : State) (f : α → State → Flow β) :
    (Flow.hung s : Flow α).bind f = .hung s := rfl
@[simp] theorem Flow.bind_fault (e : Fault) (f : α → State → Flow β) :
    (Flow.fault e : Flow α).bind f = .fault e := rfl
@[simp] theorem Flow.bind_refused (r : Refusal) (f : α → State → Flow β) :
    (Flow.refused r : Flow α).bind f = .refused r := rfl

@[simp] theorem Flow.waitingAs_done (a : α) (s : State) (p : Pending) :
    (Flow.done a s).waitingAs p = .done a s := rfl
@[simp] theorem Flow.waitingAs_fail (st : Status) (s : State) (p : Pending) :
    (Flow.fail st s : Flow α).waitingAs p = .fail st s := rfl
@[simp] theorem Flow.waitingAs_wait (s : State) (p : Pending) :
    (Flow.wait s : Flow α).waitingAs p = .wait { s with running := some p } := rfl
@[simp] theorem Flow.waitingAs_hung (s : State) (p : Pending) :
    (Flow.hung s : Flow α).waitingAs p = .hung s := rfl
@[simp] theorem Flow.waitingAs_fault (e : Fault) (p : Pending) :
    (Flow.fault e : Flow α).waitingAs p = .fault e := rfl
@[simp] theorem Flow.waitingAs_refused (r : Refusal) (p : Pending) :
    (Flow.refused r : Flow α).waitingAs p = .refused r := rfl

@[simp] theorem Flow.onFail_done (a : α) (s : State) (f : State → State) :
    (Flow.done a s).onFail f = .done a s := rfl
@[simp] theorem Flow.onFail_fail (st : Status) (s : State) (f : State → State) :
    (Flow.fail st s : Flow α).onFail f = .fail st (f s) := rfl
@[simp] theorem Flow.onFail_wait (s : State) (f : State → State) :
    (Flow.wait s : Flow α).onFail f = .wait s := rfl
@[simp] theorem Flow.onFail_hung (s : State) (f : State → State) :
    (Flow.hung s : Flow α).onFail f = .hung s := rfl
@[simp] theorem Flow.onFail_fault (e : Fault) (f : State → State) :
    (Flow.fault e : Flow α).onFail f = .fault e := rfl
@[simp] theorem Flow.onFail_refused (r : Refusal) (f : State → State) :
    (Flow.refused r : Flow α).onFail f = .refused r := rfl

@[simp] theorem settle_done (op : Opcode) (data : Word) (s : State) :
    settle op (.done data s) = .next (complete .ok data s) := rfl
@[simp] theorem settle_fail (op : Opcode) (st : Status) (s : State) :
    settle op (.fail st s) = .next (complete st 0#32 s) := rfl
@[simp] theorem settle_wait (op : Opcode) (s : State) : settle op (.wait s) = .next s := rfl
@[simp] theorem settle_hung (op : Opcode) (s : State) :
    settle op (.hung s) = .next { s with running := some (.hung op) } := rfl
@[simp] theorem settle_fault (op : Opcode) (e : Fault) : settle op (.fault e) = .fault e := rfl
@[simp] theorem settle_refused (op : Opcode) (r : Refusal) : settle op (.refused r) = .refused r := rfl

/-- Sequences are associative. -/
theorem Flow.bind_assoc {γ : Type} (x : Flow α) (f : α → State → Flow β) (g : β → State → Flow γ) :
    (x.bind f).bind g = x.bind fun a s => (f a s).bind g := by
  cases x <;> rfl

/-- Every state that a flow can leave has the property: the value's and state's, the failure's, the wait's, the hanging
call's. -/
def Flow.leaves (x : Flow α) (done : α → State → Prop) (other : State → Prop) : Prop :=
  match x with
  | .done a s => done a s
  | .fail _ s => other s
  | .wait s => other s
  | .hung s => other s
  | .fault _ => True
  | .refused _ => True

/-- What a sequence leaves follows from what its parts leave. -/
theorem Flow.leaves_bind {x : Flow α} {f : α → State → Flow β} {mid : α → State → Prop}
    {done : β → State → Prop} {other : State → Prop} (hx : x.leaves mid other)
    (hf : ∀ a s, mid a s → (f a s).leaves done other) : (x.bind f).leaves done other := by
  cases x with
  | done a s => exact hf a s hx
  | fail st s => exact hx
  | wait s => exact hx
  | hung s => exact hx
  | fault e => trivial
  | refused r => trivial

/-- A weaker property is left as well. -/
theorem Flow.leaves_mono {x : Flow α} {done done' : α → State → Prop} {other other' : State → Prop}
    (hx : x.leaves done other) (hd : ∀ a s, done a s → done' a s) (ho : ∀ s, other s → other' s) :
    x.leaves done' other' := by
  cases x with
  | done a s => exact hd a s hx
  | fail st s => exact ho s hx
  | wait s => exact ho s hx
  | hung s => exact ho s hx
  | fault e => trivial
  | refused r => trivial

/-! ## The trace -/

@[simp] theorem wireBytes_append (a b : List Event) : wireBytes (a ++ b) = wireBytes a ++ wireBytes b := by
  induction a with
  | nil => rfl
  | cons e a ih => cases e <;> simp [wireBytes, ih]

@[simp] theorem receiveEvents_append (a b : List Event) :
    receiveEvents (a ++ b) = receiveEvents a ++ receiveEvents b := by
  induction a with
  | nil => rfl
  | cons e a ih => cases e <;> simp [receiveEvents, ih]

@[simp] theorem progressEvents_append (a b : List Event) :
    progressEvents (a ++ b) = progressEvents a ++ progressEvents b := by
  induction a with
  | nil => rfl
  | cons e a ih => cases e <;> simp [progressEvents, ih]

@[simp] theorem responseCount_append (a b : List Event) :
    responseCount (a ++ b) = responseCount a + responseCount b := by
  induction a with
  | nil => simp [responseCount]
  | cons e a ih => cases e <;> simp [responseCount, ih]; omega

@[simp] theorem transportCalls_append (a b : List Event) :
    transportCalls (a ++ b) = transportCalls a + transportCalls b := by
  induction a with
  | nil => simp [transportCalls]
  | cons e a ih => cases e <;> simp [transportCalls, ih] <;> omega

@[simp] theorem transportCalls_ttransmits (ps : List (List Byte)) :
    transportCalls (ps.map .ttransmit) = ps.length := by
  induction ps with
  | nil => rfl
  | cons p ps ih => simp [transportCalls, ih]

@[simp] theorem wireBytes_ttransmits (ps : List (List Byte)) : wireBytes (ps.map .ttransmit) = ps.flatten := by
  induction ps with
  | nil => rfl
  | cons p ps ih => simp [wireBytes, ih]

@[simp] theorem receiveEvents_ttransmits (ps : List (List Byte)) : receiveEvents (ps.map .ttransmit) = [] := by
  induction ps with
  | nil => rfl
  | cons p ps ih => simp [receiveEvents, ih]

@[simp] theorem progressEvents_ttransmits (ps : List (List Byte)) : progressEvents (ps.map .ttransmit) = [] := by
  induction ps with
  | nil => rfl
  | cons p ps ih => simp [progressEvents, ih]

@[simp] theorem responseCount_ttransmits (ps : List (List Byte)) : responseCount (ps.map .ttransmit) = 0 := by
  induction ps with
  | nil => rfl
  | cons p ps ih => simp [responseCount, ih]

@[simp] theorem wireBytes_treceives (n : Nat) (t : Word) (as : List (List Byte)) :
    wireBytes (as.map (.treceive n t)) = [] := by
  induction as with
  | nil => rfl
  | cons a as ih => simp [wireBytes, ih]

@[simp] theorem receiveEvents_treceives (n : Nat) (t : Word) (as : List (List Byte)) :
    receiveEvents (as.map (.treceive n t)) = as.map (.treceive n t) := by
  induction as with
  | nil => rfl
  | cons a as ih => simp [receiveEvents, ih]

@[simp] theorem responseCount_treceives (n : Nat) (t : Word) (as : List (List Byte)) :
    responseCount (as.map (.treceive n t)) = 0 := by
  induction as with
  | nil => rfl
  | cons a as ih => simp [responseCount, ih]

@[simp] theorem transportCalls_treceives (n : Nat) (t : Word) (as : List (List Byte)) :
    transportCalls (as.map (.treceive n t)) = 0 := by
  induction as with
  | nil => rfl
  | cons a as ih => simp [transportCalls, ih]

@[simp] theorem progressEvents_treceives (n : Nat) (t : Word) (as : List (List Byte)) :
    progressEvents (as.map (.treceive n t)) = [] := by
  induction as with
  | nil => rfl
  | cons a as ih => simp [progressEvents, ih]

end Sys2Proof.Machine
end

