-- ==== Sys2Proof/Laws/Memory.lean ====
section
/-! SUPPORT. The laws of one byte-addressed space: read after write, the canonical form, its uniqueness. -/

namespace Sys2Proof.Machine

open Sys2Proof

theorem Memory.wf_cons (k : Nat) (v : Byte) (m : Memory) :
    Memory.wf ((k, v) :: m) = true ↔ v ≠ unlistedByte ∧ (∀ c ∈ m, k < c.1) ∧ Memory.wf m = true := by
  simp [Memory.wf, and_assoc]

/-- An address below every listed one reads as an unlisted address does. -/
theorem readByte_of_below (m : Memory) (a : Nat) (h : ∀ c ∈ m, a < c.1) : readByte m a = unlistedByte := by
  induction m with
  | nil => rfl
  | cons c m ih =>
    obtain ⟨k, v⟩ := c
    have hk : a < k := h (k, v) (by simp)
    have : a ≠ k := by omega
    simp only [readByte, this, if_false]
    exact ih fun c hc => h c (by simp [hc])

theorem readByte_cellOf_append_same (a : Nat) (b : Byte) (m : Memory) (h : ∀ c ∈ m, a < c.1) :
    readByte (cellOf a b ++ m) a = b := by
  unfold cellOf
  split
  · next hb => simpa [hb] using readByte_of_below m a h
  · simp [readByte]

theorem readByte_cellOf_append_other (a a' : Nat) (b : Byte) (m : Memory) (h : a' ≠ a) :
    readByte (cellOf a b ++ m) a' = readByte m a' := by
  unfold cellOf
  split <;> simp [readByte, h]

/-- A write leaves every other address as it was. -/
theorem readByte_writeByte_other (m : Memory) (a a' : Nat) (b : Byte) (h : a' ≠ a) :
    readByte (writeByte m a b) a' = readByte m a' := by
  induction m with
  | nil => simpa [writeByte] using readByte_cellOf_append_other a a' b [] h
  | cons c m ih =>
    obtain ⟨k, v⟩ := c
    simp only [writeByte]
    split
    · simp only [readByte, ih]
    · split
      · next hk => subst hk; rw [readByte_cellOf_append_other _ _ _ _ h]; simp [readByte, h]
      · exact readByte_cellOf_append_other _ _ _ _ h

/-- A read after a write to the same address gives the byte written. -/
theorem readByte_writeByte_same (m : Memory) (a : Nat) (b : Byte) (hm : Memory.wf m = true) :
    readByte (writeByte m a b) a = b := by
  induction m with
  | nil => simpa [writeByte] using readByte_cellOf_append_same a b [] (by simp)
  | cons c m ih =>
    obtain ⟨k, v⟩ := c
    obtain ⟨_, hk, hm⟩ := (Memory.wf_cons k v m).1 hm
    simp only [writeByte]
    split
    · next hka => have : a ≠ k := by omega
                  simp only [readByte, this, if_false, ih hm]
    · split
      · next h => subst h; exact readByte_cellOf_append_same _ _ _ hk
      · refine readByte_cellOf_append_same _ _ _ ?_
        intro c hc
        rcases List.mem_cons.1 hc with rfl | hc
        · show a < k; omega
        · have := hk c hc; omega

theorem mem_writeByte {m : Memory} {a : Nat} {b : Byte} {c : Host.Cell} (h : c ∈ writeByte m a b) :
    c.1 = a ∨ c ∈ m := by
  induction m with
  | nil =>
    simp only [writeByte, cellOf] at h
    split at h <;> simp_all
  | cons d m ih =>
    obtain ⟨k, v⟩ := d
    simp only [writeByte] at h
    split at h
    · rcases List.mem_cons.1 h with rfl | h
      · simp
      · rcases ih h with h | h <;> simp [h]
    · split at h <;>
      · rcases List.mem_append.1 h with h | h
        · simp only [cellOf] at h
          split at h <;> simp_all
        · simp_all

theorem Memory.wf_cellOf_append {a : Nat} {b : Byte} {m : Memory} (hm : Memory.wf m = true)
    (h : ∀ c ∈ m, a < c.1) : Memory.wf (cellOf a b ++ m) = true := by
  unfold cellOf
  split
  · simpa using hm
  · next hb => exact (Memory.wf_cons a b m).2 ⟨hb, h, hm⟩

/-- A write keeps the canonical form. -/
theorem Memory.wf_writeByte {m : Memory} (a : Nat) (b : Byte) (hm : Memory.wf m = true) :
    Memory.wf (writeByte m a b) = true := by
  induction m with
  | nil => simpa [writeByte] using Memory.wf_cellOf_append (m := []) rfl (by simp)
  | cons c m ih =>
    obtain ⟨k, v⟩ := c
    obtain ⟨hv, hk, hm'⟩ := (Memory.wf_cons k v m).1 hm
    simp only [writeByte]
    split
    · refine (Memory.wf_cons _ _ _).2 ⟨hv, ?_, ih hm'⟩
      intro c hc
      rcases mem_writeByte hc with h | h
      · omega
      · exact hk c h
    · split
      · next h => subst h; exact Memory.wf_cellOf_append hm' hk
      · refine Memory.wf_cellOf_append hm ?_
        intro c hc
        rcases List.mem_cons.1 hc with rfl | hc
        · show a < k; omega
        · have := hk c hc; omega

/-- A write below the capacity keeps every listed address below it. -/
theorem Memory.below_writeByte {cap : Nat} {m : Memory} {a : Nat} (b : Byte) (ha : a < cap)
    (hm : Memory.below cap m = true) : Memory.below cap (writeByte m a b) = true := by
  simp only [Memory.below, List.all_eq_true, decide_eq_true_eq] at *
  intro c hc
  rcases mem_writeByte hc with h | h
  · omega
  · exact hm c h

theorem Memory.wf_writeBytes {m : Memory} (a : Nat) (bs : List Byte) (hm : Memory.wf m = true) :
    Memory.wf (writeBytes m a bs) = true := by
  induction bs generalizing m a with
  | nil => exact hm
  | cons b bs ih => exact ih (a + 1) (Memory.wf_writeByte a b hm)

theorem Memory.below_writeBytes {cap : Nat} {m : Memory} {a : Nat} (bs : List Byte) (ha : a + bs.length ≤ cap)
    (hm : Memory.below cap m = true) : Memory.below cap (writeBytes m a bs) = true := by
  induction bs generalizing m a with
  | nil => exact hm
  | cons b bs ih =>
    simp only [List.length_cons] at ha
    exact ih (by omega) (Memory.below_writeByte b (by omega) hm)

/-- Consecutive writes leave every address before them as it was. -/
theorem readByte_writeBytes_before (m : Memory) (a a' : Nat) (bs : List Byte) (h : a' < a) :
    readByte (writeBytes m a bs) a' = readByte m a' := by
  induction bs generalizing m a with
  | nil => rfl
  | cons b bs ih =>
    simp only [writeBytes]
    rw [ih _ _ (by omega), readByte_writeByte_other _ _ _ _ (by omega)]

/-- Consecutive writes leave every address after them as it was. -/
theorem readByte_writeBytes_after (m : Memory) (a a' : Nat) (bs : List Byte) (h : a + bs.length ≤ a') :
    readByte (writeBytes m a bs) a' = readByte m a' := by
  induction bs generalizing m a with
  | nil => rfl
  | cons b bs ih =>
    simp only [List.length_cons] at h
    simp only [writeBytes]
    rw [ih _ _ (by omega), readByte_writeByte_other _ _ _ _ (by omega)]

/-- Consecutive bytes read back as they were written. -/
theorem readByte_writeBytes_in (m : Memory) (a j : Nat) (bs : List Byte) (hm : Memory.wf m = true)
    (h : j < bs.length) : readByte (writeBytes m a bs) (a + j) = bs[j] := by
  induction bs generalizing m a j with
  | nil => simp at h
  | cons b bs ih =>
    simp only [writeBytes]
    cases j with
    | zero =>
      rw [readByte_writeBytes_before _ _ _ _ (by omega)]
      simpa using readByte_writeByte_same m a b hm
    | succ j =>
      have h' : j < bs.length := by simpa using h
      have : a + (j + 1) = a + 1 + j := by omega
      rw [this, ih _ _ _ (Memory.wf_writeByte a b hm) h']
      simp

/-- Equal memories are equal data: the canonical form is unique. -/
theorem Memory.ext_of_readByte {m m' : Memory} (hm : Memory.wf m = true) (hm' : Memory.wf m' = true)
    (h : ∀ a, readByte m a = readByte m' a) : m = m' := by
  induction m generalizing m' with
  | nil =>
    cases m' with
    | nil => rfl
    | cons c m' =>
      obtain ⟨k, v⟩ := c
      obtain ⟨hv, _, _⟩ := (Memory.wf_cons k v m').1 hm'
      have := h k
      simp [readByte] at this
      exact absurd this.symm hv
  | cons c m ih =>
    obtain ⟨k, v⟩ := c
    obtain ⟨hv, hk, hw⟩ := (Memory.wf_cons k v m).1 hm
    cases m' with
    | nil =>
      have := h k
      simp [readByte] at this
      exact absurd this hv
    | cons c' m' =>
      obtain ⟨k', v'⟩ := c'
      obtain ⟨hv', hk', hw'⟩ := (Memory.wf_cons k' v' m').1 hm'
      have hkk : k = k' := by
        rcases Nat.lt_trichotomy k k' with hlt | heq | hgt
        · have h1 := h k
          rw [readByte_of_below ((k', v') :: m') k] at h1
          · simp [readByte] at h1; exact absurd h1 hv
          · intro c hc
            rcases List.mem_cons.1 hc with rfl | hc
            · exact hlt
            · exact Nat.lt_trans hlt (hk' c hc)
        · exact heq
        · have h1 := h k'
          rw [readByte_of_below ((k, v) :: m) k'] at h1
          · simp [readByte] at h1; exact absurd h1.symm hv'
          · intro c hc
            rcases List.mem_cons.1 hc with rfl | hc
            · exact hgt
            · exact Nat.lt_trans hgt (hk c hc)
      subst hkk
      have hvv : v = v' := by simpa [readByte] using h k
      subst hvv
      rw [ih hw hw']
      intro a
      by_cases ha : a = k
      · subst ha
        rw [readByte_of_below m a hk, readByte_of_below m' a hk']
      · simpa [readByte, ha] using h a

/-- The reset state's buffers have the canonical form, for every instance. -/
theorem State.resetOf_memory_wf (cfg : Config) :
    Memory.wf (State.resetOf cfg).txbuf = true ∧ Memory.wf (State.resetOf cfg).rxbuf = true := ⟨rfl, rfl⟩

theorem State.reset_memory_wf : Memory.wf State.reset.txbuf = true ∧ Memory.wf State.reset.rxbuf = true :=
  State.resetOf_memory_wf Config.test

end Sys2Proof.Machine
end

