-- ==== Sys2Proof/Laws/Transmit.lean ====
section
/-! SUPPORT. What the transmit side does: one lemma per operation, in terms of `Appended` and `Placed` where every call
returns, and of `Grown` where one never does. -/

namespace Sys2Proof.Machine

open Sys2Proof

theorem pendingBytes_length (s : State) : (pendingBytes s).length = s.txcur := by simp [pendingBytes]

theorem pendingBytes_of_txcur_zero {s : State} (h : s.txcur = 0) : pendingBytes s = [] := by
  simp [pendingBytes, h]

/-- The transmit side's order does not depend on the other fields. -/
theorem TxOk.of_same {s t : State} (h : TxOk s) (hc : t.cfg = s.cfg) (hx : t.txcur = s.txcur)
    (hb : t.txbuf = s.txbuf) : TxOk t := by
  refine ⟨?_, ?_, ?_, ?_⟩
  · rw [hc]; exact h.cap
  · rw [hc, hx]; exact h.cur
  · rw [hb]; exact h.mem
  · rw [hc, hb]; exact h.below

/-! ## A stretch of sending -/

/-- `t` is `s` some way into a command that sends, perhaps in a call that never returns: the bytes sent and those
pending only grew at their end, and the events are legal. -/
structure Grown (s t : State) : Prop where
  frame : t = { s with
    txbuf := t.txbuf, txcur := t.txcur, answers := t.answers, returns := t.returns, draws := t.draws,
    trace := t.trace }
  ok : TxOk t
  wire : (wireBytes s.trace ++ pendingBytes s) <+: (wireBytes t.trace ++ pendingBytes t)
  events : ∃ es : List Event, t.trace = s.trace ++ es ∧ ∀ e ∈ es, eventLegal s.cfg e

theorem Grown.refl {s : State} (h : TxOk s) : Grown s s := ⟨rfl, h, List.prefix_refl _, [], by simp, by simp⟩

theorem Grown.cfg_eq {s t : State} (h : Grown s t) : t.cfg = s.cfg := by rw [h.frame]

theorem Grown.trans {s t u : State} (h₁ : Grown s t) (h₂ : Grown t u) : Grown s u := by
  obtain ⟨x, hx, hxl⟩ := h₁.events
  obtain ⟨y, hy, hyl⟩ := h₂.events
  refine ⟨?_, h₂.ok, h₁.wire.trans h₂.wire, x ++ y, by rw [hy, hx, List.append_assoc], fun e he => ?_⟩
  · have := h₂.frame
    rw [h₁.frame] at this
    exact this
  · rcases List.mem_append.1 he with h | h
    · exact hxl e h
    · rw [← h₁.cfg_eq]; exact hyl e h

theorem Appended.refl {s : State} (h : TxOk s) : Appended s s [] :=
  ⟨rfl, h, by simp, [], by simp, by simp, by simp⟩

theorem Appended.cfg_eq {s t : State} {bs : List Byte} (h : Appended s t bs) : t.cfg = s.cfg := by
  rw [h.frame]

/-- Where every call of the transport is to return, it stays so. -/
theorem Appended.returns_nil {s t : State} {bs : List Byte} (h : Appended s t bs) (hr : s.returns = []) :
    t.returns = [] := by
  obtain ⟨ps, _, h2, _⟩ := h.events
  rw [h2, hr, List.drop_nil]

/-- Two stretches of appending are one. -/
theorem Appended.trans {s t u : State} {bs cs : List Byte} (h₁ : Appended s t bs) (h₂ : Appended t u cs) :
    Appended s u (bs ++ cs) := by
  obtain ⟨ps, hps, hpr, hp⟩ := h₁.events
  obtain ⟨qs, hqs, hqr, hq⟩ := h₂.events
  refine ⟨?_, h₂.ok, ?_, ps ++ qs, ?_, ?_, ?_⟩
  · have := h₂.frame
    rw [h₁.frame] at this
    exact this
  · rw [h₂.wire, h₁.wire]; simp
  · rw [hqs, hps]; simp
  · rw [hqr, hpr, List.drop_drop, List.length_append]
  · intro p hp'
    rcases List.mem_append.1 hp' with h | h
    · exact hp p h
    · rw [← h₁.cfg_eq]; exact hq p h

theorem Appended.grown {s t : State} {bs : List Byte} (h : Appended s t bs) : Grown s t := by
  obtain ⟨ps, hps, _, hp⟩ := h.events
  refine ⟨?_, h.ok, ⟨bs, h.wire.symm⟩, ps.map .ttransmit, hps, fun e he => ?_⟩
  · have := h.frame
    rw [this]
  · obtain ⟨p, hp', rfl⟩ := List.mem_map.1 he
    exact hp p hp'

/-- Where everything appended was also flushed, the payloads are the pending bytes and what was appended. -/
theorem Appended.payloads {s t : State} {bs : List Byte} (h : Appended s t bs) (hz : t.txcur = 0) :
    ∃ ps : List (List Byte), t.trace = s.trace ++ ps.map .ttransmit ∧ ps.flatten = pendingBytes s ++ bs ∧
      ∀ p ∈ ps, 1 ≤ p.length ∧ p.length ≤ s.cfg.txCap := by
  obtain ⟨ps, h1, _, h2⟩ := h.events
  refine ⟨ps, h1, ?_, h2⟩
  have := h.wire
  rw [pendingBytes_of_txcur_zero hz, h1] at this
  simpa using this

/-! ## Where appended bytes are stored -/

/-- `t` is `s` after `n` bytes were appended with no explicit flush between them: TXCUR moved on by `n` round the
buffer, and a byte of TXBUF at an address that none of them was stored at reads as before. -/
structure Placed (s t : State) (n : Nat) : Prop where
  cap : t.cfg = s.cfg
  cursor : t.txcur % s.cfg.txCap = (s.txcur + n) % s.cfg.txCap
  filled : 1 ≤ n ∨ 1 ≤ s.txcur → 1 ≤ t.txcur
  stored : ∀ a, (∀ i < n, a ≠ appendAddress s i) → readByte t.txbuf a = readByte s.txbuf a

/-- Placement looks at the transmit buffer and the parameters alone. -/
theorem Placed.of_same {s t : State} (hc : t.cfg = s.cfg) (hx : t.txcur = s.txcur) (hb : t.txbuf = s.txbuf) :
    Placed s t 0 := ⟨hc, by rw [hx]; rfl, fun h => by omega, fun _ _ => by rw [hb]⟩

theorem Placed.refl (s : State) : Placed s s 0 := Placed.of_same rfl rfl rfl

theorem Placed.trans {s t u : State} {m n : Nat} (h₁ : Placed s t m) (h₂ : Placed t u n) :
    Placed s u (m + n) := by
  have hc := h₂.cursor
  rw [h₁.cap] at hc
  refine ⟨h₂.cap.trans h₁.cap, ?_, fun h => h₂.filled ?_, fun a ha => ?_⟩
  · rw [hc, Nat.add_mod, h₁.cursor, ← Nat.add_mod, Nat.add_assoc]
  · by_cases hn : 1 ≤ n
    · exact .inl hn
    · exact .inr (h₁.filled (by omega))
  · rw [h₂.stored a, h₁.stored a fun i hi => ha i (by omega)]
    intro i hi h
    refine ha (m + i) (by omega) ?_
    rw [h, appendAddress, appendAddress, h₁.cap, Nat.add_mod, h₁.cursor, ← Nat.add_mod, Nat.add_assoc]

/-! ## Calls -/

/-- A call returns where no call is to hang. -/
theorem callTransport_returns {s : State} (hr : s.returns = []) (e : Event) :
    callTransport e s = .done () (s.called e) := by
  simp [callTransport, hr]

/-- A call returns, or the command hangs in it. -/
theorem callTransport_cases (e : Event) (s : State) :
    callTransport e s = .done () (s.called e) ∨
      (callTransport e s = .hung (s.called e) ∧ s.returns ≠ []) := by
  unfold callTransport
  split
  · exact .inl rfl
  · next h => exact .inr ⟨rfl, fun hr => h (by rw [hr]; rfl)⟩

/-- What a part that sends can do: run to its end in a state with the property, or hang in a call. -/
def Flow.sends (x : Flow Unit) (s : State) (P : State → Prop) : Prop :=
  (∃ t, x = .done () t ∧ P t) ∨ (∃ t, x = .hung t ∧ Grown s t ∧ s.returns ≠ [])

/-- It runs to its end where no call is to hang. -/
theorem Flow.sends.done {x : Flow Unit} {s : State} {P : State → Prop} (h : x.sends s P) (hr : s.returns = []) :
    ∃ t, x = .done () t ∧ P t := by
  rcases h with h | ⟨_, _, _, h⟩
  · exact h
  · exact absurd hr h

theorem Flow.sends.mono {x : Flow Unit} {s : State} {P Q : State → Prop} (h : x.sends s P) (hq : ∀ t, P t → Q t) :
    x.sends s Q := by
  rcases h with ⟨t, h₁, h₂⟩ | h
  · exact .inl ⟨t, h₁, hq t h₂⟩
  · exact .inr h

/-- One part after the other. -/
theorem Flow.sends.bind {x : Flow Unit} {f : Unit → State → Flow Unit} {s : State} {P Q : State → Prop}
    (h : x.sends s P)
    (hf : ∀ t, P t → Grown s t ∧ (s.returns = [] → t.returns = []) ∧ (f () t).sends t Q) :
    (x.bind f).sends s Q := by
  rcases h with ⟨t, rfl, ht⟩ | ⟨t, rfl, ht⟩
  · obtain ⟨hg, hr, hu⟩ := hf t ht
    rcases hu with hu | ⟨u, h₁, h₂, h₃⟩
    · exact .inl hu
    · exact .inr ⟨u, h₁, hg.trans h₂, fun h => h₃ (hr h)⟩
  · exact .inr ⟨t, rfl, ht⟩

/-! ## Flush, AppendByte, AppendWord -/

/-- What Flush leaves: every pending byte is sent and none appended (spec/41_encoder.md R132). -/
structure Flushed (s t : State) : Prop where
  appended : Appended s t []
  cursor : t.txcur = 0
  txbuf : t.txbuf = s.txbuf
  trace : t.trace = s.trace ++ (if s.txcur = 0 then [] else [.ttransmit (pendingBytes s)])

/-- Everything Flush can do. -/
theorem flush_sends {s : State} (h : TxOk s) : (flush s).sends s (Flushed s) := by
  by_cases h0 : s.txcur = 0
  · exact .inl ⟨s, by simp [flush, h0], Appended.refl h, h0, rfl, by simp [h0]⟩
  · have hlen : 1 ≤ (pendingBytes s).length ∧ (pendingBytes s).length ≤ s.cfg.txCap := by
      have := h.cur
      rw [pendingBytes_length]; omega
    have hpend : pendingBytes (s.called (.ttransmit (pendingBytes s))) = pendingBytes s := rfl
    rcases callTransport_cases (.ttransmit (pendingBytes s)) s with hc | ⟨hc, hr⟩
    · refine .inl ⟨{ s.called (.ttransmit (pendingBytes s)) with txcur := 0 }, ?_, ⟨rfl, ?_, ?_, ?_⟩, rfl, rfl, ?_⟩
      · simp [flush, h0, h.cur, hc]
      · exact ⟨h.cap, Nat.zero_le _, h.mem, h.below⟩
      · simp [pendingBytes, wireBytes]
      · exact ⟨[pendingBytes s], by simp, by simp, by simpa using hlen⟩
      · simp [h0]
    · refine .inr ⟨s.called (.ttransmit (pendingBytes s)), ?_, ⟨rfl, h.of_same rfl rfl rfl, ?_, ?_⟩, hr⟩
      · simp [flush, h0, h.cur, hc]
      · exact ⟨pendingBytes s, by simp [hpend, wireBytes]⟩
      · exact ⟨[.ttransmit (pendingBytes s)], by simp, by simpa [eventLegal] using hlen⟩

/-- Flush, where every call returns. -/
theorem flush_spec {s : State} (h : TxOk s) (hr : s.returns = []) :
    ∃ t, flush s = .done () t ∧ Flushed s t := (flush_sends h).done hr

/-- The part of AppendByte behind its automatic flush: there is room. -/
theorem storeByte_spec (b : Byte) {s : State} (h : TxOk s) (hlt : s.txcur < s.cfg.txCap) :
    ∃ t, ((writeTx s.txcur b s).bind fun _ s => .done () { s with txcur := s.txcur + 1 } : Flow Unit) = .done () t ∧
      t = { s with txbuf := writeByte s.txbuf s.txcur b, txcur := s.txcur + 1 } ∧ Appended s t [b] := by
  refine ⟨{ s with txbuf := writeByte s.txbuf s.txcur b, txcur := s.txcur + 1 }, ?_, rfl, ⟨rfl, ?_, ?_, ?_⟩⟩
  · simp [writeTx, hlt]
  · exact ⟨h.cap, hlt, Memory.wf_writeByte _ _ h.mem, Memory.below_writeByte _ hlt h.below⟩
  · have h1 : (List.range s.txcur).map (readByte (writeByte s.txbuf s.txcur b)) =
        (List.range s.txcur).map (readByte s.txbuf) := by
      refine List.map_congr_left fun a ha => ?_
      have : a < s.txcur := List.mem_range.1 ha
      exact readByte_writeByte_other _ _ _ _ (by omega)
    simp [pendingBytes, List.range_succ, h1, readByte_writeByte_same _ _ _ h.mem]
  · exact ⟨[], by simp, by simp, by simp⟩

/-- Everything AppendByte can do: append its byte, after a flush where the buffer is full, or hang in that flush
(spec/41_encoder.md R130, R136). -/
theorem appendByte_sends (b : Byte) {s : State} (h : TxOk s) :
    (appendByte b s).sends s fun t => Appended s t [b] ∧ Placed s t 1 := by
  have hcap := h.cap
  have hcur := h.cur
  by_cases hfull : s.txcur = s.cfg.txCap
  · have hx : appendByte b s = (flush s).bind fun _ s =>
        (writeTx s.txcur b s).bind fun _ s => .done () { s with txcur := s.txcur + 1 } := by
      simp [appendByte, hfull]
    rw [hx]
    refine (flush_sends h).bind fun u hu => ⟨hu.appended.grown, hu.appended.returns_nil, .inl ?_⟩
    have hlt : u.txcur < u.cfg.txCap := by
      rw [hu.cursor, hu.appended.cfg_eq]; omega
    obtain ⟨t, ht, he, hat⟩ := storeByte_spec b hu.appended.ok hlt
    refine ⟨t, ht, by simpa using hu.appended.trans hat, ?_⟩
    subst he
    refine ⟨hu.appended.cfg_eq, ?_, fun _ => by simp, fun a ha => ?_⟩
    · simp [hu.cursor, hfull]
    · have h0 := ha 0 (by omega)
      simp only [appendAddress, hfull, Nat.add_zero, Nat.mod_self] at h0
      simp only [hu.cursor]
      rw [readByte_writeByte_other _ _ _ _ h0, hu.txbuf]
  · have hx : appendByte b s = (writeTx s.txcur b s).bind fun _ s => .done () { s with txcur := s.txcur + 1 } := by
      simp [appendByte, hfull]
    have hlt : s.txcur < s.cfg.txCap := by omega
    obtain ⟨t, ht, he, hat⟩ := storeByte_spec b h hlt
    rw [hx]
    refine .inl ⟨t, ht, hat, ?_⟩
    subst he
    refine ⟨rfl, rfl, fun _ => by simp, fun a ha => ?_⟩
    have h0 := ha 0 (by omega)
    simp only [appendAddress, Nat.add_zero, Nat.mod_eq_of_lt hlt] at h0
    exact readByte_writeByte_other _ _ _ _ h0

/-- AppendByte, where every call returns. -/
theorem appendByte_spec (b : Byte) {s : State} (h : TxOk s) (hr : s.returns = []) :
    ∃ t, appendByte b s = .done () t ∧ Appended s t [b] ∧ Placed s t 1 := (appendByte_sends b h).done hr

/-- Everything AppendByte of a sequence can do. -/
theorem appendBytes_sends (bs : List Byte) {s : State} (h : TxOk s) :
    (appendBytes bs s).sends s fun t => Appended s t bs ∧ Placed s t bs.length := by
  induction bs generalizing s with
  | nil => exact .inl ⟨s, rfl, Appended.refl h, Placed.refl s⟩
  | cons b bs ih =>
    refine (appendByte_sends b h).bind fun u hu => ⟨hu.1.grown, hu.1.returns_nil, (ih hu.1.ok).mono fun t ht => ?_⟩
    refine ⟨by simpa using hu.1.trans ht.1, ?_⟩
    rw [List.length_cons, Nat.add_comm]
    exact hu.2.trans ht.2

/-- AppendByte of a sequence, where every call returns. -/
theorem appendBytes_spec (bs : List Byte) {s : State} (h : TxOk s) (hr : s.returns = []) :
    ∃ t, appendBytes bs s = .done () t ∧ Appended s t bs ∧ Placed s t bs.length := (appendBytes_sends bs h).done hr

@[simp] theorem encodeWord_length (v : Word) : (encodeWord v).length = 11 := by simp [encodeWord]

/-- Everything AppendWord can do (spec/41_encoder.md R131). -/
theorem appendWord_sends (v : Word) {s : State} (h : TxOk s) :
    (appendWord v s).sends s fun t => Appended s t (encodeWord v) ∧ Placed s t 11 := by
  have := appendBytes_sends (encodeWord v) h
  rwa [encodeWord_length] at this

/-- AppendWord appends the 11 bytes of EncodeWord, where every call returns (spec/41_encoder.md R131). -/
theorem appendWord_spec (v : Word) {s : State} (h : TxOk s) (hr : s.returns = []) :
    ∃ t, appendWord v s = .done () t ∧ Appended s t (encodeWord v) ∧ Placed s t 11 := (appendWord_sends v h).done hr

/-- Everything a probe can do: go out with whatever was pending and leave nothing pending, or hang in a flush
(spec/45_ack_retry.md R220). -/
theorem sendProbe_sends {s : State} (h : TxOk s) :
    (sendProbe s).sends s fun t => Appended s t [calibrationByte] ∧ t.txcur = 0 ∧
      ∀ a, a ≠ appendAddress s 0 → readByte t.txbuf a = readByte s.txbuf a := by
  refine (appendByte_sends calibrationByte h).bind fun u hu => ⟨hu.1.grown, hu.1.returns_nil,
    (flush_sends hu.1.ok).mono fun t ht => ⟨by simpa using hu.1.trans ht.appended, ht.cursor, fun a ha => ?_⟩⟩
  rw [ht.txbuf]
  refine hu.2.stored a fun i hi => ?_
  have : i = 0 := by omega
  rw [this]
  exact ha

/-- A probe, where every call returns. -/
theorem sendProbe_spec {s : State} (h : TxOk s) (hr : s.returns = []) :
    ∃ t, sendProbe s = .done () t ∧ Appended s t [calibrationByte] ∧ t.txcur = 0 ∧
      ∀ a, a ≠ appendAddress s 0 → readByte t.txbuf a = readByte s.txbuf a := (sendProbe_sends h).done hr

/-! ## The connect pattern -/

/-- Everything step 4 of HANDSHAKE can do: append the pattern and leave the LFSR as many steps on, or hang in a flush
with the LFSR somewhere on the way (spec/44_handshake.md R190). -/
theorem sendPattern_sends (n : Nat) {s : State} (h : TxOk s) :
    (∃ t, sendPattern n s = .done () t ∧ Placed s t n ∧
      Appended { s with lfsr := lfsrAfter n s.lfsr } t ((lfsrBits n s.lfsr).map patternByte)) ∨
    (∃ t r, sendPattern n s = .hung t ∧ Grown { s with lfsr := r } t ∧ s.returns ≠ []) := by
  induction n generalizing s with
  | zero => exact .inl ⟨s, rfl, Placed.refl s, Appended.refl h⟩
  | succ n ih =>
    have hl : TxOk (lfsrStep s) := h.of_same rfl rfl rfl
    rcases appendByte_sends (patternByte (lfsrBit s.lfsr)) hl with ⟨u, hu, hau, hpu⟩ | ⟨u, hu, hgu, hr⟩
    · have hframe : ∀ r, Appended { s with lfsr := r } { u with lfsr := r } [patternByte (lfsrBit s.lfsr)] := by
        intro r
        refine ⟨?_, hau.ok.of_same rfl rfl rfl, hau.wire, hau.events⟩
        have := hau.frame
        rw [this]
        rfl
      have hul : u.lfsr = lfsrNext s.lfsr := by rw [hau.frame]; rfl
      have hplaced : Placed s u 1 := ⟨hpu.cap, hpu.cursor, hpu.filled, hpu.stored⟩
      rcases ih hau.ok with ⟨t, ht, hpt, hat⟩ | ⟨t, r, ht, hgt, hr⟩
      · refine .inl ⟨t, by simp [sendPattern, hu, ht], ?_, ?_⟩
        · rw [Nat.add_comm]
          exact hplaced.trans hpt
        · rw [hul] at hat
          simpa [lfsrBits, lfsrAfter] using (hframe _).trans hat
      · exact .inr ⟨t, r, by simp [sendPattern, hu, ht], (hframe r).grown.trans hgt,
          fun h => hr (hau.returns_nil h)⟩
    · exact .inr ⟨u, lfsrNext s.lfsr, by simp [sendPattern, hu], hgu, hr⟩

end Sys2Proof.Machine
end

