-- ==== Sys2Proof/Laws/Ack.lean ====
section
/-! SUPPORT. What WaitForAck does, attempt by attempt (spec/45_ack_retry.md R220). -/

namespace Sys2Proof.Machine

open Sys2Proof

/-- The state after a probe with nothing pending: it goes out alone, in a TTransmit of its own, by way of address 0. -/
abbrev probed (s : State) : State := { s with
  txbuf := writeByte s.txbuf 0 calibrationByte, returns := s.returns.tail,
  trace := s.trace ++ [.ttransmit [calibrationByte]] }

theorem probed_txOk {s : State} (h : TxOk s) (h0 : s.txcur = 0) : TxOk (probed s) :=
  ⟨h.cap, by simp [h0], Memory.wf_writeByte _ _ h.mem, Memory.below_writeByte _ h.cap h.below⟩

/-- Everything a probe with nothing pending can do. -/
theorem sendProbe_empty_cases {s : State} (h : TxOk s) (h0 : s.txcur = 0) :
    sendProbe s = .done () (probed s) ∨
      (sendProbe s = .hung { probed s with txcur := 1 } ∧ s.returns ≠ []) := by
  have hcap := h.cap
  have hne : ¬ 0 = s.cfg.txCap := by omega
  have hlt : 0 < s.cfg.txCap := hcap
  have hlist : List.range 1 = [0] := rfl
  let u : State := { s with txbuf := writeByte s.txbuf 0 calibrationByte, txcur := 1 }
  have hp : pendingBytes u = [calibrationByte] := by
    simp [pendingBytes, u, hlist, readByte_writeByte_same _ _ _ h.mem]
  have hx : sendProbe s = flush u := by simp [sendProbe, appendByte, h0, hne, writeTx, hlt, u]
  have hf : flush u = (callTransport (.ttransmit [calibrationByte]) u).bind fun _ s => .done () { s with txcur := 0 } := by
    rw [flush, if_neg (by simp [u]), if_pos (show u.txcur ≤ u.cfg.txCap from hcap), hp]
  rw [hx, hf]
  rcases callTransport_cases (.ttransmit [calibrationByte]) u with hc | ⟨hc, hr⟩
  · left
    rw [hc, Flow.bind_done, ← h0]
    rfl
  · right
    rw [hc, Flow.bind_hung]
    exact ⟨rfl, hr⟩

/-- A probe with nothing pending, where every call returns. -/
theorem sendProbe_empty {s : State} (h : TxOk s) (h0 : s.txcur = 0) (hr : s.returns = []) :
    sendProbe s = .done () (probed s) := by
  rcases sendProbe_empty_cases h h0 with hx | ⟨_, hx⟩
  · exact hx
  · exact absurd hr hx

/-- The events of attempts after the first probe: each silent TReceive is followed by the next probe. -/
theorem attemptEvents_drop (silent : Nat) (x : List Byte) :
    (attemptEvents (List.replicate silent [] ++ [x])).drop 1 =
      (List.replicate silent [Event.treceive 1 25#32 [], .ttransmit [calibrationByte]]).flatten ++
        [.treceive 1 25#32 x] := by
  induction silent with
  | zero => rfl
  | succ n ih =>
    have hcons : attemptEvents (List.replicate n [] ++ [x]) =
        .ttransmit [calibrationByte] :: (attemptEvents (List.replicate n [] ++ [x])).drop 1 := by
      cases n <;> rfl
    rw [List.replicate_succ, List.cons_append, List.replicate_succ, List.flatten_cons, List.append_assoc, ← ih]
    simp only [attemptEvents, List.flatMap_cons] at hcons ⊢
    simp only [List.cons_append, List.nil_append, List.drop_succ_cons, List.drop_zero]
    rw [← hcons]

/-- The events of attempts begin with the first probe. -/
theorem attemptEvents_cons (silent : Nat) (x : List Byte) :
    attemptEvents (List.replicate silent [] ++ [x]) =
      .ttransmit [calibrationByte] :: (attemptEvents (List.replicate silent [] ++ [x])).drop 1 := by
  cases silent <;> rfl

/-- Silent attempts within the budget, with nothing pending: each takes its empty answer and sends the next probe. -/
theorem awaitAck_silent (at_ : Nat → Pending) (m : Nat) (tail : List (List Byte)) {k : Nat} {s : State} (h : TxOk s)
    (h0 : s.txcur = 0) (hret : s.returns = []) (hm : m < k) (hs : s.answers = List.replicate m [] ++ tail) :
    ∃ t, awaitAck at_ (List.replicate m [] ++ tail) k s = awaitAck at_ tail (k - m) t ∧ TxOk t ∧
      t = { s with
        txbuf := t.txbuf, answers := tail,
        trace := s.trace ++
          (List.replicate m [Event.treceive 1 25#32 [], .ttransmit [calibrationByte]]).flatten } ∧
      ∀ a, m = 0 ∨ a ≠ 0 → readByte t.txbuf a = readByte s.txbuf a := by
  induction m generalizing s k with
  | zero =>
    refine ⟨s, rfl, h, ?_, fun _ _ => rfl⟩
    have : s.answers = tail := by simpa using hs
    rw [← this]
    simp
  | succ m ih =>
    let r : State := { s.emit (.treceive 1 25#32 []) with answers := List.replicate m [] ++ tail }
    have hr : TxOk r := ⟨h.cap, h.cur, h.mem, h.below⟩
    have hru : (probed r).returns = [] := by simp [r, hret]
    obtain ⟨t, ht, hok, hframe, hbuf⟩ := ih (k := k - 1) (probed_txOk hr h0) h0 hru (by omega) rfl
    refine ⟨t, ?_, hok, ?_, fun a ha => ?_⟩
    · have hk : ¬ k ≤ 1 := by omega
      have hsend : sendProbe r = .done () (probed r) := sendProbe_empty hr h0 hret
      have hrec : tReceive 1 25#32 [] (List.replicate m [] ++ tail) s = .done () r := by simp [tReceive, r]
      rw [List.replicate_succ, List.cons_append, awaitAck, hrec, Flow.bind_done]
      simp only [hk, if_false]
      rw [hsend, Flow.bind_done, ht, show k - 1 - m = k - (m + 1) by omega]
    · rw [hframe]
      simp [r, State.emit, List.replicate_succ, hret]
    · have ha' : a ≠ 0 := by omega
      rw [hbuf a (.inr ha')]
      exact readByte_writeByte_other _ _ _ _ ha'

/-- The end of an attempt that brings a byte. -/
theorem awaitAck_byte (at_ : Nat → Pending) (b : Byte) (rest : List (List Byte)) (k : Nat) (s : State) :
    awaitAck at_ ([b] :: rest) k s =
      (if b = ackByte then .done () { s.emit (.treceive 1 25#32 [b]) with answers := rest }
      else .fail .error { s.emit (.treceive 1 25#32 [b]) with answers := rest }) := by
  simp [awaitAck, tReceive]

/-- The end of the last attempt, in silence. -/
theorem awaitAck_last (at_ : Nat → Pending) (rest : List (List Byte)) (s : State) :
    awaitAck at_ ([] :: rest) 1 s =
      .fail .timeout { s.emit (.treceive 1 25#32 []) with answers := rest } := by
  simp [awaitAck, tReceive]

/-- What an awaited acknowledgement leaves, with nothing pending: the attempts' events and address 0 of TXBUF. -/
structure Awaited (s t : State) (silent : Nat) (last : List Byte) (rest : List (List Byte)) : Prop where
  frame : t = { s with
    txbuf := t.txbuf, answers := rest,
    trace := s.trace ++ (attemptEvents (List.replicate silent [] ++ [last])).drop 1 }
  ok : TxOk t
  stored : ∀ a, silent = 0 ∨ a ≠ 0 → readByte t.txbuf a = readByte s.txbuf a

theorem Awaited.of_silent {s t : State} {silent : Nat} {last : List Byte} {rest : List (List Byte)}
    (hok : TxOk t)
    (hframe : t = { s with
        txbuf := t.txbuf, answers := last :: rest,
        trace := s.trace ++
          (List.replicate silent [Event.treceive 1 25#32 [], .ttransmit [calibrationByte]]).flatten })
    (hbuf : ∀ a, silent = 0 ∨ a ≠ 0 → readByte t.txbuf a = readByte s.txbuf a) :
    Awaited s { t.emit (.treceive 1 25#32 last) with answers := rest } silent last rest := by
  refine ⟨?_, ⟨hok.cap, hok.cur, hok.mem, hok.below⟩, hbuf⟩
  rw [attemptEvents_drop, ← List.append_assoc]
  have htrace : t.trace = s.trace ++
      (List.replicate silent [Event.treceive 1 25#32 [], .ttransmit [calibrationByte]]).flatten := by
    rw [hframe]
  simp only [State.emit]
  rw [← htrace, hframe]

/-- ACK within the budget. -/
theorem awaitAck_ack (at_ : Nat → Pending) (silent : Nat) (rest : List (List Byte)) {k : Nat} {s : State} (h : TxOk s)
    (h0 : s.txcur = 0) (hret : s.returns = []) (hk : silent < k) (hs : s.answers = ackAnswers silent ++ rest) :
    ∃ t, awaitAck at_ s.answers k s = .done () t ∧ Awaited s t silent [ackByte] rest := by
  have hs' : s.answers = List.replicate silent [] ++ ([ackByte] :: rest) := by simpa [ackAnswers] using hs
  obtain ⟨t, ht, hok, hframe, hbuf⟩ := awaitAck_silent at_ silent _ h h0 hret hk hs'
  refine ⟨_, ?_, Awaited.of_silent hok hframe hbuf⟩
  rw [hs', ht, awaitAck_byte, if_pos rfl]

/-- Another byte within the budget. -/
theorem awaitAck_nak (at_ : Nat → Pending) (silent : Nat) {b : Byte} (rest : List (List Byte)) {k : Nat} {s : State}
    (h : TxOk s) (h0 : s.txcur = 0) (hret : s.returns = []) (hk : silent < k) (hb : b ≠ ackByte)
    (hs : s.answers = List.replicate silent [] ++ [b] :: rest) :
    ∃ t, awaitAck at_ s.answers k s = .fail .error t ∧ Awaited s t silent [b] rest := by
  obtain ⟨t, ht, hok, hframe, hbuf⟩ := awaitAck_silent at_ silent _ h h0 hret hk hs
  refine ⟨_, ?_, Awaited.of_silent hok hframe hbuf⟩
  rw [hs, ht, awaitAck_byte, if_neg hb]

/-- Silence through the budget. -/
theorem awaitAck_silence (at_ : Nat → Pending) (k : Nat) (rest : List (List Byte)) {s : State} (h : TxOk s)
    (h0 : s.txcur = 0) (hret : s.returns = []) (hs : s.answers = List.replicate (k + 1) [] ++ rest) :
    ∃ t, awaitAck at_ s.answers (k + 1) s = .fail .timeout t ∧ Awaited s t k [] rest := by
  have hs' : s.answers = List.replicate k [] ++ ([] :: rest) := by
    rw [hs, List.replicate_succ', List.append_assoc]; rfl
  obtain ⟨t, ht, hok, hframe, hbuf⟩ := awaitAck_silent at_ k _ h h0 hret (Nat.lt_succ_self k) hs'
  refine ⟨_, ?_, Awaited.of_silent hok hframe hbuf⟩
  rw [hs', ht, show k + 1 - k = 1 by omega, awaitAck_last]

/-- Fewer silent answers than the budget: the command waits with the budget that is left. -/
theorem awaitAck_wait (at_ : Nat → Pending) (m : Nat) {k : Nat} {s : State} (h : TxOk s)
    (h0 : s.txcur = 0) (hret : s.returns = []) (hk : m < k) (hs : s.answers = List.replicate m []) :
    ∃ t, awaitAck at_ s.answers k s = .wait { t with running := some (at_ (k - m)) } ∧ TxOk t ∧
      t = { s with
        txbuf := t.txbuf, answers := [],
        trace := s.trace ++
          (List.replicate m [Event.treceive 1 25#32 [], .ttransmit [calibrationByte]]).flatten } := by
  obtain ⟨t, ht, hok, hframe, _⟩ := awaitAck_silent at_ m [] h h0 hret hk (by simpa using hs)
  refine ⟨t, ?_, hok, hframe⟩
  rw [hs, show List.replicate m ([] : List Byte) = List.replicate m [] ++ [] by simp, ht, awaitAck]

/-- Everything WaitForAck with attempts to make can do before its first TReceive: send the first probe behind the pending
bytes, or hang. -/
theorem waitForAck_cases (at_ : Nat → Pending) {n : Nat} (hn : n ≠ 0) {s : State} (h : TxOk s) :
    (∃ u, waitForAck at_ n s = awaitAck at_ u.answers n u ∧ Appended s u [calibrationByte] ∧ u.txcur = 0 ∧
      ∀ a, a ≠ appendAddress s 0 → readByte u.txbuf a = readByte s.txbuf a) ∨
    (∃ u, waitForAck at_ n s = .hung u ∧ Grown s u ∧ s.returns ≠ []) := by
  rcases sendProbe_sends h with ⟨u, hu, hau⟩ | ⟨u, hu, hgu⟩
  · exact .inl ⟨u, by rw [waitForAck, if_neg hn, hu, Flow.bind_done], hau⟩
  · exact .inr ⟨u, by rw [waitForAck, if_neg hn, hu, Flow.bind_hung], hgu⟩

/-- WaitForAck with attempts to make, where every call returns: the first probe behind the pending bytes, then the
wait. -/
theorem waitForAck_spec (at_ : Nat → Pending) {n : Nat} (hn : n ≠ 0) {s : State} (h : TxOk s)
    (hr : s.returns = []) :
    ∃ u, waitForAck at_ n s = awaitAck at_ u.answers n u ∧ Appended s u [calibrationByte] ∧ u.txcur = 0 ∧
      ∀ a, a ≠ appendAddress s 0 → readByte u.txbuf a = readByte s.txbuf a := by
  rcases waitForAck_cases at_ hn h with hx | ⟨_, _, _, hx⟩
  · exact hx
  · exact absurd hr hx

/-- WaitForAck with nothing pending, where every call returns: the first probe goes out alone. -/
theorem waitForAck_empty (at_ : Nat → Pending) {n : Nat} (hn : n ≠ 0) {s : State} (h : TxOk s) (h0 : s.txcur = 0)
    (hr : s.returns = []) : waitForAck at_ n s = awaitAck at_ s.answers n (probed s) := by
  rw [waitForAck, if_neg hn, sendProbe_empty h h0 hr, Flow.bind_done]

/-- `t` is `s` after acknowledgement attempts that began with nothing pending, each call having returned. -/
structure Attempted (s t : State) : Prop where
  grown : Grown s t
  cursor : t.txcur = s.txcur
  draws : t.draws = s.draws

theorem Attempted.cfg_eq {s t : State} (h : Attempted s t) : t.cfg = s.cfg := h.grown.cfg_eq

theorem Attempted.trans {s t u : State} (h₁ : Attempted s t) (h₂ : Attempted t u) : Attempted s u :=
  ⟨h₁.grown.trans h₂.grown, h₂.cursor.trans h₁.cursor, h₂.draws.trans h₁.draws⟩

/-- A TReceive of an attempt. -/
theorem Attempted.of_receive {s : State} (h : TxOk s) {a : List Byte} (ha : a.length ≤ 1) (rest : List (List Byte)) :
    Attempted s { s.emit (.treceive 1 25#32 a) with answers := rest } := by
  refine ⟨⟨rfl, h.of_same rfl rfl rfl, ?_, [.treceive 1 25#32 a], rfl, by simpa [eventLegal] using ha⟩, rfl, rfl⟩
  exact ⟨[], by simp [State.emit, wireBytes, pendingBytes]⟩

/-- A probe with nothing pending. -/
theorem Attempted.of_probe {s : State} (h : TxOk s) (h0 : s.txcur = 0) : Attempted s (probed s) := by
  refine ⟨⟨rfl, probed_txOk h h0, ?_, [.ttransmit [calibrationByte]], rfl, ?_⟩, rfl, rfl⟩
  · exact ⟨[calibrationByte], by simp [wireBytes, pendingBytes_of_txcur_zero, h0]⟩
  · simpa [eventLegal] using h.cap

/-- A probe with nothing pending whose call never returns. -/
theorem Grown.of_probe {s : State} (h : TxOk s) (h0 : s.txcur = 0) : Grown s { probed s with txcur := 1 } := by
  have hp := (probed_txOk h h0)
  refine ⟨rfl, ⟨hp.cap, hp.cap, hp.mem, hp.below⟩, ?_, [.ttransmit [calibrationByte]], rfl, ?_⟩
  · exact ⟨calibrationByte :: pendingBytes { probed s with txcur := 1 }, by
      simp [wireBytes, pendingBytes_of_txcur_zero h0]⟩
  · simpa [eventLegal] using h.cap

/-- Everything the wait for an acknowledgement can do. -/
theorem awaitAck_cases (at_ : Nat → Pending) (answers : List (List Byte)) {k : Nat} {s : State} (h : TxOk s)
    (h0 : s.txcur = 0) (hk : 1 ≤ k) (hs : s.answers = answers) :
    (∃ t, awaitAck at_ answers k s = .done () t ∧ Attempted s t) ∨
    (∃ st t, awaitAck at_ answers k s = .fail st t ∧ (st = .error ∨ st = .timeout) ∧ Attempted s t) ∨
    (∃ t m, awaitAck at_ answers k s = .wait { t with running := some (at_ m) } ∧ Attempted s t ∧
      t.answers = [] ∧ 1 ≤ m ∧ m ≤ k) ∨
    (∃ t, awaitAck at_ answers k s = .hung t ∧ Grown s t) ∨
    (∃ n l, awaitAck at_ answers k s = .refused (.answerTooLong n l)) := by
  induction answers generalizing s k with
  | nil =>
    exact .inr (.inr (.inl ⟨s, k, rfl, ⟨Grown.refl h, rfl, rfl⟩, hs, hk, Nat.le_refl k⟩))
  | cons a rest ih =>
    by_cases ha : a.length ≤ 1
    · let r : State := { s.emit (.treceive 1 25#32 a) with answers := rest }
      have hrec : tReceive 1 25#32 a rest s = .done () r := by simp [tReceive, ha, r]
      have hr : Attempted s r := Attempted.of_receive h ha rest
      rw [awaitAck, hrec, Flow.bind_done]
      match a with
      | b :: _ =>
        by_cases hb : b = ackByte
        · exact .inl ⟨r, by simp [hb], hr⟩
        · exact .inr (.inl ⟨.error, r, by simp [hb], .inl rfl, hr⟩)
      | [] =>
        by_cases hk1 : k ≤ 1
        · exact .inr (.inl ⟨.timeout, r, by simp [hk1], .inr rfl, hr⟩)
        · rcases sendProbe_empty_cases hr.grown.ok h0 with hsend | ⟨hsend, _⟩
          · have hsu := hr.trans (Attempted.of_probe hr.grown.ok h0)
            simp only [hk1, if_false, hsend, Flow.bind_done]
            rcases ih (k := k - 1) hsu.grown.ok h0 (by omega) rfl with
              ⟨t, h₁, h₂⟩ | ⟨st, t, h₁, h₂, h₃⟩ | ⟨t, m, h₁, h₂, h₃, h₄, h₅⟩ | ⟨t, h₁, h₂⟩ | h₁
            · exact .inl ⟨t, h₁, hsu.trans h₂⟩
            · exact .inr (.inl ⟨st, t, h₁, h₂, hsu.trans h₃⟩)
            · exact .inr (.inr (.inl ⟨t, m, h₁, hsu.trans h₂, h₃, h₄, by omega⟩))
            · exact .inr (.inr (.inr (.inl ⟨t, h₁, hsu.grown.trans h₂⟩)))
            · exact .inr (.inr (.inr (.inr h₁)))
          · refine .inr (.inr (.inr (.inl ⟨_, ?_, hr.grown.trans (Grown.of_probe hr.grown.ok h0)⟩)))
            simp only [hk1, if_false, hsend, Flow.bind_hung]
    · refine .inr (.inr (.inr (.inr ⟨1, a.length, ?_⟩)))
      rw [awaitAck, tReceive, if_neg ha]
      rfl

end Sys2Proof.Machine
end

