-- ==== Sys2Proof/Laws/Decode.lean ====
section
/-! SUPPORT. The fields of a command word, and the codes read forwards and backwards. -/

namespace Sys2Proof

@[simp] theorem cmdOp_mkCommand (op : Byte) (a b : Word) : cmdOp (mkCommand op a b) = op := by
  show BitVec.extractLsb' 0 8 (b ++ a ++ op : BitVec (32 + 32 + 8)) = op
  ext i hi
  rw [BitVec.getElem_extractLsb', BitVec.getLsbD_append]
  simp [hi, BitVec.getLsbD_eq_getElem]

@[simp] theorem cmdArg0_mkCommand (op : Byte) (a b : Word) : cmdArg0 (mkCommand op a b) = a := by
  show BitVec.extractLsb' 8 32 (b ++ a ++ op : BitVec (32 + 32 + 8)) = a
  ext i hi
  rw [BitVec.getElem_extractLsb', BitVec.getLsbD_append, BitVec.getLsbD_append]
  simp [hi, BitVec.getLsbD_eq_getElem]

@[simp] theorem cmdArg1_mkCommand (op : Byte) (a b : Word) : cmdArg1 (mkCommand op a b) = b := by
  show BitVec.extractLsb' 40 32 (b ++ a ++ op : BitVec (32 + 32 + 8)) = b
  ext i hi
  rw [BitVec.getElem_extractLsb', BitVec.getLsbD_append, BitVec.getLsbD_append]
  have h1 : ¬ (40 + i < 8) := by omega
  have h2 : ¬ (40 + i - 8 < 32) := by omega
  have h3 : 40 + i - 8 - 32 = i := by omega
  simp [h1, h2, h3, BitVec.getLsbD_eq_getElem, hi]

/-- A word is the word of its three fields. -/
theorem mkCommand_fields (c : Command) : mkCommand (cmdOp c) (cmdArg0 c) (cmdArg1 c) = c := by
  show (BitVec.extractLsb' 40 32 c ++ BitVec.extractLsb' 8 32 c ++ BitVec.extractLsb' 0 8 c : BitVec (32 + 32 + 8)) = c
  apply BitVec.eq_of_getLsbD_eq
  intro i hi
  rw [BitVec.getLsbD_append, BitVec.getLsbD_append]
  simp only [BitVec.getLsbD_extractLsb']
  by_cases h1 : i < 8
  · simp [h1]
  · by_cases h2 : i - 8 < 32
    · simp only [h1, h2]; simp; congr 1; omega
    · simp only [h1, h2]; simp
      have : 40 + (i - 8 - 32) = i := by omega
      have h3 : i - 8 - 32 < 32 := by omega
      simp [this, h3]
@[simp] theorem opcodeOf_code (op : Opcode) : opcodeOf op.code = some op := by cases op <;> rfl

@[simp] theorem kindOf_code (kind : LoadKind) : kindOf kind.code = kind := by cases kind <;> rfl

theorem code_kindOf (c : BitVec 2) : (kindOf c).code = c := by
  revert c; decide

/-- An operation code that is no reserved value is its opcode's code. -/
theorem code_of_opcodeOf {b : Byte} {op : Opcode} (h : opcodeOf b = some op) : op.code = b := by
  have key : ∀ b : Byte, ∀ op, opcodeOf b = some op → op.code = b := by decide +kernel
  exact key b op h

end Sys2Proof
end

