-- ==== Sys2Proof/Laws/Dispatch.lean ====
section
/-! SUPPORT. What dispatch and the end of a command do (spec/40_control.md R111 to R113). -/

namespace Sys2Proof.Machine

open Sys2Proof

/-- A command that may run has its rule's effect. -/
theorem dispatch_ready {op : Opcode} {s : State} (h : Ready op s) (rule : State → Flow Word) :
    dispatch op rule s = settle op (rule (accept s)) := by
  simp [dispatch, h.1, h.2]

/-- A command the session does not allow ends PRECOND. -/
theorem dispatch_gated {op : Opcode} {s : State} (hb : s.busy = false) (h : allowed op s.sess = false)
    (rule : State → Flow Word) : dispatch op rule s = .next (complete .precond 0#32 (accept s)) := by
  simp [dispatch, hb, h]

theorem dispatch_busy {s : State} (hb : s.busy = true) (op : Opcode) (rule : State → Flow Word) :
    dispatch op rule s = .refused .commandWhileBusy := by
  simp [dispatch, hb]

/-- Everything dispatch can do with a command: refuse it, gate it, or run its rule. -/
theorem dispatch_cases (op : Opcode) (rule : State → Flow Word) (s : State) :
    (s.busy = true ∧ dispatch op rule s = .refused .commandWhileBusy) ∨
    (s.busy = false ∧ allowed op s.sess = false ∧ dispatch op rule s = .next (complete .precond 0#32 (accept s))) ∨
    (Ready op s ∧ dispatch op rule s = settle op (rule (accept s))) := by
  cases hb : s.busy with
  | true => exact .inl ⟨rfl, dispatch_busy hb _ _⟩
  | false =>
    cases ha : allowed op s.sess with
    | false => exact .inr (.inl ⟨rfl, rfl, dispatch_gated hb ha _⟩)
    | true => exact .inr (.inr ⟨⟨hb, ha⟩, dispatch_ready ⟨hb, ha⟩ _⟩)

theorem complete_ok (data : Word) (s : State) : complete .ok data s = answered .ok data s := rfl
theorem complete_precond (data : Word) (s : State) : complete .precond data s = answered .precond 0#32 s := rfl
theorem complete_illegal (data : Word) (s : State) : complete .illegal data s = answered .illegal 0#32 s := rfl
theorem complete_timeout (data : Word) (s : State) :
    complete .timeout data s = answered .timeout 0#32 { s with sess := .failed } := rfl
theorem complete_error (data : Word) (s : State) :
    complete .error data s = answered .error 0#32 { s with sess := .failed } := rfl

/-- Acceptance does not show once the command has ended. -/
theorem answered_accept (st : Status) (data : Word) (s : State) :
    answered st data (accept s) = answered st data s := rfl

/-- Everything `settle` can answer with a next state: the end of the command, its wait, or its hanging call. -/
theorem settle_next {op : Opcode} {x : Flow Word} {t : State} (h : settle op x = .next t) :
    (∃ data s, x = .done data s ∧ t = complete .ok data s) ∨
    (∃ st s, x = .fail st s ∧ t = complete st 0#32 s) ∨ x = .wait t ∨
    ∃ s, x = .hung s ∧ t = { s with running := some (.hung op) } := by
  cases x with
  | done data s => exact .inl ⟨data, s, rfl, (Host.Outcome.next.inj h).symm⟩
  | fail st s => exact .inr (.inl ⟨st, s, rfl, (Host.Outcome.next.inj h).symm⟩)
  | wait s => exact .inr (.inr (.inl (congrArg Flow.wait (Host.Outcome.next.inj h))))
  | hung s => exact .inr (.inr (.inr ⟨s, rfl, (Host.Outcome.next.inj h).symm⟩))
  | fault f => exact absurd h (by simp)
  | refused r => exact absurd h (by simp)

/-- A flow keeps what each of its parts keeps: the form in which frames are proved for suspended commands too. -/
theorem settle_leaves {op : Opcode} {x : Flow Word} {P : State → Prop} (hx : x.leaves (fun _ => P) P)
    (hc : ∀ st data s, P s → P (complete st data s)) (hh : ∀ s, P s → P { s with running := some (.hung op) })
    {t : State} (h : settle op x = .next t) : P t := by
  rcases settle_next h with ⟨data, s, rfl, rfl⟩ | ⟨st, s, rfl, rfl⟩ | rfl | ⟨s, rfl, rfl⟩
  · exact hc _ _ _ hx
  · exact hc _ _ _ hx
  · exact hx
  · exact hh _ hx

end Sys2Proof.Machine
end

