-- ==== Sys2Proof/Laws/Frame.lean ====
section
/-! SUPPORT. What each operation leaves alone, in every state: however the operation ends, the state it leaves is the
one it found but for the fields its frame names, and it adds events that are no responses. -/

namespace Sys2Proof.Machine

open Sys2Proof

/-- `t` shows the events of `s` and further ones that are no responses. -/
def Shows (s t : State) : Prop := ∃ es : List Event, t.trace = s.trace ++ es ∧ responseCount es = 0

theorem Shows.refl (s : State) : Shows s s := ⟨[], by simp, rfl⟩

theorem Shows.trans {s t u : State} (h₁ : Shows s t) (h₂ : Shows t u) : Shows s u := by
  obtain ⟨es, h1, h2⟩ := h₁
  obtain ⟨fs, g1, g2⟩ := h₂
  exact ⟨es ++ fs, by rw [g1, h1, List.append_assoc], by simp [h2, g2]⟩

/-- The transmit side's frame. -/
structure TxFrame (s t : State) : Prop where
  frame : t = { s with txbuf := t.txbuf, txcur := t.txcur, returns := t.returns, trace := t.trace }
  shows : Shows s t

/-- The receive side's frame. -/
structure RxFrame (s t : State) : Prop where
  frame : t = { s with
    rxbuf := t.rxbuf, rxcur := t.rxcur, rxlen := t.rxlen, running := t.running, answers := t.answers,
    trace := t.trace }
  shows : Shows s t

/-- The frame of acknowledgement attempts, and of LOAD_IMAGE but for its end. -/
structure AckFrame (s t : State) : Prop where
  frame : t = { s with
    txbuf := t.txbuf, txcur := t.txcur, running := t.running, answers := t.answers, returns := t.returns,
    draws := t.draws, trace := t.trace }
  shows : Shows s t

/-- HANDSHAKE's frame but for its end. -/
structure HsFrame (s t : State) : Prop where
  frame : t = { s with
    lfsr := t.lfsr, txbuf := t.txbuf, txcur := t.txcur, rxbuf := t.rxbuf, rxcur := t.rxcur, rxlen := t.rxlen,
    hsState := t.hsState, running := t.running, answers := t.answers, returns := t.returns, trace := t.trace }
  shows : Shows s t

theorem TxFrame.refl (s : State) : TxFrame s s := ⟨rfl, .refl s⟩
theorem RxFrame.refl (s : State) : RxFrame s s := ⟨rfl, .refl s⟩
theorem AckFrame.refl (s : State) : AckFrame s s := ⟨rfl, .refl s⟩
theorem HsFrame.refl (s : State) : HsFrame s s := ⟨rfl, .refl s⟩

theorem TxFrame.trans {s t u : State} (h₁ : TxFrame s t) (h₂ : TxFrame t u) : TxFrame s u := by
  refine ⟨?_, h₁.shows.trans h₂.shows⟩
  have := h₂.frame
  rw [h₁.frame] at this
  exact this

theorem RxFrame.trans {s t u : State} (h₁ : RxFrame s t) (h₂ : RxFrame t u) : RxFrame s u := by
  refine ⟨?_, h₁.shows.trans h₂.shows⟩
  have := h₂.frame
  rw [h₁.frame] at this
  exact this

theorem AckFrame.trans {s t u : State} (h₁ : AckFrame s t) (h₂ : AckFrame t u) : AckFrame s u := by
  refine ⟨?_, h₁.shows.trans h₂.shows⟩
  have := h₂.frame
  rw [h₁.frame] at this
  exact this

theorem HsFrame.trans {s t u : State} (h₁ : HsFrame s t) (h₂ : HsFrame t u) : HsFrame s u := by
  refine ⟨?_, h₁.shows.trans h₂.shows⟩
  have := h₂.frame
  rw [h₁.frame] at this
  exact this

theorem TxFrame.toAck {s t : State} (h : TxFrame s t) : AckFrame s t := ⟨by rw [h.frame], h.shows⟩
theorem TxFrame.toHs {s t : State} (h : TxFrame s t) : HsFrame s t := ⟨by rw [h.frame], h.shows⟩
theorem RxFrame.toHs {s t : State} (h : RxFrame s t) : HsFrame s t := ⟨by rw [h.frame], h.shows⟩

/-- A flow that leaves the frame in every case. -/
abbrev Flow.keeps {α : Type} (x : Flow α) (P : State → Prop) : Prop := x.leaves (fun _ => P) P

/-- A sequence keeps a frame that its parts keep. -/
theorem Flow.keeps_bind {α β : Type} {R : State → State → Prop} (htrans : ∀ {s t u}, R s t → R t u → R s u)
    {s : State} {x : Flow α} {f : α → State → Flow β} (hx : x.keeps (R s)) (hf : ∀ a t, (f a t).keeps (R t)) :
    (x.bind f).keeps (R s) :=
  Flow.leaves_bind hx fun a t hst =>
    Flow.leaves_mono (hf a t) (fun _ _ h => htrans hst h) (fun _ h => htrans hst h)

theorem Flow.keeps_mono {α : Type} {x : Flow α} {P Q : State → Prop} (hx : x.keeps P) (h : ∀ t, P t → Q t) :
    x.keeps Q := Flow.leaves_mono hx (fun _ => h) h

theorem Flow.keeps_waitingAs {α : Type} {x : Flow α} {P : State → Prop} (hx : x.keeps P) (p : Pending)
    (hp : ∀ t, P t → P { t with running := some p }) : (x.waitingAs p).keeps P := by
  cases x with
  | wait s => exact hp s hx
  | _ => exact hx

theorem Flow.keeps_onFail {α : Type} {x : Flow α} {P : State → Prop} (hx : x.keeps P) {f : State → State}
    (hf : ∀ t, P t → P (f t)) : (x.onFail f).keeps P := by
  cases x with
  | fail st s => exact hf s hx
  | _ => exact hx

/-! ## The transmit side -/

theorem callTransport_keeps {e : Event} (he : responseCount [e] = 0) (s : State) :
    (callTransport e s).keeps (TxFrame s) := by
  have h : TxFrame s (s.called e) := ⟨rfl, [e], rfl, he⟩
  unfold callTransport
  split
  · exact h
  · exact h

theorem flush_keeps (s : State) : (flush s).keeps (TxFrame s) := by
  unfold flush
  split
  · exact .refl s
  · split
    · exact Flow.keeps_bind (R := TxFrame) TxFrame.trans (callTransport_keeps rfl s) fun _ t =>
        ⟨rfl, [], by simp, rfl⟩
    · trivial

theorem writeTx_keeps (a : Nat) (b : Byte) (s : State) : (writeTx a b s).keeps (TxFrame s) := by
  unfold writeTx
  split
  · exact ⟨rfl, [], by simp, rfl⟩
  · trivial

theorem appendByte_keeps (b : Byte) (s : State) : (appendByte b s).keeps (TxFrame s) := by
  unfold appendByte
  refine Flow.keeps_bind (R := TxFrame) TxFrame.trans ?_ fun _ t => ?_
  · split
    · exact flush_keeps s
    · exact .refl s
  · exact Flow.keeps_bind (R := TxFrame) TxFrame.trans (writeTx_keeps _ b t) fun _ u => ⟨rfl, [], by simp, rfl⟩

theorem appendBytes_keeps (bs : List Byte) (s : State) : (appendBytes bs s).keeps (TxFrame s) := by
  induction bs generalizing s with
  | nil => exact .refl s
  | cons b bs ih => exact Flow.keeps_bind (R := TxFrame) TxFrame.trans (appendByte_keeps b s) fun _ t => ih t

theorem appendWord_keeps (v : Word) (s : State) : (appendWord v s).keeps (TxFrame s) := appendBytes_keeps _ s

theorem sendProbe_keeps (s : State) : (sendProbe s).keeps (TxFrame s) :=
  Flow.keeps_bind (R := TxFrame) TxFrame.trans (appendByte_keeps _ s) fun _ t => flush_keeps t

theorem progress_tx (phase : Phase) (o n : Word) (s : State) : TxFrame s (progress phase o n s) :=
  ⟨rfl, [.progress phase o n], rfl, rfl⟩

/-! ## The receive side -/

theorem scanWindow_keeps (n : Nat) (s : State) : (scanWindow n s).keeps (RxFrame s) := by
  induction n generalizing s with
  | zero => exact .refl s
  | succ n ih =>
    have hr : (readRx s.rxcur s).keeps (RxFrame s) := by
      unfold readRx
      split
      · exact RxFrame.refl s
      · trivial
    refine Flow.keeps_bind (R := RxFrame) RxFrame.trans hr fun x t => ?_
    have hstep : RxFrame t { t with rxcur := t.rxcur + 1 } := ⟨rfl, [], by simp, rfl⟩
    dsimp only
    split
    · exact hstep
    · exact Flow.keeps_mono (ih _) fun u hu => hstep.trans hu

theorem tReceive_keeps (n : Nat) (w : Word) (a : List Byte) (rest : List (List Byte)) (s : State) :
    (tReceive n w a rest s).keeps (RxFrame s) := by
  unfold tReceive
  split
  · exact ⟨rfl, [.treceive n w a], rfl, rfl⟩
  · trivial

theorem receiveBitOver_keeps (w : Word) (answers : List (List Byte)) (s : State) :
    (receiveBitOver w answers s).keeps (RxFrame s) := by
  induction answers generalizing s with
  | nil =>
    refine Flow.keeps_bind (R := RxFrame) RxFrame.trans (scanWindow_keeps _ s) fun found t => ?_
    cases found with
    | none => exact RxFrame.refl t
    | some b => exact RxFrame.refl t
  | cons a rest ih =>
    refine Flow.keeps_bind (R := RxFrame) RxFrame.trans (scanWindow_keeps _ s) fun found t => ?_
    cases found with
    | some b => exact RxFrame.refl t
    | none =>
      refine Flow.keeps_bind (R := RxFrame) RxFrame.trans (tReceive_keeps _ w a rest t) fun _ u => ?_
      have hfill : RxFrame u (fillWindow a u) := ⟨rfl, [], by simp, rfl⟩
      dsimp only
      split
      · exact hfill
      · exact Flow.keeps_mono (ih _) fun v hv => hfill.trans hv

theorem receiveBit_keeps (w : Word) (s : State) : (receiveBit w s).keeps (RxFrame s) :=
  receiveBitOver_keeps w s.answers s

theorem RxFrame.waiting {s t : State} (h : RxFrame s t) (p : Pending) : RxFrame s { t with running := some p } := by
  refine ⟨?_, h.shows⟩
  have := h.frame
  rw [this]

/-! ## Acknowledgements -/

theorem awaitAck_keeps (at_ : Nat → Pending) (answers : List (List Byte)) (k : Nat) (s : State) :
    (awaitAck at_ answers k s).keeps (AckFrame s) := by
  induction answers generalizing k s with
  | nil => exact ⟨rfl, [], by simp, rfl⟩
  | cons a rest ih =>
    have hrec : (tReceive 1 25#32 a rest s).keeps (AckFrame s) := by
      unfold tReceive
      split
      · exact ⟨rfl, [.treceive 1 25#32 a], rfl, rfl⟩
      · trivial
    refine Flow.keeps_bind (R := AckFrame) AckFrame.trans hrec fun _ t => ?_
    cases a with
    | cons b bs =>
      dsimp only
      split <;> exact AckFrame.refl t
    | nil =>
      dsimp only
      split
      · exact AckFrame.refl t
      · exact Flow.keeps_bind (R := AckFrame) AckFrame.trans (Flow.keeps_mono (sendProbe_keeps t) fun u hu => hu.toAck)
          fun _ u => ih (k - 1) u

theorem waitForAck_keeps (at_ : Nat → Pending) (n : Nat) (s : State) :
    (waitForAck at_ n s).keeps (AckFrame s) := by
  unfold waitForAck
  split
  · exact AckFrame.refl s
  · exact Flow.keeps_bind (R := AckFrame) AckFrame.trans (Flow.keeps_mono (sendProbe_keeps s) fun u hu => hu.toAck)
      fun _ u => awaitAck_keeps at_ _ n u

/-! ## The handshake -/

theorem HsFrame.hsState {s t : State} (h : HsFrame s t) (x : HsState) : HsFrame s { t with hsState := x } := by
  refine ⟨?_, h.shows⟩
  have := h.frame
  rw [this]

theorem HsFrame.lfsr {s t : State} (h : HsFrame s t) (x : Byte) : HsFrame s { t with lfsr := x } := by
  refine ⟨?_, h.shows⟩
  have := h.frame
  rw [this]

theorem HsFrame.emit {s t : State} (h : HsFrame s t) {e : Event} (he : responseCount [e] = 0) :
    HsFrame s (t.emit e) := by
  refine ⟨?_, h.shows.trans ⟨[e], rfl, he⟩⟩
  have := h.frame
  simp only [State.emit]
  rw [this]

theorem sendPattern_keeps (n : Nat) (s : State) : (sendPattern n s).keeps (HsFrame s) := by
  induction n generalizing s with
  | zero => exact HsFrame.refl s
  | succ n ih =>
    have h : HsFrame s (lfsrStep s) := (HsFrame.refl s).lfsr _
    refine Flow.keeps_bind (R := HsFrame) HsFrame.trans ?_ fun _ t => ih t
    exact Flow.keeps_mono (appendByte_keeps _ _) fun t ht => h.trans ht.toHs

theorem sendConnect_keeps (s : State) : (sendConnect s).keeps (HsFrame s) := by
  have h0 : HsFrame s (progress .handshakeStart 0#32 0#32 { s with hsState := .reset }) :=
    ((HsFrame.refl s).hsState .reset).emit (e := .progress .handshakeStart 0#32 0#32) rfl
  refine Flow.keeps_bind (R := HsFrame) HsFrame.trans
    (Flow.keeps_mono (callTransport_keeps rfl _) fun t ht => h0.trans ht.toHs) fun _ r => ?_
  refine Flow.keeps_bind (R := HsFrame) HsFrame.trans
    (Flow.keeps_mono (appendByte_keeps _ _) fun t ht => ((HsFrame.refl r).lfsr _).trans ht.toHs) fun _ t => ?_
  refine Flow.keeps_bind (R := HsFrame) HsFrame.trans
    (Flow.keeps_mono (sendPattern_keeps 250 _) fun u hu => ((HsFrame.refl t).hsState _).trans hu) fun _ u => ?_
  refine Flow.keeps_bind (R := HsFrame) HsFrame.trans
    (Flow.keeps_mono (appendBytes_keeps _ _) fun v hv => ((HsFrame.refl u).hsState _).trans hv.toHs) fun _ v => ?_
  refine Flow.keeps_bind (R := HsFrame) HsFrame.trans (Flow.keeps_mono (flush_keeps v) fun w hw => hw.toHs) fun _ w => ?_
  exact (((HsFrame.refl w).emit (e := .progress .responseStart 0#32 0#32) rfl).hsState _).hsState _

theorem hsReceive_keeps (w : Word) (p : Pending) (s : State) :
    (((receiveBit w s).waitingAs p).onFail handshakeTimeout).keeps (HsFrame s) := by
  have h : ((receiveBit w s).waitingAs p).keeps (RxFrame s) :=
    Flow.keeps_waitingAs (receiveBit_keeps w s) p fun _ ht => ht.waiting p
  exact Flow.keeps_onFail (Flow.keeps_mono h fun t ht => ht.toHs) fun t ht => ht.hsState _

theorem verifyResponse_keeps (n : Nat) (s : State) : (verifyResponse n s).keeps (HsFrame s) := by
  induction n generalizing s with
  | zero => exact HsFrame.refl s
  | succ n ih =>
    refine Flow.keeps_bind (R := HsFrame) HsFrame.trans (hsReceive_keeps _ _ s) fun b t => ?_
    have h : HsFrame t (lfsrStep t) := (HsFrame.refl t).lfsr _
    dsimp only
    split
    · exact Flow.keeps_mono (ih _) fun u hu => h.trans hu
    · exact h.hsState _

theorem receiveVersion_keeps (n : Nat) (acc : Byte) (s : State) : (receiveVersion n acc s).keeps (HsFrame s) := by
  induction n generalizing acc s with
  | zero => exact HsFrame.refl s
  | succ n ih => exact Flow.keeps_bind (R := HsFrame) HsFrame.trans (hsReceive_keeps _ _ s) fun b t => ih _ t

/-! ## The load -/

theorem imageWord_keeps (o : Nat) (s : State) : (imageWord o s).keeps (AckFrame s) := by
  have hread : ∀ a t, (readImage a t).keeps (AckFrame t) := by
    intro a t
    unfold readImage
    split
    · exact AckFrame.refl t
    · trivial
  unfold imageWord
  split
  · exact Flow.keeps_bind (R := AckFrame) AckFrame.trans (hread o s) fun _ t =>
      Flow.keeps_bind (R := AckFrame) AckFrame.trans (hread _ t) fun _ u =>
        Flow.keeps_bind (R := AckFrame) AckFrame.trans (hread _ u) fun _ v =>
          Flow.keeps_bind (R := AckFrame) AckFrame.trans (hread _ v) fun _ w => AckFrame.refl w
  · exact ⟨rfl, [], by simp, rfl⟩

theorem streamWords_keeps (n o : Nat) (size : Word) (s : State) :
    (streamWords n o size s).keeps (AckFrame s) := by
  induction n generalizing o s with
  | zero => exact AckFrame.refl s
  | succ n ih =>
    have h : AckFrame s (if o % 1024 = 0 then progress .program (BitVec.ofNat 32 o) size s else s) := by
      split
      · exact (progress_tx _ _ _ _).toAck
      · exact AckFrame.refl s
    refine Flow.keeps_mono (P := AckFrame _) ?_ fun t ht => h.trans ht
    exact Flow.keeps_bind (R := AckFrame) AckFrame.trans (imageWord_keeps _ _) fun v t =>
      Flow.keeps_bind (R := AckFrame) AckFrame.trans
        (Flow.keeps_mono (appendWord_keeps v t) fun u hu => hu.toAck) fun _ u => ih _ u

theorem sendImage_keeps (kind : LoadKind) (size : Word) (s : State) :
    (sendImage kind size s).keeps (AckFrame s) :=
  Flow.keeps_bind (R := AckFrame) AckFrame.trans
    (Flow.keeps_mono (appendWord_keeps _ s) fun _ h => h.toAck) fun _ t =>
    Flow.keeps_bind (R := AckFrame) AckFrame.trans
      (Flow.keeps_mono (appendWord_keeps _ t) fun _ h => h.toAck) fun _ u =>
      Flow.keeps_bind (R := AckFrame) AckFrame.trans (streamWords_keeps _ _ _ u) fun _ v =>
        Flow.keeps_mono (flush_keeps v) fun _ h => h.toAck

end Sys2Proof.Machine
end

