-- ==== Sys2Proof/Laws/Receive.lean ====
section
/-! SUPPORT. What the receive side does: ReceiveBit in terms of the bits that are still to come. -/

namespace Sys2Proof.Machine

open Sys2Proof

@[simp] theorem bitsOf_append (a b : List Byte) : bitsOf (a ++ b) = bitsOf a ++ bitsOf b := by
  simp [bitsOf]

theorem bitsOf_cons (x : Byte) (bs : List Byte) : bitsOf (x :: bs) =
    (match classify x with | some b => b :: bitsOf bs | none => bitsOf bs) := by
  cases h : classify x <;> simp [bitsOf, h]

@[simp] theorem bitsOf_nil : bitsOf [] = [] := rfl

/-- The window of an exhausted state is empty. -/
theorem windowBytes_of_exhausted {s : State} (h : s.rxlen ≤ s.rxcur) : windowBytes s = [] := by
  have : s.rxlen - s.rxcur = 0 := by omega
  simp [windowBytes, this]

/-- The window's first byte stands at RXCUR. -/
theorem windowBytes_cons {s : State} (h : s.rxcur < s.rxlen) :
    windowBytes s = readByte s.rxbuf s.rxcur :: windowBytes { s with rxcur := s.rxcur + 1 } := by
  obtain ⟨n, hn⟩ : ∃ n, s.rxlen - s.rxcur = n + 1 := ⟨s.rxlen - s.rxcur - 1, by omega⟩
  have h2 : s.rxlen - (s.rxcur + 1) = n := by omega
  simp only [windowBytes, hn, h2, List.range_succ_eq_map, List.map_cons, List.map_map, Nat.add_zero]
  congr 1
  refine List.map_congr_left fun j _ => ?_
  simp only [Function.comp, Nat.succ_eq_add_one]
  congr 1
  omega

/-- After a refill the window holds the answer. -/
theorem windowBytes_fillWindow (a : List Byte) {s : State} (h : Memory.wf s.rxbuf = true) :
    windowBytes (fillWindow a s) = a := by
  refine List.ext_getElem (by simp [windowBytes]) fun j h₁ h₂ => ?_
  have h3 : j < a.length := h₂
  simpa [windowBytes] using readByte_writeBytes_in s.rxbuf 0 j a h h3

/-- Where the window holds a bit, the scan ends just past the first one. -/
theorem scanWindow_found {n : Nat} {s : State} (hn : s.rxcur + n = s.rxlen) (hl : s.rxlen ≤ s.cfg.rxCap)
    {b : Bool} {more : List Bool} (hb : bitsOf (windowBytes s) = b :: more) :
    ∃ c, s.rxcur < c ∧ c ≤ s.rxlen ∧ scanWindow n s = .done (some b) { s with rxcur := c } ∧
      bitsOf (windowBytes { s with rxcur := c }) = more := by
  induction n generalizing s with
  | zero => rw [windowBytes_of_exhausted (by omega)] at hb; simp at hb
  | succ n ih =>
    rw [windowBytes_cons (by omega), bitsOf_cons] at hb
    have hread : readRx s.rxcur s = .done (readByte s.rxbuf s.rxcur) s := by
      simp [readRx, show s.rxcur < s.cfg.rxCap by omega]
    cases hc : classify (readByte s.rxbuf s.rxcur) with
    | some b' =>
      rw [hc] at hb
      obtain ⟨rfl, rfl⟩ := List.cons.inj hb
      exact ⟨s.rxcur + 1, by omega, by omega, by simp [scanWindow, hread, hc], rfl⟩
    | none =>
      rw [hc] at hb
      have hn' : s.rxcur + 1 + n = s.rxlen := by omega
      obtain ⟨c, h₁, h₂, h₃, h₄⟩ := ih (s := { s with rxcur := s.rxcur + 1 }) hn' hl hb
      exact ⟨c, Nat.lt_of_succ_lt h₁, h₂, by simpa [scanWindow, hread, hc] using h₃, h₄⟩

/-- Where the window holds only noise, the scan ends at its end. -/
theorem scanWindow_noise {n : Nat} {s : State} (hn : s.rxcur + n = s.rxlen) (hl : s.rxlen ≤ s.cfg.rxCap)
    (hb : bitsOf (windowBytes s) = []) :
    scanWindow n s = .done none { s with rxcur := s.rxlen } := by
  induction n generalizing s with
  | zero =>
    have : s.rxlen = s.rxcur := by omega
    exact congrArg (Flow.done none) (congrArg (fun c => ({ s with rxcur := c } : State)) this).symm
  | succ n ih =>
    rw [windowBytes_cons (by omega), bitsOf_cons] at hb
    have hread : readRx s.rxcur s = .done (readByte s.rxbuf s.rxcur) s := by
      simp [readRx, show s.rxcur < s.cfg.rxCap by omega]
    cases hc : classify (readByte s.rxbuf s.rxcur) with
    | some b' => rw [hc] at hb; simp at hb
    | none =>
      rw [hc] at hb
      have hn' : s.rxcur + 1 + n = s.rxlen := by omega
      simpa [scanWindow, hread, hc] using ih (s := { s with rxcur := s.rxcur + 1 }) hn' hl hb

theorem Refilled.cfg_eq {t : Word} {s u : State} (h : Refilled t s u) : u.cfg = s.cfg := by rw [h.frame]

theorem Refilled.trans {t : Word} {s u v : State} (h₁ : Refilled t s u) (h₂ : Refilled t u v) :
    Refilled t s v := by
  obtain ⟨as, hs, hst, hal, has⟩ := h₁.events
  obtain ⟨bs, hu, hut, hbl, hbs⟩ := h₂.events
  refine ⟨?_, h₂.ok, as ++ bs, ?_, ?_, ?_, fun a ha => ?_⟩
  · have := h₂.frame
    rw [h₁.frame] at this
    exact this
  · rw [hs, hu]; simp
  · rw [hut, hst, h₁.cfg_eq]; simp
  · intro x hx
    rcases List.mem_append.1 hx with h | h
    · exact hal x h
    · rw [← h₁.cfg_eq]; exact hbl x h
  · rw [hbs a fun x hx => ha x (by simp [hx]), has a fun x hx => ha x (by simp [hx])]

/-- Moving RXCUR inside the window is a stretch of receiving that takes no answer. -/
theorem Refilled.of_rxcur {t : Word} {s : State} (h : RxOk s) {c : Nat} (hc : c ≤ s.rxlen) :
    Refilled t s { s with rxcur := c } :=
  ⟨rfl, ⟨h.cap, hc, h.len, h.mem, h.below⟩, [], by simp, by simp, by simp, fun _ _ => rfl⟩

theorem Refills.nil (cfg : Config) : Refills cfg [] := fun _ h => absurd h List.not_mem_nil

/-- The state after a refill with the next answer. -/
abbrev refilledWith (t : Word) (a : List Byte) (rest : List (List Byte)) (s : State) : State :=
  fillWindow a { s.emit (.treceive s.cfg.rxCap t a) with answers := rest }

theorem Refilled.of_fill {t : Word} {s : State} (h : RxOk s) {a : List Byte} {rest : List (List Byte)}
    (ha : a.length ≤ s.cfg.rxCap) (hs : s.answers = a :: rest) : Refilled t s (refilledWith t a rest s) := by
  refine ⟨rfl, ⟨h.cap, Nat.zero_le _, ha, Memory.wf_writeBytes _ _ h.mem, ?_⟩, [a], by simpa using hs, by simp,
    by simpa using ha, ?_⟩
  · exact Memory.below_writeBytes _ (by simpa using ha) h.below
  · intro x hx
    exact readByte_writeBytes_after _ _ _ _ (by simpa using hx a (by simp))

theorem RxOk.scan_count {s : State} (h : RxOk s) : s.rxcur + (s.rxlen - s.rxcur) = s.rxlen := by
  have := h.cur; omega

/-- One refill of ReceiveBit, where the window holds only noise. -/
theorem receiveBitOver_refill {t : Word} {s : State} (h : RxOk s) {a : List Byte} {rest : List (List Byte)}
    (ha : a.length ≤ s.cfg.rxCap) (hb : bitsOf (windowBytes s) = []) :
    receiveBitOver t (a :: rest) s =
      (if a = [] then .fail .timeout (refilledWith t a rest { s with rxcur := s.rxlen })
      else receiveBitOver t rest (refilledWith t a rest { s with rxcur := s.rxlen })) := by
  simp only [receiveBitOver, scanWindow_noise h.scan_count h.len hb, Flow.bind_done, tReceive, ha, if_true]

/-- ReceiveBit answers the next bit to come and leaves the others to come, however the answers divide the bytes
(spec/42_decoder.md R150, R152). -/
theorem receiveBitOver_bit {t : Word} {pre tail : List (List Byte)} {s : State} (h : RxOk s)
    (hs : s.answers = pre ++ tail) (hpre : Refills s.cfg pre) {b : Bool} {more : List Bool}
    (hb : incomingBits s pre = b :: more) :
    ∃ u pre', receiveBitOver t (pre ++ tail) s = .done b u ∧ Refilled t s u ∧ u.answers = pre' ++ tail ∧
      Refills s.cfg pre' ∧ incomingBits u pre' = more := by
  induction pre generalizing s with
  | nil =>
    have hb' : bitsOf (windowBytes s) = b :: more := by simpa [incomingBits] using hb
    obtain ⟨c, _, h₂, h₃, h₄⟩ := scanWindow_found h.scan_count h.len hb'
    refine ⟨{ s with rxcur := c }, [], ?_, Refilled.of_rxcur h h₂, hs, Refills.nil _,
      by simpa [incomingBits] using h₄⟩
    cases tail <;> simp [receiveBitOver, h₃]
  | cons a pre ih =>
    cases hw : bitsOf (windowBytes s) with
    | cons b' more' =>
      have hbb : b' = b ∧ more' ++ bitsOf (a :: pre).flatten = more := by
        simpa [incomingBits, hw] using hb
      obtain ⟨rfl, hmore⟩ := hbb
      obtain ⟨c, _, h₂, h₃, h₄⟩ := scanWindow_found h.scan_count h.len hw
      refine ⟨{ s with rxcur := c }, a :: pre, ?_, Refilled.of_rxcur h h₂, hs, hpre, ?_⟩
      · simp [receiveBitOver, h₃]
      · simpa [incomingBits, h₄] using hmore
    | nil =>
      obtain ⟨hne, ha⟩ := hpre a (by simp)
      have hr : RxOk ({ s with rxcur := s.rxlen } : State) := ⟨h.cap, Nat.le_refl _, h.len, h.mem, h.below⟩
      have hfill := Refilled.of_fill (t := t) hr (a := a) (rest := pre ++ tail) ha hs
      have hb' : incomingBits (refilledWith t a (pre ++ tail) { s with rxcur := s.rxlen }) pre = b :: more := by
        rw [← hb]
        simp only [incomingBits, bitsOf_append, hw, List.nil_append, List.flatten_cons]
        rw [windowBytes_fillWindow]
        exact h.mem
      obtain ⟨u, pre', h₁, h₂, h₃, h₄, h₅⟩ := ih hfill.ok rfl (fun x hx => hpre x (by simp [hx])) hb'
      refine ⟨u, pre', ?_, (Refilled.of_rxcur h (Nat.le_refl _)).trans (hfill.trans h₂), h₃, h₄, h₅⟩
      rw [List.cons_append, receiveBitOver_refill h ha hw, if_neg hne]
      exact h₁

/-- With no bit to come ReceiveBit takes every answer and then either waits, where no answer is left, or reports
hardware-lost, where the next answer is empty (spec/42_decoder.md R150). -/
theorem receiveBitOver_silence {t : Word} {pre tail : List (List Byte)} {s : State} (h : RxOk s)
    (hs : s.answers = pre ++ tail) (hpre : Refills s.cfg pre) (hb : incomingBits s pre = []) :
    (tail = [] → ∃ u, receiveBitOver t (pre ++ tail) s = .wait u ∧ Refilled t s u ∧ u.answers = [] ∧
      u.rxcur = u.rxlen) ∧
    (∀ rest, tail = [] :: rest → ∃ u, receiveBitOver t (pre ++ tail) s = .fail .timeout u ∧ Refilled t s u ∧
      u.answers = rest ∧ u.rxcur = 0 ∧ u.rxlen = 0) := by
  induction pre generalizing s with
  | nil =>
    have hb' : bitsOf (windowBytes s) = [] := by simpa [incomingBits] using hb
    have hr : RxOk ({ s with rxcur := s.rxlen } : State) := ⟨h.cap, Nat.le_refl _, h.len, h.mem, h.below⟩
    refine ⟨fun ht => ⟨{ s with rxcur := s.rxlen }, ?_, Refilled.of_rxcur h (Nat.le_refl _), ?_, rfl⟩,
      fun rest ht => ⟨refilledWith t [] rest { s with rxcur := s.rxlen }, ?_, ?_, rfl, rfl, rfl⟩⟩
    · subst ht
      simp [receiveBitOver, scanWindow_noise h.scan_count h.len hb']
    · simpa [ht] using hs
    · subst ht
      rw [List.nil_append, receiveBitOver_refill h (Nat.zero_le _) hb', if_pos rfl]
    · refine (Refilled.of_rxcur h (Nat.le_refl _)).trans (Refilled.of_fill hr (Nat.zero_le _) ?_)
      simpa [ht] using hs
  | cons a pre ih =>
    have hsplit : bitsOf (windowBytes s) = [] ∧ bitsOf a = [] ∧ bitsOf pre.flatten = [] := by
      simpa [incomingBits] using hb
    obtain ⟨hw, hba, hbp⟩ := hsplit
    obtain ⟨hne, ha⟩ := hpre a (by simp)
    have hr : RxOk ({ s with rxcur := s.rxlen } : State) := ⟨h.cap, Nat.le_refl _, h.len, h.mem, h.below⟩
    have hfill := Refilled.of_fill (t := t) hr (a := a) (rest := pre ++ tail) ha hs
    have hb' : incomingBits (refilledWith t a (pre ++ tail) { s with rxcur := s.rxlen }) pre = [] := by
      simp only [incomingBits, bitsOf_append, hbp]
      rw [windowBytes_fillWindow]
      · simp [hba]
      · exact h.mem
    have hstep : receiveBitOver t (a :: pre ++ tail) s =
        receiveBitOver t (pre ++ tail) (refilledWith t a (pre ++ tail) { s with rxcur := s.rxlen }) := by
      rw [List.cons_append, receiveBitOver_refill h ha hw, if_neg hne]
    obtain ⟨i₁, i₂⟩ := ih hfill.ok rfl (fun x hx => hpre x (by simp [hx])) hb'
    refine ⟨fun ht => ?_, fun rest ht => ?_⟩
    · obtain ⟨u, h₁, h₂, h₃⟩ := i₁ ht
      exact ⟨u, hstep.trans h₁, (Refilled.of_rxcur h (Nat.le_refl _)).trans (hfill.trans h₂), h₃⟩
    · obtain ⟨u, h₁, h₂, h₃⟩ := i₂ rest ht
      exact ⟨u, hstep.trans h₁, (Refilled.of_rxcur h (Nat.le_refl _)).trans (hfill.trans h₂), h₃⟩

/-- Everything ReceiveBit can do: answer a bit, report hardware-lost with the window cleared, wait with the window and
the answers exhausted, or meet an answer that is not admitted. -/
theorem receiveBitOver_cases (t : Word) (answers : List (List Byte)) {s : State} (h : RxOk s)
    (hs : s.answers = answers) :
    (∃ b u, receiveBitOver t answers s = .done b u ∧ Refilled t s u) ∨
    (∃ u, receiveBitOver t answers s = .fail .timeout u ∧ Refilled t s u ∧ u.rxcur = 0 ∧ u.rxlen = 0) ∨
    (∃ u, receiveBitOver t answers s = .wait u ∧ Refilled t s u ∧ u.answers = [] ∧ u.rxcur = u.rxlen) ∨
    (∃ n l, receiveBitOver t answers s = .refused (.answerTooLong n l)) := by
  induction answers generalizing s with
  | nil =>
    cases hw : bitsOf (windowBytes s) with
    | cons b more =>
      obtain ⟨c, _, h₂, h₃, _⟩ := scanWindow_found h.scan_count h.len hw
      exact .inl ⟨b, _, by simp [receiveBitOver, h₃], Refilled.of_rxcur h h₂⟩
    | nil =>
      refine .inr (.inr (.inl ⟨{ s with rxcur := s.rxlen }, ?_, Refilled.of_rxcur h (Nat.le_refl _), hs, rfl⟩))
      simp [receiveBitOver, scanWindow_noise h.scan_count h.len hw]
  | cons a rest ih =>
    cases hw : bitsOf (windowBytes s) with
    | cons b more =>
      obtain ⟨c, _, h₂, h₃, _⟩ := scanWindow_found h.scan_count h.len hw
      exact .inl ⟨b, _, by simp [receiveBitOver, h₃], Refilled.of_rxcur h h₂⟩
    | nil =>
      by_cases ha : a.length ≤ s.cfg.rxCap
      · have hr : RxOk ({ s with rxcur := s.rxlen } : State) := ⟨h.cap, Nat.le_refl _, h.len, h.mem, h.below⟩
        have hfill := (Refilled.of_rxcur (t := t) h (Nat.le_refl _)).trans (Refilled.of_fill hr (a := a) ha hs)
        rw [receiveBitOver_refill h ha hw]
        by_cases hne : a = []
        · rw [if_pos hne]
          exact .inr (.inl ⟨_, rfl, hfill, rfl, by rw [hne]; rfl⟩)
        · rw [if_neg hne]
          rcases ih hfill.ok rfl with ⟨b, u, h₁, h₂⟩ | ⟨u, h₁, h₂, h₃⟩ | ⟨u, h₁, h₂, h₃⟩ | h₁
          · exact .inl ⟨b, u, h₁, hfill.trans h₂⟩
          · exact .inr (.inl ⟨u, h₁, hfill.trans h₂, h₃⟩)
          · exact .inr (.inr (.inl ⟨u, h₁, hfill.trans h₂, h₃⟩))
          · exact .inr (.inr (.inr h₁))
      · refine .inr (.inr (.inr ⟨s.cfg.rxCap, a.length, ?_⟩))
        simp only [receiveBitOver, scanWindow_noise h.scan_count h.len hw, Flow.bind_done, tReceive, ha, if_false,
          Flow.bind_refused]

theorem receiveBit_cases (t : Word) {s : State} (h : RxOk s) :
    (∃ b u, receiveBit t s = .done b u ∧ Refilled t s u) ∨
    (∃ u, receiveBit t s = .fail .timeout u ∧ Refilled t s u ∧ u.rxcur = 0 ∧ u.rxlen = 0) ∨
    (∃ u, receiveBit t s = .wait u ∧ Refilled t s u ∧ u.answers = [] ∧ u.rxcur = u.rxlen) ∨
    (∃ n l, receiveBit t s = .refused (.answerTooLong n l)) :=
  receiveBitOver_cases t s.answers h rfl

end Sys2Proof.Machine
end

