-- ==== Sys2Proof/Laws/Handshake.lean ====
section
/-! SUPPORT. What the parts of HANDSHAKE do (spec/44_handshake.md R190). -/

namespace Sys2Proof.Machine

open Sys2Proof

/-! ## Steps 1 to 6 -/

theorem Appended.withControl {s t : State} {bs : List Byte} (h : Appended s t bs) (x : Byte) (y : HsState) :
    Appended { s with lfsr := x, hsState := y } { t with lfsr := x, hsState := y } bs := by
  refine ⟨?_, h.ok.of_same rfl rfl rfl, h.wire, h.events⟩
  have := h.frame
  rw [this]

theorem Grown.withControl {s t : State} (h : Grown s t) (x : Byte) (y : HsState) :
    Grown { s with lfsr := x, hsState := y } { t with lfsr := x, hsState := y } := by
  refine ⟨?_, h.ok.of_same rfl rfl rfl, h.wire, h.events⟩
  have := h.frame
  rw [this]

/-- What steps 1 to 6 leave: the connect stream sent behind what was pending, the LFSR half way through the
sequence. -/
structure Connected (s t : State) (ps : List (List Byte)) : Prop where
  frame : t = { s with
    lfsr := lfsrAfter 250 handshakeSeed, hsState := .responseVerifying, txbuf := t.txbuf, txcur := 0,
    returns := s.returns.drop (1 + ps.length),
    trace := s.trace ++ [.progress .handshakeStart 0#32 0#32, .treset] ++ ps.map .ttransmit ++
      [.progress .responseStart 0#32 0#32] }
  ok : TxOk t
  sent : ps.flatten = pendingBytes s ++ handshakeStream
  sizes : ∀ p ∈ ps, 1 ≤ p.length ∧ p.length ≤ s.cfg.txCap
  stored : ∀ a, (∀ i < 509, a ≠ appendAddress s i) → readByte t.txbuf a = readByte s.txbuf a

theorem Connected.lfsr_eq {s t : State} {ps : List (List Byte)} (h : Connected s t ps) :
    t.lfsr = lfsrAfter 250 handshakeSeed := by rw [h.frame]

theorem Connected.cfg_eq {s t : State} {ps : List (List Byte)} (h : Connected s t ps) : t.cfg = s.cfg := by
  rw [h.frame]

theorem Connected.rxOk {s t : State} {ps : List (List Byte)} (h : Connected s t ps) (hr : RxOk s) : RxOk t := by
  rw [h.frame]
  exact ⟨hr.cap, hr.cur, hr.len, hr.mem, hr.below⟩

/-- The states of a HANDSHAKE whose TReset, or one of whose flushes in steps 3 to 6, never returns. -/
def ConnectHung (s t : State) : Prop :=
  ∃ x y, (y = .reset ∨ y = .calibrationSent ∨ y = .patternSent) ∧ Grown { s with lfsr := x, hsState := y } t ∧
    s.returns ≠ []

/-- Everything steps 1 to 6 can do. -/
theorem sendConnect_cases {s : State} (h : TxOk s) :
    (∃ t ps, sendConnect s = .done () t ∧ Connected s t ps) ∨
    (∃ t, sendConnect s = .hung t ∧ ConnectHung s t) := by
  let p : State := progress .handshakeStart 0#32 0#32 { s with hsState := .reset }
  let r : State := p.called .treset
  let a : State := { r with lfsr := handshakeSeed }
  have hstart : ∀ x y, Grown { s with lfsr := x, hsState := y } { r with lfsr := x, hsState := y } := by
    intro x y
    refine ⟨rfl, h.of_same rfl rfl rfl, ⟨[], ?_⟩, [.progress .handshakeStart 0#32 0#32, .treset], ?_, ?_⟩
    · simp [r, p, State.called, State.emit, progress, wireBytes, pendingBytes]
    · simp [r, p, State.called, State.emit, progress]
    · simp [eventLegal]
  have hret : ∀ {u : State}, (s.returns = [] → u.returns = []) → u.returns ≠ [] → s.returns ≠ [] :=
    fun hu hne hs => hne (hu hs)
  have hra : s.returns = [] → a.returns = [] := fun hs => by simp [a, r, p, hs]
  rcases callTransport_cases .treset p with hcall | ⟨hcall, hne⟩
  rotate_left
  · refine .inr ⟨r, ?_, s.lfsr, .reset, .inl rfl, hstart _ _, hne⟩
    show (callTransport .treset p).bind _ = _
    rw [hcall]
    rfl
  have ha : TxOk a := h.of_same rfl rfl rfl
  rcases appendByte_sends calibrationByte ha with ⟨b, hb, hab, pab⟩ | ⟨b, hb, hgb, hne⟩
  rotate_left
  · refine .inr ⟨b, ?_, handshakeSeed, .reset, .inl rfl, (hstart _ _).trans hgb, hret hra hne⟩
    show (callTransport .treset p).bind _ = _
    rw [hcall, Flow.bind_done]
    show (appendByte calibrationByte a).bind _ = _
    rw [hb]
    rfl
  let b' : State := { b with hsState := .calibrationSent }
  have hb' : TxOk b' := hab.ok.of_same rfl rfl rfl
  have hrb : s.returns = [] → b'.returns = [] := fun hs => hab.returns_nil (hra hs)
  have hlfsr : b.lfsr = handshakeSeed := by rw [hab.frame]
  have gb : ∀ x y, Grown { s with lfsr := x, hsState := y } { b with lfsr := x, hsState := y } := fun x y =>
    (hstart x y).trans (hab.grown.withControl x y)
  have hrunb : sendConnect s = (sendPattern 250 b').bind fun _ s =>
      (appendBytes (List.replicate 258 calibrationByte) { s with hsState := .patternSent }).bind fun _ s =>
        (flush s).bind fun _ s =>
          let s := { progress .responseStart 0#32 0#32 s with hsState := .responseAwaited }
          .done () { s with hsState := .responseVerifying } := by
    show (callTransport .treset p).bind _ = _
    rw [hcall, Flow.bind_done]
    show (appendByte calibrationByte a).bind _ = _
    rw [hb, Flow.bind_done]
  rcases sendPattern_sends 250 hb' with ⟨c, hc, pbc, hbc⟩ | ⟨c, x, hc, hgc, hne⟩
  rotate_left
  · exact .inr ⟨c, by rw [hrunb, hc, Flow.bind_hung], x, .calibrationSent, .inr (.inl rfl), (gb _ _).trans hgc, hret hrb hne⟩
  let c' : State := { c with hsState := .patternSent }
  have hc' : TxOk c' := hbc.ok.of_same rfl rfl rfl
  have hrc : s.returns = [] → c'.returns = [] := fun hs => hbc.returns_nil (hrb hs)
  have gc : Grown { s with lfsr := lfsrAfter 250 handshakeSeed, hsState := .patternSent } c' := by
    have h1 := (gb (lfsrAfter 250 handshakeSeed) .calibrationSent)
    have h2 := hbc.grown
    rw [show b'.lfsr = handshakeSeed from hlfsr] at h2
    have h3 := (h1.trans h2).withControl c.lfsr .patternSent
    have hcl : c.lfsr = lfsrAfter 250 handshakeSeed := by rw [h2.frame]
    rw [← hcl]
    exact h3
  rcases appendBytes_sends (List.replicate 258 calibrationByte) hc' with ⟨d, hd, hcd, pcd⟩ | ⟨d, hd, hgd, hne⟩
  rotate_left
  · refine .inr ⟨d, ?_, lfsrAfter 250 handshakeSeed, .patternSent, .inr (.inr rfl), gc.trans hgd, hret hrc hne⟩
    rw [hrunb, hc, Flow.bind_done, hd, Flow.bind_hung]
  have hrd : s.returns = [] → d.returns = [] := fun hs => hcd.returns_nil (hrc hs)
  rcases flush_sends hcd.ok with ⟨e, he, hde⟩ | ⟨e, he, hge, hne⟩
  rotate_left
  · refine .inr ⟨e, ?_, lfsrAfter 250 handshakeSeed, .patternSent, .inr (.inr rfl),
      (gc.trans hcd.grown).trans hge, hret hrd hne⟩
    rw [hrunb, hc, Flow.bind_done, hd, Flow.bind_done, he, Flow.bind_hung]
  -- the four stretches of appending as one, in a state that has the final values of the other fields
  have fc := State.ext_iff.1 hbc.frame
  simp only [true_and, and_true, b'] at fc
  have one : Appended (({ a with lfsr := lfsrAfter 250 handshakeSeed, hsState := .patternSent } : State)) e
      ([calibrationByte] ++ (lfsrBits 250 handshakeSeed).map patternByte ++
        List.replicate 258 calibrationByte ++ []) := by
    have h1 : Appended (({ a with lfsr := lfsrAfter 250 handshakeSeed, hsState := .patternSent } : State))
        { b with lfsr := lfsrAfter 250 handshakeSeed, hsState := .patternSent } [calibrationByte] :=
      hab.withControl _ _
    have h2 : Appended (({ b with lfsr := lfsrAfter 250 handshakeSeed, hsState := .patternSent } : State)) c'
        ((lfsrBits 250 handshakeSeed).map patternByte) := by
      rw [← hlfsr]
      refine ⟨?_, hc', hbc.wire, hbc.events⟩
      apply State.ext <;> simp [fc, c']
    exact ((h1.trans h2).trans hcd).trans hde.appended
  obtain ⟨ps, hps, hpr, _⟩ := one.events
  obtain ⟨qs, hqs, hflat, hsize⟩ := one.payloads hde.cursor
  have hpq : qs = ps := by
    have := List.append_cancel_left (hqs.symm.trans hps)
    exact List.map_injective_iff.2 (fun _ _ h => by injection h) this
  subst hpq
  refine .inl ⟨{ progress .responseStart 0#32 0#32 e with hsState := .responseVerifying }, qs, ?_, ?_, ?_, ?_, hsize, ?_⟩
  · rw [hrunb, hc, Flow.bind_done, hd, Flow.bind_done, he, Flow.bind_done]
  · have f1 := State.ext_iff.1 one.frame
    simp only [true_and, and_true, a, r, p, progress, State.emit, State.called] at f1 hpr hps
    apply State.ext <;> simp [f1, hps, hpr, hde.cursor, progress, State.emit, List.drop_drop, ← List.drop_one]
  · exact hde.appended.ok.of_same rfl rfl rfl
  · rw [hflat, List.append_nil, handshakeStream]
    rfl
  · intro x hx
    show readByte e.txbuf x = _
    have p0 : Placed s a 0 := Placed.of_same rfl rfl rfl
    have p1 : Placed b b' 0 := Placed.of_same rfl rfl rfl
    have p2 : Placed c c' 0 := Placed.of_same rfl rfl rfl
    rw [hde.txbuf]
    refine (((((p0.trans pab).trans p1).trans pbc).trans p2).trans pcd).stored x fun i hi => hx i ?_
    rw [List.length_replicate] at hi
    omega

/-- Steps 1 to 6, where every call returns. -/
theorem sendConnect_spec {s : State} (h : TxOk s) (hr : s.returns = []) :
    ∃ t ps, sendConnect s = .done () t ∧ Connected s t ps := by
  rcases sendConnect_cases h with hx | ⟨_, _, _, _, _, _, hx⟩
  · exact hx
  · exact absurd hr hx

/-! ## Steps 7 and 8 -/

/-- Receiving does not look at the LFSR. -/
theorem Refilled.withLfsr {t : Word} {s u : State} (h : Refilled t s u) (x : Byte) :
    Refilled t { s with lfsr := x } { u with lfsr := x } := by
  refine ⟨?_, ⟨h.ok.cap, h.ok.cur, h.ok.len, h.ok.mem, h.ok.below⟩, h.events⟩
  have := h.frame
  rw [this]

/-- Response bits that agree with the sequence are consumed one LFSR step each. -/
theorem verifyResponse_match (n k : Nat) {pre tail : List (List Byte)} {s : State} (h : RxOk s)
    (hs : s.answers = pre ++ tail) (hpre : Refills s.cfg pre) {more : List Bool}
    (hb : incomingBits s pre = lfsrBits n s.lfsr ++ more) :
    ∃ u pre', verifyResponse (n + k) s = verifyResponse k u ∧
      Refilled 100#32 { s with lfsr := lfsrAfter n s.lfsr } u ∧ u.answers = pre' ++ tail ∧
      Refills s.cfg pre' ∧ incomingBits u pre' = more := by
  induction n generalizing s pre with
  | zero => exact ⟨s, pre, by rw [Nat.zero_add], Refilled.of_rxcur h h.cur, hs, hpre, by simpa [lfsrBits] using hb⟩
  | succ n ih =>
    have hb' : incomingBits s pre = lfsrBit s.lfsr :: (lfsrBits n (lfsrNext s.lfsr) ++ more) := by
      simpa [lfsrBits] using hb
    obtain ⟨u, pre₁, h₁, h₂, h₃, h₄, h₅⟩ := receiveBitOver_bit (t := 100#32) h hs hpre hb'
    have hul : u.lfsr = s.lfsr := by rw [h₂.frame]
    have hok : RxOk (lfsrStep u) := ⟨h₂.ok.cap, h₂.ok.cur, h₂.ok.len, h₂.ok.mem, h₂.ok.below⟩
    have hcfg : (lfsrStep u).cfg = s.cfg := h₂.cfg_eq
    obtain ⟨v, pre₂, g₁, g₂, g₃, g₄, g₅⟩ := ih (s := lfsrStep u) hok h₃ (by rw [hcfg]; exact h₄)
      (by rw [show (lfsrStep u).lfsr = lfsrNext s.lfsr by rw [← hul]; rfl]; exact h₅)
    refine ⟨v, pre₂, ?_, ?_, g₃, by rw [← hcfg]; exact g₄, g₅⟩
    · rw [show n + 1 + k = (n + k) + 1 by omega, verifyResponse, receiveBit, hs, h₁]
      simp only [Flow.waitingAs_done, Flow.onFail_done, Flow.bind_done, hul, if_true]
      exact g₁
    · have := (h₂.withLfsr (lfsrAfter n (lfsrNext s.lfsr))).trans (v := v) (by
        have e : (lfsrStep u).lfsr = lfsrNext s.lfsr := by rw [← hul]; rfl
        rw [e] at g₂
        exact g₂)
      exact this

/-- A response bit that differs ends HANDSHAKE with ERROR, one LFSR step on. -/
theorem verifyResponse_mismatch (k : Nat) {pre tail : List (List Byte)} {s : State} (h : RxOk s)
    (hs : s.answers = pre ++ tail) (hpre : Refills s.cfg pre) {b : Bool} {more : List Bool}
    (hne : lfsrBit s.lfsr = !b) (hb : incomingBits s pre = b :: more) :
    ∃ u pre', verifyResponse (k + 1) s = .fail .error { u with hsState := .error } ∧
      Refilled 100#32 { s with lfsr := lfsrNext s.lfsr } u ∧ u.answers = pre' ++ tail ∧
      incomingBits u pre' = more := by
  obtain ⟨u, pre₁, h₁, h₂, h₃, h₄, h₅⟩ := receiveBitOver_bit (t := 100#32) h hs hpre hb
  have hul : u.lfsr = s.lfsr := by rw [h₂.frame]
  refine ⟨lfsrStep u, pre₁, ?_, ?_, h₃, h₅⟩
  · have hne' : ¬ b = lfsrBit s.lfsr := by rw [hne]; cases b <;> simp
    rw [verifyResponse, receiveBit, hs, h₁]
    simp only [Flow.waitingAs_done, Flow.onFail_done, Flow.bind_done, hul, hne', if_false]
  · have := h₂.withLfsr (lfsrNext s.lfsr)
    rw [lfsrStep, hul]
    exact this

/-- An empty answer before the next response bit ends HANDSHAKE with TIMEOUT, the LFSR as it was. -/
theorem verifyResponse_timeout (k : Nat) {pre rest : List (List Byte)} {s : State} (h : RxOk s)
    (hs : s.answers = pre ++ [] :: rest) (hpre : Refills s.cfg pre) (hb : incomingBits s pre = []) :
    ∃ u, verifyResponse (k + 1) s = .fail .timeout { u with hsState := .timeout } ∧ Refilled 100#32 s u ∧
      u.answers = rest ∧ u.rxcur = 0 ∧ u.rxlen = 0 := by
  obtain ⟨u, h₁, h₂, h₃⟩ := (receiveBitOver_silence (t := 100#32) h hs hpre hb).2 rest rfl
  refine ⟨u, ?_, h₂, h₃⟩
  rw [verifyResponse, receiveBit, hs, h₁]
  rfl

/-- With no bit and no answer left HANDSHAKE waits in step 7. -/
theorem verifyResponse_wait (k : Nat) {s : State} (h : RxOk s) (hpre : Refills s.cfg s.answers)
    (hb : incomingBits s s.answers = []) :
    ∃ u, verifyResponse (k + 1) s = .wait { u with running := some (.response (k + 1)) } ∧
      Refilled 100#32 s u ∧ u.answers = [] ∧ u.rxcur = u.rxlen := by
  obtain ⟨u, h₁, h₂, h₃⟩ :=
    (receiveBitOver_silence (t := 100#32) (tail := []) h (by simp) hpre hb).1 rfl
  refine ⟨u, ?_, h₂, h₃⟩
  rw [List.append_nil] at h₁
  rw [verifyResponse, receiveBit, h₁]
  rfl

/-- Version bits are accumulated in the order in which they come. -/
theorem receiveVersion_bits (vbits : List Bool) (k : Nat) {pre tail : List (List Byte)} {s : State} {acc : Byte}
    (h : RxOk s) (hs : s.answers = pre ++ tail) (hpre : Refills s.cfg pre) {more : List Bool}
    (hb : incomingBits s pre = vbits ++ more) :
    ∃ u pre', receiveVersion (vbits.length + k) acc s = receiveVersion k (vbits.foldl accumulateVersion acc) u ∧
      Refilled 50#32 s u ∧ u.answers = pre' ++ tail ∧ Refills s.cfg pre' ∧ incomingBits u pre' = more := by
  induction vbits generalizing s pre acc with
  | nil => exact ⟨s, pre, by simp, Refilled.of_rxcur h h.cur, hs, hpre, by simpa using hb⟩
  | cons b vbits ih =>
    obtain ⟨u, pre₁, h₁, h₂, h₃, h₄, h₅⟩ := receiveBitOver_bit (t := 50#32) h hs hpre hb
    obtain ⟨v, pre₂, g₁, g₂, g₃, g₄, g₅⟩ := ih (acc := accumulateVersion acc b) h₂.ok h₃
      (by rw [h₂.cfg_eq]; exact h₄) h₅
    refine ⟨v, pre₂, ?_, h₂.trans g₂, g₃, by rw [← h₂.cfg_eq]; exact g₄, g₅⟩
    rw [List.length_cons, show vbits.length + 1 + k = (vbits.length + k) + 1 by omega, receiveVersion, receiveBit,
      hs, h₁]
    exact g₁

/-- An empty answer before the next version bit ends HANDSHAKE with TIMEOUT. -/
theorem receiveVersion_timeout (k : Nat) {pre rest : List (List Byte)} {s : State} {acc : Byte} (h : RxOk s)
    (hs : s.answers = pre ++ [] :: rest) (hpre : Refills s.cfg pre) (hb : incomingBits s pre = []) :
    ∃ u, receiveVersion (k + 1) acc s = .fail .timeout { u with hsState := .timeout } ∧ Refilled 50#32 s u ∧
      u.answers = rest ∧ u.rxcur = 0 ∧ u.rxlen = 0 := by
  obtain ⟨u, h₁, h₂, h₃⟩ := (receiveBitOver_silence (t := 50#32) h hs hpre hb).2 rest rfl
  refine ⟨u, ?_, h₂, h₃⟩
  rw [receiveVersion, receiveBit, hs, h₁]
  rfl

/-- With no bit and no answer left HANDSHAKE waits in step 8. -/
theorem receiveVersion_wait (k : Nat) (acc : Byte) {s : State} (h : RxOk s) (hpre : Refills s.cfg s.answers)
    (hb : incomingBits s s.answers = []) :
    ∃ u, receiveVersion (k + 1) acc s = .wait { u with running := some (.version (k + 1) acc) } ∧
      Refilled 50#32 s u ∧ u.answers = [] ∧ u.rxcur = u.rxlen := by
  obtain ⟨u, h₁, h₂, h₃⟩ :=
    (receiveBitOver_silence (t := 50#32) (tail := []) h (by simp) hpre hb).1 rfl
  refine ⟨u, ?_, h₂, h₃⟩
  rw [List.append_nil] at h₁
  rw [receiveVersion, receiveBit, h₁]
  rfl

/-- Everything step 7 can do. The LFSR counts the bits compared. -/
theorem verifyResponse_cases (n : Nat) {s : State} (h : RxOk s) :
    (∃ u, verifyResponse n s = .done () u ∧ Refilled 100#32 { s with lfsr := lfsrAfter n s.lfsr } u) ∨
    (∃ u st x y, verifyResponse n s = .fail st { u with hsState := y } ∧ Refilled 100#32 { s with lfsr := x } u ∧
      (st = .error ∧ y = .error ∨ st = .timeout ∧ y = .timeout)) ∨
    (∃ u m, verifyResponse n s = .wait { u with running := some (.response m) } ∧
      Refilled 100#32 { s with lfsr := lfsrAfter (n - m) s.lfsr } u ∧ u.answers = [] ∧ u.rxcur = u.rxlen ∧
      1 ≤ m ∧ m ≤ n) ∨
    (∃ k l, verifyResponse n s = .refused (.answerTooLong k l)) := by
  induction n generalizing s with
  | zero => exact .inl ⟨s, rfl, Refilled.of_rxcur h h.cur⟩
  | succ n ih =>
    rcases receiveBit_cases 100#32 h with ⟨b, u, h₁, h₂⟩ | ⟨u, h₁, h₂, _⟩ | ⟨u, h₁, h₂, h₃, h₄⟩ | ⟨k, l, h₁⟩
    · have hul : u.lfsr = s.lfsr := by rw [h₂.frame]
      have hstep : Refilled 100#32 { s with lfsr := lfsrNext s.lfsr } (lfsrStep u) := by
        have := h₂.withLfsr (lfsrNext s.lfsr)
        rw [lfsrStep, hul]
        exact this
      have hn : verifyResponse (n + 1) s =
          if b = lfsrBit u.lfsr then verifyResponse n (lfsrStep u)
          else .fail .error { lfsrStep u with hsState := .error } := by
        rw [verifyResponse, h₁]
        rfl
      by_cases hb : b = lfsrBit u.lfsr
      · rw [hn, if_pos hb]
        have hsl : (lfsrStep u).lfsr = lfsrNext s.lfsr := by rw [← hul]; rfl
        rcases ih hstep.ok with ⟨v, g₁, g₂⟩ | ⟨v, st, x, y, g₁, g₂, g₃⟩ | ⟨v, m, g₁, g₂, g₃, g₄, g₅, g₆⟩ | g₁
        · rw [hsl] at g₂
          exact .inl ⟨v, g₁, (hstep.withLfsr (lfsrAfter n (lfsrNext s.lfsr))).trans g₂⟩
        · exact .inr (.inl ⟨v, st, x, y, g₁, (hstep.withLfsr x).trans g₂, g₃⟩)
        · rw [hsl] at g₂
          refine .inr (.inr (.inl ⟨v, m, g₁, ?_, g₃, g₄, g₅, by omega⟩))
          rw [show n + 1 - m = (n - m) + 1 by omega]
          exact (hstep.withLfsr (lfsrAfter (n - m) (lfsrNext s.lfsr))).trans g₂
        · exact .inr (.inr (.inr g₁))
      · rw [hn, if_neg hb]
        exact .inr (.inl ⟨lfsrStep u, .error, _, .error, rfl, hstep, .inl ⟨rfl, rfl⟩⟩)
    · refine .inr (.inl ⟨u, .timeout, s.lfsr, .timeout, ?_, h₂, .inr ⟨rfl, rfl⟩⟩)
      rw [verifyResponse, h₁]
      rfl
    · refine .inr (.inr (.inl ⟨u, n + 1, ?_, ?_, h₃, h₄, by omega, Nat.le_refl _⟩))
      · rw [verifyResponse, h₁]
        rfl
      · rw [Nat.sub_self]
        exact h₂
    · refine .inr (.inr (.inr ⟨k, l, ?_⟩))
      rw [verifyResponse, h₁]
      rfl

/-- Everything step 8 can do. -/
theorem receiveVersion_cases (n : Nat) (acc : Byte) {s : State} (h : RxOk s) :
    (∃ u v, receiveVersion n acc s = .done v u ∧ Refilled 50#32 s u) ∨
    (∃ u, receiveVersion n acc s = .fail .timeout { u with hsState := .timeout } ∧ Refilled 50#32 s u) ∨
    (∃ u m v, receiveVersion n acc s = .wait { u with running := some (.version m v) } ∧ Refilled 50#32 s u ∧
      u.answers = [] ∧ u.rxcur = u.rxlen ∧ 1 ≤ m ∧ m ≤ n) ∨
    (∃ k l, receiveVersion n acc s = .refused (.answerTooLong k l)) := by
  induction n generalizing s acc with
  | zero => exact .inl ⟨s, acc, rfl, Refilled.of_rxcur h h.cur⟩
  | succ n ih =>
    rcases receiveBit_cases 50#32 h with ⟨b, u, h₁, h₂⟩ | ⟨u, h₁, h₂, _⟩ | ⟨u, h₁, h₂, h₃, h₄⟩ | ⟨k, l, h₁⟩
    · have hn : receiveVersion (n + 1) acc s = receiveVersion n (accumulateVersion acc b) u := by
        rw [receiveVersion, h₁]
        rfl
      rw [hn]
      rcases ih (accumulateVersion acc b) h₂.ok with
        ⟨v, x, g₁, g₂⟩ | ⟨v, g₁, g₂⟩ | ⟨v, m, x, g₁, g₂, g₃, g₄, g₅, g₆⟩ | g₁
      · exact .inl ⟨v, x, g₁, h₂.trans g₂⟩
      · exact .inr (.inl ⟨v, g₁, h₂.trans g₂⟩)
      · exact .inr (.inr (.inl ⟨v, m, x, g₁, h₂.trans g₂, g₃, g₄, g₅, by omega⟩))
      · exact .inr (.inr (.inr g₁))
    · refine .inr (.inl ⟨u, ?_, h₂⟩)
      rw [receiveVersion, h₁]
      rfl
    · refine .inr (.inr (.inl ⟨u, n + 1, acc, ?_, h₂, h₃, h₄, by omega, Nat.le_refl _⟩))
      rw [receiveVersion, h₁]
      rfl
    · refine .inr (.inr (.inr ⟨k, l, ?_⟩))
      rw [receiveVersion, h₁]
      rfl

/-! ## The bits of the sequence -/

@[simp] theorem lfsrBits_length (n : Nat) (r : Byte) : (lfsrBits n r).length = n := by
  induction n generalizing r with
  | zero => rfl
  | succ n ih => simp [lfsrBits, ih]

theorem lfsrAfter_add (m n : Nat) (r : Byte) : lfsrAfter (m + n) r = lfsrAfter n (lfsrAfter m r) := by
  induction m generalizing r with
  | zero => rw [Nat.zero_add]; rfl
  | succ m ih => rw [show m + 1 + n = (m + n) + 1 by omega]; exact ih (lfsrNext r)

theorem lfsrBits_add (m n : Nat) (r : Byte) : lfsrBits (m + n) r = lfsrBits m r ++ lfsrBits n (lfsrAfter m r) := by
  induction m generalizing r with
  | zero => rw [Nat.zero_add]; rfl
  | succ m ih =>
    rw [show m + 1 + n = (m + n) + 1 by omega]
    simp only [lfsrBits, lfsrAfter, ih, List.cons_append]

theorem lfsrBits_take {i n : Nat} (h : i ≤ n) (r : Byte) : (lfsrBits n r).take i = lfsrBits i r := by
  obtain ⟨k, rfl⟩ := Nat.exists_eq_add_of_le h
  rw [lfsrBits_add]
  simp

theorem lfsrBits_getElem? {i n : Nat} (h : i < n) (r : Byte) :
    (lfsrBits n r)[i]? = some (lfsrBit (lfsrAfter i r)) := by
  obtain ⟨k, rfl⟩ := Nat.exists_eq_add_of_le h
  rw [show i.succ + k = i + (k + 1) by omega, lfsrBits_add,
    List.getElem?_append_right (by simp)]
  simp [lfsrBits]

end Sys2Proof.Machine
end

