-- ==== Sys2Proof/Laws/Hang.lean ====
section
/-! SUPPORT. What a call that never returns does to each operation: up to that call the operation runs as it does where
every call returns (spec/70_reset_and_hazards.md R312). -/

namespace Sys2Proof.Machine

open Sys2Proof

variable {α β : Type}

/-- The state with other outcomes of the transport's next calls. -/
abbrev State.withReturns (s : State) (rs : List Bool) : State := { s with returns := rs }

/-- A flow hangs in the call of number `k` after `s`, behind the events that begin `es`. -/
def HangsAt (s : State) (rs : List Bool) (es : List Event) (k : Nat) (y : Flow α) : Prop :=
  ∃ (u : State) (es' : List Event) (e : Event), y = .hung u ∧ u.busy = s.busy ∧ u.returns = rs.drop (k + 1) ∧
    u.trace = s.trace ++ es' ++ [e] ∧ (es' ++ [e]) <+: es ∧ transportCalls es' = k ∧ transportCalls [e] = 1

/-- How a flow `y`, run from `s` with the outcomes `rs` of the next calls, relates to the state `t` that the same flow
leaves where every call returns: with enough calls that return it ends in `t` as well (`ends`), and else it hangs in the
first call that never returns, behind the same events. -/
structure Follows (s : State) (rs : List Bool) (t : State) (ends : State → Flow α → Prop) (y : Flow α) : Prop where
  returns : t.returns = []
  busy : t.busy = s.busy
  runs : ∃ es : List Event, t.trace = s.trace ++ es ∧
    (false ∉ rs.take (transportCalls es) → ends (t.withReturns (rs.drop (transportCalls es))) y) ∧
    ∀ k < transportCalls es, false ∉ rs.take k → rs[k]? = some false → HangsAt s rs es k y

/-- `y` is the flow `x` with the outcomes `rs` of the next calls, where `x` is run with every call returning. -/
def Tracks (s : State) (rs : List Bool) (x y : Flow α) : Prop :=
  match x with
  | .done a t => Follows s rs t (fun t' y => y = .done a t') y
  | .fail st t => Follows s rs t (fun t' y => y = .fail st t') y
  | .wait t => Follows s rs t (fun t' y => y = .wait t') y
  | .hung _ => False
  | .fault _ => True
  | .refused _ => True

/-- A stretch that makes no call ends as it does. -/
theorem Follows.of_events {s t : State} {rs : List Bool} {ends : State → Flow α → Prop} {y : Flow α}
    (es : List Event) (hr : t.returns = []) (hb : t.busy = s.busy) (he : t.trace = s.trace ++ es)
    (hn : transportCalls es = 0) (h : ends (t.withReturns rs) y) : Follows s rs t ends y :=
  ⟨hr, hb, es, he, fun _ => by simpa [hn] using h, fun k hk => absurd hk (by omega)⟩

/-- One stretch after the other. -/
theorem Follows.trans {s t v : State} {rs : List Bool} {a : α} {y : Flow α} {g : α → State → Flow β}
    {ends : State → Flow β → Prop} (h₁ : Follows s rs t (fun t' y => y = .done a t') y)
    (h₂ : ∀ rs', Follows t rs' v ends (g a (t.withReturns rs'))) : Follows s rs v ends (y.bind g) := by
  obtain ⟨es, he, hdone, hhang⟩ := h₁.runs
  let n := transportCalls es
  obtain ⟨fs, hf, hdone₂, hhang₂⟩ := (h₂ (rs.drop n)).runs
  refine ⟨(h₂ []).returns, (h₂ []).busy.trans h₁.busy, es ++ fs, by rw [hf, he, List.append_assoc], ?_, ?_⟩
  · intro hno
    rw [transportCalls_append, List.take_add, List.mem_append, not_or] at hno
    rw [transportCalls_append, ← List.drop_drop, hdone hno.1]
    exact hdone₂ hno.2
  · intro k hk hno hfalse
    by_cases hkn : k < n
    · obtain ⟨u, es', e, h1, h2, h3, h4, h5, h6, h7⟩ := hhang k hkn hno hfalse
      exact ⟨u, es', e, by rw [h1]; rfl, h2, h3, h4, h5.trans (List.prefix_append _ _), h6, h7⟩
    · obtain ⟨m, rfl⟩ : ∃ m, k = n + m := ⟨k - n, by omega⟩
      rw [transportCalls_append] at hk
      rw [List.take_add, List.mem_append, not_or] at hno
      rw [hdone hno.1]
      obtain ⟨u, es', e, h1, h2, h3, h4, h5, h6, h7⟩ :=
        hhang₂ m (by omega) hno.2 (by rw [List.getElem?_drop]; exact hfalse)
      refine ⟨u, es ++ es', e, h1, h2.trans h₁.busy, ?_, ?_, ?_, ?_, h7⟩
      · rw [h3, List.drop_drop, Nat.add_assoc]
      · rw [h4, he]; simp
      · rw [List.append_assoc]
        exact (List.prefix_append_right_inj es).2 h5
      · rw [transportCalls_append, h6]

/-- A flow that hangs stays so in a sequence, and one that ends otherwise too. -/
theorem Follows.bind_end {s t : State} {rs : List Bool} {y : Flow α} {g : α → State → Flow β}
    {ends : State → Flow α → Prop} {ends' : State → Flow β → Prop} (h : Follows s rs t ends y)
    (he : ∀ t', ends t' y → ends' t' (y.bind g)) : Follows s rs t ends' (y.bind g) := by
  obtain ⟨es, h1, h2, h3⟩ := h.runs
  refine ⟨h.returns, h.busy, es, h1, fun hno => he _ (h2 hno), fun k hk hno hf => ?_⟩
  obtain ⟨u, es', e, g1, g2⟩ := h3 k hk hno hf
  exact ⟨u, es', e, by rw [g1]; rfl, g2⟩

/-- A sequence is tracked where its parts are. -/
theorem Tracks.bind {s : State} {rs : List Bool} {x y : Flow α} {f : α → State → Flow β} (hx : Tracks s rs x y)
    (hf : ∀ a t, t.returns = [] → ∀ rs', Tracks t rs' (f a t) (f a (t.withReturns rs'))) :
    Tracks s rs (x.bind f) (y.bind f) := by
  cases x with
  | done a t =>
    have hft := hf a t (show Follows s rs t _ y from hx).returns
    show Tracks s rs (f a t) _
    cases hr : f a t with
    | done b v => exact Follows.trans hx fun rs' => by have := hft rs'; rwa [hr] at this
    | fail st v => exact Follows.trans hx fun rs' => by have := hft rs'; rwa [hr] at this
    | wait v => exact Follows.trans hx fun rs' => by have := hft rs'; rwa [hr] at this
    | hung v => have := hft []; rw [hr] at this; exact this
    | fault e => trivial
    | refused r => trivial
  | fail st t => exact Follows.bind_end hx fun t' h => by rw [h]; rfl
  | wait t => exact Follows.bind_end hx fun t' h => by rw [h]; rfl
  | hung t => exact hx
  | fault e => trivial
  | refused r => trivial

/-- Where a command stands while it waits is tracked. -/
theorem Tracks.waitingAs {s : State} {rs : List Bool} {x y : Flow α} (hx : Tracks s rs x y) (p : Pending) :
    Tracks s rs (x.waitingAs p) (y.waitingAs p) := by
  have key : ∀ {t v : State} {ends ends' : State → Flow α → Prop}, Follows s rs t ends y → v.returns = t.returns →
      v.busy = t.busy → v.trace = t.trace →
      (∀ ys, ends (t.withReturns ys) y → ends' (v.withReturns ys) (y.waitingAs p)) →
      Follows s rs v ends' (y.waitingAs p) := by
    intro t v ends ends' h hr hb ht he
    obtain ⟨es, h1, h2, h3⟩ := h.runs
    refine ⟨hr.trans h.returns, hb.trans h.busy, es, ht.trans h1, fun hno => he _ (h2 hno), fun k hk hno hf => ?_⟩
    obtain ⟨u, es', e, g1, g2⟩ := h3 k hk hno hf
    exact ⟨u, es', e, by rw [g1]; rfl, g2⟩
  cases x with
  | done a t => exact key hx rfl rfl rfl fun ys h => by rw [h]; rfl
  | fail st t => exact key hx rfl rfl rfl fun ys h => by rw [h]; rfl
  | wait t => exact key (v := { t with running := some p }) hx rfl rfl rfl fun ys h => by rw [h]; rfl
  | hung t => exact hx
  | fault e => trivial
  | refused r => trivial

/-- What is still written at a failure is tracked. -/
theorem Tracks.handshakeTimeout {s : State} {rs : List Bool} {x y : Flow α} (hx : Tracks s rs x y) :
    Tracks s rs (x.onFail handshakeTimeout) (y.onFail handshakeTimeout) := by
  have key : ∀ {t v : State} {ends ends' : State → Flow α → Prop}, Follows s rs t ends y → v.returns = t.returns →
      v.busy = t.busy → v.trace = t.trace →
      (∀ ys, ends (t.withReturns ys) y → ends' (v.withReturns ys) (y.onFail Machine.handshakeTimeout)) →
      Follows s rs v ends' (y.onFail Machine.handshakeTimeout) := by
    intro t v ends ends' h hr hb ht he
    obtain ⟨es, h1, h2, h3⟩ := h.runs
    refine ⟨hr.trans h.returns, hb.trans h.busy, es, ht.trans h1, fun hno => he _ (h2 hno), fun k hk hno hf => ?_⟩
    obtain ⟨u, es', e, g1, g2⟩ := h3 k hk hno hf
    exact ⟨u, es', e, by rw [g1]; rfl, g2⟩
  cases x with
  | done a t => exact key hx rfl rfl rfl fun ys h => by rw [h]; rfl
  | fail st t => exact key (v := Machine.handshakeTimeout t) hx rfl rfl rfl fun ys h => by rw [h]; rfl
  | wait t => exact key hx rfl rfl rfl fun ys h => by rw [h]; rfl
  | hung t => exact hx
  | fault e => trivial
  | refused r => trivial

/-- A state update that makes no call and no event is tracked. -/
theorem Tracks.update {s t : State} {rs : List Bool} (a : α) (hr : t.returns = []) (hb : t.busy = s.busy)
    (ht : t.trace = s.trace) : Tracks s rs (.done a t) (.done a (t.withReturns rs)) :=
  Follows.of_events [] hr hb (by simp [ht]) rfl rfl

/-- What follows an update that makes some events but no call is tracked. -/
theorem Tracks.after {s t : State} {rs : List Bool} (es : List Event) (F : State → Flow α) (hr : t.returns = [])
    (hb : t.busy = s.busy) (ht : t.trace = s.trace ++ es) (hn : transportCalls es = 0)
    (h : t.returns = [] → ∀ rs', Tracks t rs' (F t) (F (t.withReturns rs'))) : Tracks s rs (F t) (F (t.withReturns rs)) := by
  have h0 : Tracks s rs (.done () t : Flow Unit) (.done () (t.withReturns rs)) :=
    Follows.of_events es hr hb ht hn rfl
  cases hF : F t with
  | done b v => exact Follows.trans (g := fun _ => F) h0 fun rs' => by have := h hr rs'; rwa [hF] at this
  | fail st v => exact Follows.trans (g := fun _ => F) h0 fun rs' => by have := h hr rs'; rwa [hF] at this
  | wait v => exact Follows.trans (g := fun _ => F) h0 fun rs' => by have := h hr rs'; rwa [hF] at this
  | hung v => have := h hr []; rw [hF] at this; exact this
  | fault e => trivial
  | refused r => trivial

theorem Tracks.done {s : State} (rs : List Bool) (a : α) (hr : s.returns = []) :
    Tracks s rs (.done a s) (.done a (s.withReturns rs)) := Tracks.update a hr rfl rfl

theorem Tracks.fail {s : State} (rs : List Bool) (st : Status) (hr : s.returns = []) :
    Tracks s rs (.fail st s : Flow α) (.fail st (s.withReturns rs)) :=
  Follows.of_events [] hr rfl (by simp) rfl rfl

theorem Tracks.wait {s t : State} (rs : List Bool) (hr : t.returns = []) (hb : t.busy = s.busy)
    (ht : t.trace = s.trace) : Tracks s rs (.wait t : Flow α) (.wait (t.withReturns rs)) :=
  Follows.of_events [] hr hb (by simp [ht]) rfl rfl

variable {s : State}

/-! ## The transmit side -/

theorem callTransport_tracks {e : Event} (he : transportCalls [e] = 1) (hr : s.returns = []) (rs : List Bool) :
    Tracks s rs (callTransport e s) (callTransport e (s.withReturns rs)) := by
  rw [callTransport_returns hr]
  refine ⟨by simp [hr], rfl, [e], by simp, ?_, ?_⟩
  · rw [he]
    intro hno
    cases rs with
    | nil => simp [callTransport]; rfl
    | cons r rs =>
      have : r = true := by simpa using hno
      subst this
      rfl
  · rw [he]
    intro k hk _ hf
    have hk0 : k = 0 := by omega
    subst hk0
    cases rs with
    | nil => simp at hf
    | cons r rs =>
      have : r = false := by simpa using hf
      subst this
      exact ⟨_, [], e, rfl, rfl, rfl, by simp, List.prefix_refl _, rfl, he⟩

theorem flush_tracks (hr : s.returns = []) (rs : List Bool) : Tracks s rs (flush s) (flush (s.withReturns rs)) := by
  unfold flush
  simp only
  split
  · exact Tracks.done rs () hr
  · split
    · exact (callTransport_tracks rfl hr rs).bind fun _ t ht rs' => Tracks.update () ht rfl rfl
    · trivial

theorem writeTx_tracks (a : Nat) (b : Byte) (hr : s.returns = []) (rs : List Bool) :
    Tracks s rs (writeTx a b s) (writeTx a b (s.withReturns rs)) := by
  unfold writeTx
  simp only
  split
  · exact Tracks.update () hr rfl rfl
  · trivial

theorem appendByte_tracks (b : Byte) (hr : s.returns = []) (rs : List Bool) :
    Tracks s rs (appendByte b s) (appendByte b (s.withReturns rs)) := by
  refine Tracks.bind (x := if s.txcur = s.cfg.txCap then flush s else .done () s) ?_ fun _ t ht rs' => ?_
  · simp only
    split
    · exact flush_tracks hr rs
    · exact Tracks.done rs () hr
  · exact (writeTx_tracks _ b ht rs').bind fun _ u hu rs'' => Tracks.update () hu rfl rfl

theorem appendBytes_tracks (bs : List Byte) (hr : s.returns = []) (rs : List Bool) :
    Tracks s rs (appendBytes bs s) (appendBytes bs (s.withReturns rs)) := by
  induction bs generalizing s rs with
  | nil => exact Tracks.done rs () hr
  | cons b bs ih => exact (appendByte_tracks b hr rs).bind fun _ t ht rs' => ih ht rs'

theorem appendWord_tracks (v : Word) (hr : s.returns = []) (rs : List Bool) :
    Tracks s rs (appendWord v s) (appendWord v (s.withReturns rs)) := appendBytes_tracks _ hr rs

theorem sendProbe_tracks (hr : s.returns = []) (rs : List Bool) :
    Tracks s rs (sendProbe s) (sendProbe (s.withReturns rs)) :=
  (appendByte_tracks _ hr rs).bind fun _ _ ht rs' => flush_tracks ht rs'

/-! ## The receive side -/

theorem tReceive_tracks (n : Nat) (w : Word) (a : List Byte) (rest : List (List Byte)) (hr : s.returns = [])
    (rs : List Bool) : Tracks s rs (tReceive n w a rest s) (tReceive n w a rest (s.withReturns rs)) := by
  unfold tReceive
  split
  · exact Follows.of_events [.treceive n w a] hr rfl rfl rfl rfl
  · trivial

theorem scanWindow_tracks (n : Nat) (hr : s.returns = []) (rs : List Bool) :
    Tracks s rs (scanWindow n s) (scanWindow n (s.withReturns rs)) := by
  induction n generalizing s rs with
  | zero => exact Tracks.done rs none hr
  | succ n ih =>
    have hread : Tracks s rs (readRx s.rxcur s) (readRx s.rxcur (s.withReturns rs)) := by
      unfold readRx
      simp only
      split
      · exact Tracks.done rs _ hr
      · trivial
    refine hread.bind fun x t ht rs' => ?_
    simp only
    cases classify x with
    | some b => exact Tracks.update (some b) ht rfl rfl
    | none =>
      exact Tracks.after [] (scanWindow n) (t := { t with rxcur := t.rxcur + 1 }) ht rfl (by simp) rfl fun ht' rs'' =>
        ih ht' rs''

theorem receiveBitOver_tracks (w : Word) (answers : List (List Byte)) (hr : s.returns = []) (rs : List Bool) :
    Tracks s rs (receiveBitOver w answers s) (receiveBitOver w answers (s.withReturns rs)) := by
  induction answers generalizing s rs with
  | nil =>
    refine (scanWindow_tracks _ hr rs).bind fun found t ht rs' => ?_
    cases found with
    | some b => exact Tracks.done rs' b ht
    | none => exact Tracks.wait rs' ht rfl rfl
  | cons a rest ih =>
    refine (scanWindow_tracks _ hr rs).bind fun found t ht rs' => ?_
    cases found with
    | some b => exact Tracks.done rs' b ht
    | none =>
      refine (tReceive_tracks _ w a rest ht rs').bind fun _ u hu rs'' => ?_
      refine Tracks.after [] (fun v => if a = [] then .fail .timeout v else receiveBitOver w rest v)
        (t := fillWindow a u) hu rfl (by simp) rfl fun hf ys => ?_
      split
      · exact Tracks.fail ys .timeout hf
      · exact ih hf ys

theorem receiveBit_tracks (w : Word) (hr : s.returns = []) (rs : List Bool) :
    Tracks s rs (receiveBit w s) (receiveBit w (s.withReturns rs)) := receiveBitOver_tracks w s.answers hr rs

theorem receiveBitRule_tracks (w : Word) (hr : s.returns = []) (rs : List Bool) :
    Tracks s rs (receiveBitRule w s) (receiveBitRule w (s.withReturns rs)) :=
  ((receiveBit_tracks w hr rs).waitingAs _).bind fun _ _ ht rs' => Tracks.done rs' _ ht

/-! ## Acknowledgements -/

theorem awaitAck_tracks (at_ : Nat → Pending) (answers : List (List Byte)) (k : Nat) (hr : s.returns = [])
    (rs : List Bool) : Tracks s rs (awaitAck at_ answers k s) (awaitAck at_ answers k (s.withReturns rs)) := by
  induction answers generalizing s rs k with
  | nil => exact Tracks.wait (t := { s with running := some (at_ k) }) rs hr rfl rfl
  | cons a rest ih =>
    refine (tReceive_tracks 1 25#32 a rest hr rs).bind fun _ t ht rs' => ?_
    cases a with
    | cons b bs =>
      simp only
      split
      · exact Tracks.done rs' () ht
      · exact Tracks.fail rs' .error ht
    | nil =>
      simp only
      split
      · exact Tracks.fail rs' .timeout ht
      · exact (sendProbe_tracks ht rs').bind fun _ u hu rs'' => ih (k - 1) hu rs''

theorem waitForAck_tracks (at_ : Nat → Pending) (n : Nat) (hr : s.returns = []) (rs : List Bool) :
    Tracks s rs (waitForAck at_ n s) (waitForAck at_ n (s.withReturns rs)) := by
  unfold waitForAck
  split
  · exact Tracks.fail rs .timeout hr
  · exact (sendProbe_tracks hr rs).bind fun _ u hu rs' => awaitAck_tracks at_ u.answers n hu rs'

/-! ## The handshake -/

theorem sendPattern_tracks (n : Nat) (hr : s.returns = []) (rs : List Bool) :
    Tracks s rs (sendPattern n s) (sendPattern n (s.withReturns rs)) := by
  induction n generalizing s rs with
  | zero => exact Tracks.done rs () hr
  | succ n ih =>
    refine Tracks.bind ?_ fun _ t ht rs' => ih ht rs'
    exact Tracks.after [] (appendByte (patternByte (lfsrBit s.lfsr))) (t := lfsrStep s) hr rfl (by simp) rfl
      fun h rs' => appendByte_tracks _ h rs'

theorem sendConnect_tracks (hr : s.returns = []) (rs : List Bool) :
    Tracks s rs (sendConnect s) (sendConnect (s.withReturns rs)) := by
  refine Tracks.bind (x := callTransport .treset (progress .handshakeStart 0#32 0#32 { s with hsState := .reset }))
    (y := callTransport .treset
      ((progress .handshakeStart 0#32 0#32 { s with hsState := .reset }).withReturns rs)) ?_ fun _ t ht rs' => ?_
  · exact Tracks.after [.progress .handshakeStart 0#32 0#32] (callTransport .treset) hr rfl rfl rfl
      fun h rs' => callTransport_tracks rfl h rs'
  refine Tracks.bind ?_ fun _ u hu rs'' => ?_
  · exact Tracks.after [] (appendByte calibrationByte) (t := { t with lfsr := handshakeSeed }) ht rfl (by simp) rfl
      fun h ys => appendByte_tracks _ h ys
  refine Tracks.bind ?_ fun _ v hv xs => ?_
  · exact Tracks.after [] (sendPattern 250) (t := { u with hsState := .calibrationSent }) hu rfl (by simp) rfl
      fun h ys => sendPattern_tracks 250 h ys
  refine Tracks.bind ?_ fun _ w hw zs => ?_
  · exact Tracks.after [] (appendBytes (List.replicate 258 calibrationByte)) (t := { v with hsState := .patternSent })
      hv rfl (by simp) rfl fun h ys => appendBytes_tracks _ h ys
  refine (flush_tracks hw zs).bind fun _ x hx ys => ?_
  exact Follows.of_events [.progress .responseStart 0#32 0#32] hx rfl rfl rfl rfl

theorem hsReceive_tracks (w : Word) (p : Pending) (hr : s.returns = []) (rs : List Bool) :
    Tracks s rs (((receiveBit w s).waitingAs p).onFail handshakeTimeout)
      (((receiveBit w (s.withReturns rs)).waitingAs p).onFail handshakeTimeout) :=
  ((receiveBit_tracks w hr rs).waitingAs p).handshakeTimeout

theorem verifyResponse_tracks (n : Nat) (hr : s.returns = []) (rs : List Bool) :
    Tracks s rs (verifyResponse n s) (verifyResponse n (s.withReturns rs)) := by
  induction n generalizing s rs with
  | zero => exact Tracks.done rs () hr
  | succ n ih =>
    refine (hsReceive_tracks _ _ hr rs).bind fun b t ht rs' => ?_
    refine Tracks.after [] (fun u => if b = lfsrBit t.lfsr then verifyResponse n u
      else .fail .error { u with hsState := .error }) (t := lfsrStep t) ht rfl (by simp) rfl fun h ys => ?_
    simp only
    split
    · exact ih h ys
    · exact Follows.of_events [] h rfl (by simp) rfl rfl

theorem receiveVersion_tracks (n : Nat) (acc : Byte) (hr : s.returns = []) (rs : List Bool) :
    Tracks s rs (receiveVersion n acc s) (receiveVersion n acc (s.withReturns rs)) := by
  induction n generalizing s rs acc with
  | zero => exact Tracks.done rs acc hr
  | succ n ih => exact (hsReceive_tracks _ _ hr rs).bind fun b t ht rs' => ih _ ht rs'

theorem handshakeFromVersion_tracks (n : Nat) (acc : Byte) (hr : s.returns = []) (rs : List Bool) :
    Tracks s rs (handshakeFromVersion n acc s) (handshakeFromVersion n acc (s.withReturns rs)) :=
  (receiveVersion_tracks n acc hr rs).bind fun _ _ ht _ =>
    Follows.of_events [.progress .handshakeDone 0#32 0#32] ht rfl rfl rfl rfl

theorem handshakeFromResponse_tracks (n : Nat) (hr : s.returns = []) (rs : List Bool) :
    Tracks s rs (handshakeFromResponse n s) (handshakeFromResponse n (s.withReturns rs)) :=
  (verifyResponse_tracks n hr rs).bind fun _ t ht _ =>
    Tracks.after [.progress .versionStart 0#32 0#32] (handshakeFromVersion 8 0x00#8)
      (t := { progress .versionStart 0#32 0#32 t with hsState := .versionAwaited }) ht rfl rfl rfl
      fun h ys => handshakeFromVersion_tracks _ _ h ys

theorem handshakeRule_tracks (hr : s.returns = []) (rs : List Bool) :
    Tracks s rs (handshakeRule s) (handshakeRule (s.withReturns rs)) :=
  (sendConnect_tracks hr rs).bind fun _ _ ht rs' => handshakeFromResponse_tracks 250 ht rs'

/-! ## The load -/

theorem imageWord_tracks (o : Nat) (hr : s.returns = []) (rs : List Bool) :
    Tracks s rs (imageWord o s) (imageWord o (s.withReturns rs)) := by
  have hread : ∀ (a : Nat) {t : State}, t.returns = [] → ∀ ys,
      Tracks t ys (readImage a t) (readImage a (t.withReturns ys)) := by
    intro a t ht ys
    unfold readImage
    simp only
    cases t.image[a]? with
    | some b => exact Tracks.done ys b ht
    | none => trivial
  unfold imageWord
  simp only
  split
  · exact (hread _ hr rs).bind fun _ t ht x => (hread _ ht x).bind fun _ u hu y =>
      (hread _ hu y).bind fun _ v hv z => (hread _ hv z).bind fun _ w hw q => Tracks.done q _ hw
  · exact Tracks.update _ hr rfl rfl

theorem streamWords_tracks (n o : Nat) (size : Word) (hr : s.returns = []) (rs : List Bool) :
    Tracks s rs (streamWords n o size s) (streamWords n o size (s.withReturns rs)) := by
  induction n generalizing s rs o with
  | zero => exact Tracks.done rs () hr
  | succ n ih =>
    have hrest : ∀ {t : State}, t.returns = [] → ∀ ys, Tracks t ys
        ((imageWord o t).bind fun v s => (appendWord v s).bind fun _ s => streamWords n (o + 4) size s)
        ((imageWord o (t.withReturns ys)).bind fun v s =>
          (appendWord v s).bind fun _ s => streamWords n (o + 4) size s) := fun ht ys =>
      (imageWord_tracks o ht ys).bind fun v u hu x => (appendWord_tracks v hu x).bind fun _ w hw y => ih _ hw y
    rw [streamWords, streamWords]
    split
    · exact Tracks.after [.progress .program (BitVec.ofNat 32 o) size]
        (fun s => (imageWord o s).bind fun v s => (appendWord v s).bind fun _ s => streamWords n (o + 4) size s)
        (t := progress .program (BitVec.ofNat 32 o) size s) hr rfl rfl rfl fun h ys => hrest h ys
    · exact hrest hr rs

theorem sendImage_tracks (kind : LoadKind) (size : Word) (hr : s.returns = []) (rs : List Bool) :
    Tracks s rs (sendImage kind size s) (sendImage kind size (s.withReturns rs)) :=
  (appendWord_tracks _ hr rs).bind fun _ _ ht x => (appendWord_tracks _ ht x).bind fun _ _ hu y =>
    (streamWords_tracks _ _ size hu y).bind fun _ _ hv z => flush_tracks hv z

theorem finishLoad_tracks (size : Word) (hr : s.returns = []) (rs : List Bool) :
    Tracks s rs (finishLoad size s) (finishLoad size (s.withReturns rs)) :=
  Follows.of_events [.progress .done 0#32 size] hr rfl rfl rfl rfl

theorem loadVerify_tracks (kind : LoadKind) (size : Word) (hr : s.returns = []) (rs : List Bool) :
    Tracks s rs (loadVerify kind size s) (loadVerify kind size (s.withReturns rs)) := by
  refine Tracks.bind ?_ fun _ t ht rs' => finishLoad_tracks size ht rs'
  exact Tracks.after [.progress .eepromVerify 0#32 size] (loadAck .eepromVerify kind size)
    (t := progress .eepromVerify 0#32 size s) hr rfl rfl rfl fun h ys => waitForAck_tracks _ _ h ys

theorem loadWrite_tracks (kind : LoadKind) (size : Word) (hr : s.returns = []) (rs : List Bool) :
    Tracks s rs (loadWrite kind size s) (loadWrite kind size (s.withReturns rs)) := by
  refine Tracks.bind ?_ fun _ t ht rs' => loadVerify_tracks kind size ht rs'
  exact Tracks.after [.progress .eepromWrite 0#32 size] (loadAck .eepromWrite kind size)
    (t := progress .eepromWrite 0#32 size s) hr rfl rfl rfl fun h ys => waitForAck_tracks _ _ h ys

theorem afterAck_tracks (phase : AckPhase) (kind : LoadKind) (size : Word) (hr : s.returns = []) (rs : List Bool) :
    Tracks s rs (afterAck phase kind size s) (afterAck phase kind size (s.withReturns rs)) := by
  cases phase with
  | program =>
    unfold afterAck
    simp only
    split
    · exact loadWrite_tracks kind size hr rs
    · exact finishLoad_tracks size hr rs
  | eepromWrite => exact loadVerify_tracks kind size hr rs
  | eepromVerify => exact finishLoad_tracks size hr rs

theorem loadRule_tracks (kind : LoadKind) (size : Word) (hr : s.returns = []) (rs : List Bool) :
    Tracks s rs (loadRule kind size s) (loadRule kind size (s.withReturns rs)) := by
  unfold loadRule
  simp only
  split
  · exact Tracks.fail rs .precond hr
  split
  · exact Tracks.fail rs .precond hr
  split
  · exact Tracks.fail rs .precond hr
  exact (sendImage_tracks kind size hr rs).bind fun _ _ ht x =>
    (waitForAck_tracks _ _ ht x).bind fun _ _ hu y => afterAck_tracks .program kind size hu y

theorem shutdownRule_tracks (hr : s.returns = []) (rs : List Bool) :
    Tracks s rs (shutdownRule s) (shutdownRule (s.withReturns rs)) :=
  (appendWord_tracks _ hr rs).bind fun _ _ ht x => (flush_tracks ht x).bind fun _ _ hu _ => Tracks.update _ hu rfl rfl

/-! ## Commands -/

/-- The rest of every command that waits in a TReceive. -/
theorem resumeRule_tracks {p : Pending} (hp : ∀ op, p ≠ .hung op) (hr : s.returns = []) (rs : List Bool) :
    Tracks s rs (resumeRule p s) (resumeRule p (s.withReturns rs)) := by
  cases p with
  | receiveBit w => exact receiveBitRule_tracks w hr rs
  | response n => exact handshakeFromResponse_tracks n hr rs
  | version n acc => exact handshakeFromVersion_tracks n acc hr rs
  | waitForAck k =>
    exact (awaitAck_tracks _ s.answers k hr rs).bind fun _ _ ht x => Tracks.done x _ ht
  | load phase kind size k =>
    exact (awaitAck_tracks _ s.answers k hr rs).bind fun _ _ ht x => afterAck_tracks phase kind size ht x
  | hung op => exact absurd rfl (hp op)

/-- What a command leaves in a step, with other outcomes of its calls. -/
theorem settle_tracks {op : Opcode} {rs : List Bool} {x y : Flow Word} {t : State} (h : Tracks s rs x y)
    (ht : settle op x = .next t) :
    ∃ es : List Event, t.trace = s.trace ++ es ∧
      (false ∉ rs.take (transportCalls es) →
        settle op y = .next (t.withReturns (rs.drop (transportCalls es)))) ∧
      ∀ k < transportCalls es, false ∉ rs.take k → rs[k]? = some false →
        ∃ (u : State) (es' : List Event) (e : Event), settle op y = .next u ∧ u.busy = s.busy ∧
          u.running = some (.hung op) ∧ u.returns = rs.drop (k + 1) ∧ u.trace = s.trace ++ es' ++ [e] ∧
          (es' ++ [e]) <+: es ∧ transportCalls es' = k ∧ transportCalls [e] = 1 := by
  have key : ∀ {v : State} {ends : State → Flow Word → Prop} {fs : List Event}, Follows s rs v ends y →
      t.trace = v.trace ++ fs → transportCalls fs = 0 →
      (∀ ys, ends (v.withReturns ys) y → settle op y = .next (t.withReturns ys)) →
      ∃ es : List Event, t.trace = s.trace ++ es ∧
        (false ∉ rs.take (transportCalls es) →
          settle op y = .next (t.withReturns (rs.drop (transportCalls es)))) ∧
        ∀ k < transportCalls es, false ∉ rs.take k → rs[k]? = some false →
          ∃ (u : State) (es' : List Event) (e : Event), settle op y = .next u ∧ u.busy = s.busy ∧
            u.running = some (.hung op) ∧ u.returns = rs.drop (k + 1) ∧ u.trace = s.trace ++ es' ++ [e] ∧
            (es' ++ [e]) <+: es ∧ transportCalls es' = k ∧ transportCalls [e] = 1 := by
    intro v ends fs hf htr hn he
    obtain ⟨es, h1, h2, h3⟩ := hf.runs
    refine ⟨es ++ fs, by rw [htr, h1, List.append_assoc], ?_, ?_⟩
    · rw [transportCalls_append, hn, Nat.add_zero]
      exact fun hno => he _ (h2 hno)
    · rw [transportCalls_append, hn, Nat.add_zero]
      intro k hk hno hfalse
      obtain ⟨u, es', e, g1, g2, g3, g4, g5, g6, g7⟩ := h3 k hk hno hfalse
      exact ⟨{ u with running := some (.hung op) }, es', e, by rw [g1]; rfl, g2, rfl, g3, g4,
        g5.trans (List.prefix_append _ _), g6, g7⟩
  rcases settle_next ht with ⟨data, v, rfl, rfl⟩ | ⟨st, v, rfl, rfl⟩ | rfl | ⟨v, rfl, rfl⟩
  · exact key (fs := [.response .ok data]) h (by simp) rfl fun ys hy => by rw [hy]; rfl
  · exact key (fs := [.response st 0#32]) h (by simp) rfl fun ys hy => by rw [hy]; cases st <;> rfl
  · exact key (v := t) (fs := []) h (by simp) rfl fun ys hy => by rw [hy]; rfl
  · exact h.elim

end Sys2Proof.Machine
end

