-- ==== Sys2Proof/Laws/Load.lean ====
section
/-! SUPPORT. What the parts of LoadSequence do (spec/46_load.md R241). -/

namespace Sys2Proof.Machine

open Sys2Proof

/-! ## A stretch of LoadSequence before its first acknowledgement -/

/-- The events such a stretch makes: flushes, and Program reports of the load. -/
def LoadEvent (cfg : Config) (size : Word) (e : Event) : Prop :=
  (∃ p, e = .ttransmit p ∧ 1 ≤ p.length ∧ p.length ≤ cfg.txCap) ∨ ∃ o, e = .progress .program o size

/-- `t` is `s` after a stretch of LoadSequence that appends the bytes `bs`, reports `reports` and draws `d` image
words. -/
structure Streamed (size : Word) (s t : State) (bs : List Byte) (reports : List Event) (d : Nat) : Prop where
  frame : t = { s with
    txbuf := t.txbuf, txcur := t.txcur, returns := t.returns, draws := s.draws + d, trace := t.trace }
  ok : TxOk t
  placed : Placed s t bs.length
  calls : s.returns = [] → t.returns = []
  events : ∃ sent : List Event, t.trace = s.trace ++ sent ∧
    wireBytes sent ++ pendingBytes t = pendingBytes s ++ bs ∧ progressEvents sent = reports ∧
    ∀ e ∈ sent, LoadEvent s.cfg size e

variable {size : Word}

theorem Streamed.cfg_eq {s t : State} {bs : List Byte} {rs : List Event} {d : Nat} (h : Streamed size s t bs rs d) :
    t.cfg = s.cfg := by rw [h.frame]

theorem Streamed.trans {s t u : State} {bs cs : List Byte} {rs qs : List Event} {d e : Nat}
    (h₁ : Streamed size s t bs rs d) (h₂ : Streamed size t u cs qs e) :
    Streamed size s u (bs ++ cs) (rs ++ qs) (d + e) := by
  obtain ⟨x, hx, hxw, hxp, hxl⟩ := h₁.events
  obtain ⟨y, hy, hyw, hyp, hyl⟩ := h₂.events
  refine ⟨?_, h₂.ok, ?_, fun hr => h₂.calls (h₁.calls hr), x ++ y, ?_, ?_, ?_, ?_⟩
  · have := h₂.frame
    rw [h₁.frame] at this
    rw [← Nat.add_assoc]
    exact this
  · rw [List.length_append]
    exact h₁.placed.trans h₂.placed
  · rw [hy, hx]; simp
  · rw [wireBytes_append, List.append_assoc, hyw, ← List.append_assoc, hxw, List.append_assoc]
  · rw [progressEvents_append, hxp, hyp]
  · intro e he
    rcases List.mem_append.1 he with h | h
    · exact hxl e h
    · rw [← h₁.cfg_eq]; exact hyl e h

theorem LoadEvent.legal {cfg : Config} {e : Event} (h : LoadEvent cfg size e) : eventLegal cfg e := by
  rcases h with ⟨p, rfl, hp⟩ | ⟨o, rfl⟩
  · exact hp
  · trivial

theorem Streamed.grown {s t : State} {bs : List Byte} {rs : List Event} {d : Nat} (h : Streamed size s t bs rs d) :
    Grown s t := by
  obtain ⟨x, hx, hxw, _, hxl⟩ := h.events
  refine ⟨?_, h.ok, ⟨bs, ?_⟩, x, hx, fun e he => (hxl e he).legal⟩
  · have := h.frame
    rw [this]
  · rw [hx, wireBytes_append, List.append_assoc, List.append_assoc, hxw]

/-- A stretch of appending is a stretch of LoadSequence without a report. -/
theorem Streamed.of_appended {s t : State} {bs : List Byte} (h : Appended s t bs) (hp : Placed s t bs.length) :
    Streamed size s t bs [] 0 := by
  obtain ⟨ps, hps, _, hl⟩ := h.events
  refine ⟨?_, h.ok, hp, h.returns_nil, ps.map .ttransmit, hps, ?_, by simp, ?_⟩
  · rw [Nat.add_zero]; exact h.frame
  · have := h.wire
    rw [hps] at this
    simpa using this
  · intro e he
    obtain ⟨p, hp', rfl⟩ := List.mem_map.1 he
    exact .inl ⟨p, rfl, hl p hp'⟩

/-- A report. -/
theorem Streamed.of_report (o : Word) {s : State} (h : TxOk s) :
    Streamed size s (progress .program o size s) [] [.progress .program o size] 0 := by
  refine ⟨rfl, h.of_same rfl rfl rfl, Placed.of_same rfl rfl rfl, fun hr => hr, [.progress .program o size], rfl, ?_,
    rfl, ?_⟩
  · simp [pendingBytes, progress, State.emit, wireBytes]
  · intro e he
    exact .inr ⟨o, List.mem_singleton.1 he⟩

/-- Draws of image words. -/
theorem Streamed.of_draws (d : Nat) {s : State} (h : TxOk s) :
    Streamed size s { s with draws := s.draws + d } [] [] d :=
  ⟨rfl, h.of_same rfl rfl rfl, Placed.of_same rfl rfl rfl, fun hr => hr, [], by simp, by
    simp [pendingBytes, wireBytes], rfl, by simp⟩

theorem Streamed.refl {s : State} (h : TxOk s) : Streamed size s s [] [] 0 :=
  Streamed.of_appended (Appended.refl h) (Placed.refl s)

/-- Everything AppendWord can do, as a stretch of LoadSequence. -/
theorem appendWord_streamed (size v : Word) {s : State} (h : TxOk s) :
    (appendWord v s).sends s fun t => Streamed size s t (encodeWord v) [] 0 :=
  (appendWord_sends v h).mono fun t ht => Streamed.of_appended ht.1 (by rw [encodeWord_length]; exact ht.2)

/-- What a full buffer's worth of flushing leaves: TXCUR in 1..cap determines how much was sent. -/
theorem autoFlushed_eq {cap n c : Nat} (hc : 1 ≤ c) (hcap : c ≤ cap) (hn : c ≤ n) (hmod : c % cap = n % cap) :
    n - c = autoFlushed cap n := by
  have hdvd : cap ∣ n - c := (Nat.modEq_iff_dvd' hn).1 hmod
  obtain ⟨q, hq⟩ := hdvd
  have hn' : n - 1 = cap * q + (c - 1) := by omega
  rw [autoFlushed, hn', hq, Nat.mul_add_div (by omega), Nat.div_eq_of_lt (by omega), Nat.add_zero, Nat.mul_comm]

/-- The bytes that a stretch has sent are those that automatic flushes have pushed out (spec/41_encoder.md R130). -/
theorem Streamed.sent_bytes {s t : State} {bs : List Byte} {rs : List Event} {d : Nat}
    (h : Streamed size s t bs rs d) (hbs : 1 ≤ bs.length) {sent : List Event}
    (hw : wireBytes sent ++ pendingBytes t = pendingBytes s ++ bs) (more : List Byte) :
    wireBytes sent = (pendingBytes s ++ (bs ++ more)).take (autoFlushed s.cfg.txCap (s.txcur + bs.length)) := by
  have hlen := congrArg List.length hw
  simp only [List.length_append, pendingBytes_length] at hlen
  have hcur := h.ok.cur
  rw [h.cfg_eq] at hcur
  have hflush := autoFlushed_eq (h.placed.filled (.inl hbs)) hcur (by omega) h.placed.cursor
  rw [← hflush, show s.txcur + bs.length - t.txcur = (wireBytes sent).length by omega, ← List.append_assoc, ← hw,
    List.append_assoc, List.take_left]

/-! ## The image words -/

/-- The image word the next ImageWord gives: of a held image the little-endian word of its bytes, else a free value
(spec/20_memory.md R54, R66). -/
def nextWord (s : State) (o : Nat) : Word :=
  if s.imageHeld then
    littleEndian (s.image.getD o 0#8) (s.image.getD (o + 1) 0#8) (s.image.getD (o + 2) 0#8) (s.image.getD (o + 3) 0#8)
  else Config.changedImageWord s.draws

/-- How many free values an ImageWord draws. -/
def wordDraws (s : State) : Nat := if s.imageHeld then 0 else 1

/-- The next `n` image words from offset `o` up. -/
def wordsFrom (s : State) (n o : Nat) : List Word :=
  if s.imageHeld then imageWords s.image n o else (List.range' s.draws n).map Config.changedImageWord

theorem imageWords_length (image : List Byte) (n o : Nat) : (imageWords image n o).length = n := by
  induction n generalizing o with
  | zero => rfl
  | succ n ih => simp [imageWords, ih]

@[simp] theorem wordsFrom_length (s : State) (n o : Nat) : (wordsFrom s n o).length = n := by
  unfold wordsFrom
  split
  · exact imageWords_length _ _ _
  · simp

theorem wordsFrom_zero (s : State) (o : Nat) : wordsFrom s 0 o = [] := by
  simp [wordsFrom, imageWords]

/-- Fewer words are the first of them. -/
theorem wordsFrom_take (s : State) {k n : Nat} (o : Nat) (hk : k ≤ n) :
    (wordsFrom s n o).take k = wordsFrom s k o := by
  unfold wordsFrom
  split
  · induction k generalizing n o with
    | zero => rfl
    | succ k ih =>
      obtain ⟨m, rfl⟩ : ∃ m, n = m + 1 := ⟨n - 1, by omega⟩
      rw [imageWords, List.take_succ_cons, ih _ (by omega), imageWords]
  · obtain ⟨m, rfl⟩ : ∃ m, n = k + m := ⟨n - k, by omega⟩
    rw [← List.range'_append_1, List.map_append]
    exact List.take_left' (by simp)

/-- The words are the next word and those that follow in the state behind it. -/
theorem wordsFrom_succ {s u : State} (n o : Nat) (hi : u.image = s.image) (hh : u.imageHeld = s.imageHeld)
    (hd : u.draws = s.draws + wordDraws s) :
    wordsFrom s (n + 1) o = nextWord s o :: wordsFrom u n (o + 4) := by
  unfold wordsFrom nextWord
  rw [hh, hi, hd]
  cases hs : s.imageHeld with
  | true => simp [imageWords]
  | false => simp [wordDraws, hs, List.range'_succ]

/-- ImageWord, where the image has the bytes (spec/20_memory.md R54). -/
theorem imageWord_spec {o : Nat} {s : State} (ho : s.imageHeld = true → o + 4 ≤ s.image.length) :
    imageWord o s = .done (nextWord s o) { s with draws := s.draws + wordDraws s } := by
  by_cases hh : s.imageHeld = true
  · have hl := ho hh
    have key : ∀ a, a < s.image.length → readImage a s = .done (s.image.getD a 0#8) s := by
      intro a ha
      simp [readImage, List.getElem?_eq_getElem ha, List.getD]
    have hs : ({ s with draws := s.draws + wordDraws s } : State) = s := by
      rw [show wordDraws s = 0 by simp [wordDraws, hh]]; rfl
    rw [hs]
    simp [imageWord, nextWord, hh, key o (by omega), key (o + 1) (by omega), key (o + 2) (by omega),
      key (o + 3) (by omega)]
  · simp [imageWord, nextWord, wordDraws, hh]

/-! ## Step 3 -/

/-- The report of step 3 before the word at offset `o`, if there is one. -/
def reportAt (size : Word) (o : Nat) : List Event :=
  if o % 1024 = 0 then [.progress .program (BitVec.ofNat 32 o) size] else []

/-- The reports of step 3 for `n` words from offset `o` on. -/
def reportsFrom (size : Word) : Nat → Nat → List Event
  | 0, _ => []
  | n + 1, o => reportAt size o ++ reportsFrom size n (o + 4)

/-- The state behind that report. -/
abbrev reported (size : Word) (o : Nat) (s : State) : State :=
  if o % 1024 = 0 then progress .program (BitVec.ofNat 32 o) size s else s

theorem reported_streamed (o : Nat) {s : State} (h : TxOk s) :
    Streamed size s (reported size o s) [] (reportAt size o) 0 := by
  by_cases ho : o % 1024 = 0
  · simpa [reported, reportAt, ho] using Streamed.of_report (BitVec.ofNat 32 o) h
  · simpa [reported, reportAt, ho] using Streamed.refl h

/-- Everything one iteration of step 3 can do: report, then append the word, or hang in a flush. -/
theorem streamWords_step (n o : Nat) {s : State} (h : TxOk s)
    (ho : s.imageHeld = true → o + 4 ≤ s.image.length) :
    (∃ u, streamWords (n + 1) o size s = streamWords n (o + 4) size u ∧
      Streamed size (reported size o s) u (encodeWord (nextWord s o)) [] (wordDraws s)) ∨
    (∃ t, streamWords (n + 1) o size s = .hung t ∧ Grown s t ∧ s.returns ≠ []) := by
  have hr := reported_streamed (size := size) o h
  have hf := hr.frame
  have hword : imageWord o (reported size o s) =
      .done (nextWord s o) { reported size o s with draws := (reported size o s).draws + wordDraws s } := by
    have h1 : nextWord (reported size o s) o = nextWord s o := by
      unfold nextWord; rw [hf]; rfl
    have h2 : wordDraws (reported size o s) = wordDraws s := by
      unfold wordDraws; rw [hf]
    rw [imageWord_spec (by rw [hf]; exact ho), h1, h2]
  have hd := Streamed.of_draws (size := size) (wordDraws s) hr.ok
  have hrun : streamWords (n + 1) o size s =
      (appendWord (nextWord s o) { reported size o s with draws := (reported size o s).draws + wordDraws s }).bind
        fun _ s => streamWords n (o + 4) size s := by
    rw [streamWords]
    show (imageWord o (reported size o s)).bind _ = _
    rw [hword, Flow.bind_done]
  rw [hrun]
  rcases appendWord_streamed size (nextWord s o) hd.ok with ⟨u, hu, hsu⟩ | ⟨u, hu, hgu, hne⟩
  · refine .inl ⟨u, by rw [hu, Flow.bind_done], ?_⟩
    have := hd.trans hsu
    simpa using this
  · exact .inr ⟨u, by rw [hu, Flow.bind_hung], (hr.grown.trans hd.grown).trans hgu, fun hs => hne (hr.calls hs)⟩

/-- Everything the first `k` iterations of step 3 can do. -/
theorem streamWords_steps (k r : Nat) {o : Nat} {s : State} (h : TxOk s)
    (ho : s.imageHeld = true → o + 4 * (k + r) ≤ s.image.length) :
    (∃ u, streamWords (k + r) o size s = streamWords r (o + 4 * k) size u ∧
      Streamed size s u ((wordsFrom s k o).flatMap encodeWord) (reportsFrom size k o) (k * wordDraws s)) ∨
    (∃ t, streamWords (k + r) o size s = .hung t ∧ Grown s t ∧ s.returns ≠ []) := by
  induction k generalizing o s with
  | zero => exact .inl ⟨s, by simp, by simpa [wordsFrom_zero, reportsFrom] using Streamed.refl h⟩
  | succ k ih =>
    rw [show k + 1 + r = k + r + 1 by omega]
    rcases streamWords_step (size := size) (k + r) o h (fun hh => by have := ho hh; omega) with
      ⟨u, hu, hsu⟩ | hx
    · have hru := (reported_streamed (size := size) o h).trans hsu
      have hui : u.image = s.image := by rw [hru.frame]
      have huh : u.imageHeld = s.imageHeld := by rw [hru.frame]
      have hud : u.draws = s.draws + wordDraws s := by rw [hru.frame]; simp
      have hwd : wordDraws u = wordDraws s := by unfold wordDraws; rw [huh]
      rcases ih (o := o + 4) hru.ok (by rw [huh, hui]; intro hh; have := ho hh; omega) with
        ⟨t, ht, hut⟩ | ⟨t, ht, hgt, hne⟩
      · refine .inl ⟨t, by rw [hu, ht, show o + 4 + 4 * k = o + 4 * (k + 1) by omega], ?_⟩
        have := hru.trans hut
        rw [wordsFrom_succ k o hui huh hud, reportsFrom]
        rw [hwd] at this
        simpa [Nat.add_mul, Nat.add_comm] using this
      · exact .inr ⟨t, by rw [hu, ht], hru.grown.trans hgt, fun hs => hne (hru.calls hs)⟩
    · exact .inr hx

/-- The reports of step 3 stand at the multiples of 1024 (spec/46_load.md R245 (b)). -/
theorem reportsFrom_snoc (size : Word) (n o : Nat) :
    reportsFrom size (n + 1) o = reportsFrom size n o ++
      reportAt size (o + 4 * n) := by
  induction n generalizing o with
  | zero => simp [reportsFrom]
  | succ n ih =>
    rw [reportsFrom, ih (o + 4), reportsFrom]
    simp only [List.append_assoc]
    rw [show o + 4 + 4 * n = o + 4 * (n + 1) by omega]

theorem reportsFrom_zero (size : Word) (n : Nat) :
    reportsFrom size n 0 =
      (List.range ((4 * n + 1023) / 1024)).map fun j => .progress .program (BitVec.ofNat 32 (1024 * j)) size := by
  induction n with
  | zero => rfl
  | succ n ih =>
    rw [reportsFrom_snoc, ih, Nat.zero_add, reportAt]
    by_cases h : 4 * n % 1024 = 0
    · rw [if_pos h, show (4 * (n + 1) + 1023) / 1024 = (4 * n + 1023) / 1024 + 1 by omega, List.range_succ,
        List.map_append, List.map_singleton, show 1024 * ((4 * n + 1023) / 1024) = 4 * n by omega]
    · rw [if_neg h, show (4 * (n + 1) + 1023) / 1024 = (4 * n + 1023) / 1024 by omega, List.append_nil]

theorem reportsFrom_size {size : Word} (h : size.toNat % 4 = 0) :
    reportsFrom size (size.toNat / 4) 0 = programReports size := by
  rw [reportsFrom_zero, programReports, show 4 * (size.toNat / 4) = size.toNat by omega]

/-! ## Steps 2 to 4 -/

/-- What steps 2 to 4 leave: everything appended is sent, nothing is pending. -/
structure ImageSent (s t : State) (bytes : List Byte) (size : Word) (d : Nat) : Prop where
  frame : t = { s with
    txbuf := t.txbuf, txcur := 0, returns := t.returns, draws := s.draws + d, trace := t.trace }
  ok : TxOk t
  calls : s.returns = [] → t.returns = []
  shown : ∃ sent : List Event, t.trace = s.trace ++ sent ∧ LoadSent s t size bytes sent
  stored : ∀ a, (∀ i < bytes.length, a ≠ appendAddress s i) → readByte t.txbuf a = readByte s.txbuf a

theorem flatMap_encodeWord_length (ws : List Word) : (ws.flatMap encodeWord).length = 11 * ws.length := by
  induction ws with
  | nil => rfl
  | cons w ws ih => simp [ih]; omega

theorem ImageSent.grown {s t : State} {bytes : List Byte} {d : Nat} (h : ImageSent s t bytes size d) : Grown s t := by
  obtain ⟨sent, hs, hl⟩ := h.shown
  refine ⟨?_, h.ok, ⟨bytes, ?_⟩, sent, hs, fun e he => LoadEvent.legal (hl.only e he)⟩
  · have := h.frame
    rw [this]
  · rw [hs, wireBytes_append, hl.wire, pendingBytes_of_txcur_zero (s := t) (by rw [h.frame])]; simp

theorem programReports_take {size : Word} {j : Nat} (hj : 1024 * j < size.toNat) :
    (programReports size).take j = reportsFrom size (256 * j) 0 := by
  rw [reportsFrom_zero, programReports, ← List.map_take, List.take_range,
    show (4 * (256 * j) + 1023) / 1024 = j by omega, Nat.min_eq_left (by omega)]

theorem loadBytes_length (cfg : Config) (kind : LoadKind) (size : Word) (words : List Word) :
    (loadBytes cfg kind size words).length = 22 + 11 * words.length := by
  rw [loadBytes, flatMap_encodeWord_length, List.length_append]
  simp only [List.length_cons, List.length_nil]
  omega

theorem loadBytes_append (cfg : Config) (kind : LoadKind) (size : Word) (ws vs : List Word) :
    loadBytes cfg kind size (ws ++ vs) = loadBytes cfg kind size ws ++ vs.flatMap encodeWord := by
  simp [loadBytes]

/-- Step 3 up to the report of `j` x 1024 bytes, that report, and the rest (spec/46_load.md R245 (c)). -/
theorem streamWords_split {n j : Nat} {v w : State} (h : TxOk v)
    (ho : v.imageHeld = true → 4 * n ≤ v.image.length) (hj : 256 * j < n)
    (hw : streamWords n 0 size v = .done () w) :
    ∃ m, Streamed size v m ((wordsFrom v (256 * j) 0).flatMap encodeWord) (reportsFrom size (256 * j) 0)
        (256 * j * wordDraws v) ∧
      ∃ after, w.trace = m.trace ++ .progress .program (BitVec.ofNat 32 (1024 * j)) size :: after := by
  obtain ⟨r, hr⟩ : ∃ r, n = 256 * j + (r + 1) := ⟨n - 256 * j - 1, by omega⟩
  subst hr
  rcases streamWords_steps (size := size) (256 * j) (r + 1) h (o := 0) (by simpa using ho) with
    ⟨m, hm, hvm⟩ | ⟨m, hm, _⟩
  rotate_left
  · rw [hm] at hw; cases hw
  refine ⟨m, hvm, ?_⟩
  have himg : m.image = v.image ∧ m.imageHeld = v.imageHeld := by rw [hvm.frame]; exact ⟨rfl, rfl⟩
  rw [hm, show 0 + 4 * (256 * j) = 1024 * j by omega] at hw
  rcases streamWords_step (size := size) r (1024 * j) hvm.ok
    (by rw [himg.1, himg.2]; intro hh; have := ho hh; omega) with ⟨u, hu, hmu⟩ | ⟨u, hu, _⟩
  rotate_left
  · rw [hu] at hw; cases hw
  rw [hu] at hw
  have hui : u.image = v.image ∧ u.imageHeld = v.imageHeld := by
    rw [hmu.frame, ← himg.1, ← himg.2]
    exact ⟨by simp only [reported]; split <;> rfl, by simp only [reported]; split <;> rfl⟩
  rcases streamWords_steps (size := size) r 0 hmu.ok (o := 1024 * j + 4)
    (by rw [hui.1, hui.2]; intro hh; have := ho hh; omega) with ⟨x, hx, hux⟩ | ⟨x, hx, _⟩
  rotate_left
  · rw [Nat.add_zero] at hx; rw [hx] at hw; cases hw
  have hxw : x = w := by
    rw [Nat.add_zero] at hx
    rw [hx, streamWords] at hw
    cases hw
    rfl
  subst hxw
  obtain ⟨a, ha, _⟩ := hmu.events
  obtain ⟨b, hb, _⟩ := hux.events
  refine ⟨a ++ b, ?_⟩
  rw [hb, ha]
  simp [reported, progress, State.emit]

/-- Everything steps 2 to 4 can do: send the stream of spec/46_load.md R244 behind what was pending, or hang. -/
theorem sendImage_sends (kind : LoadKind) {size : Word} {s : State} (h : TxOk s) (hsize : size.toNat % 4 = 0)
    (hl : s.imageHeld = true → size.toNat ≤ s.image.length) :
    (sendImage kind size s).sends s fun t =>
      ImageSent s t (loadBytes s.cfg kind size (wordsFrom s (size.toNat / 4) 0)) size
        (size.toNat / 4 * wordDraws s) := by
  have hret : ∀ {u : State}, (s.returns = [] → u.returns = []) → u.returns ≠ [] → s.returns ≠ [] :=
    fun hu hne hs => hne (hu hs)
  rcases appendWord_streamed size (kindWord kind s) h with ⟨u, hu, hsu⟩ | ⟨u, hu, hgu⟩
  rotate_left
  · exact .inr ⟨u, by rw [sendImage, hu, Flow.bind_hung], hgu⟩
  rcases appendWord_streamed size (size / 4#32) hsu.ok with ⟨v, hv, huv⟩ | ⟨v, hv, hgv, hne⟩
  rotate_left
  · exact .inr ⟨v, by rw [sendImage, hu, Flow.bind_done, hv, Flow.bind_hung], hsu.grown.trans hgv, hret hsu.calls hne⟩
  have hsv := hsu.trans huv
  have hvi : v.image = s.image ∧ v.imageHeld = s.imageHeld ∧ v.draws = s.draws := by
    rw [hsv.frame]; exact ⟨rfl, rfl, rfl⟩
  have hwords : ∀ k, wordsFrom v k 0 = wordsFrom s k 0 := fun k => by
    unfold wordsFrom; rw [hvi.1, hvi.2.1, hvi.2.2]
  have hwd : wordDraws v = wordDraws s := by unfold wordDraws; rw [hvi.2.1]
  have himg : v.imageHeld = true → 4 * (size.toNat / 4) ≤ v.image.length := by
    rw [hvi.1, hvi.2.1]; intro hh; have := hl hh; omega
  rcases streamWords_steps (size := size) (size.toNat / 4) 0 hsv.ok (o := 0) (by simpa using himg) with
    ⟨w, hw, hvw⟩ | ⟨w, hw, hgw, hne⟩
  rotate_left
  · refine .inr ⟨w, ?_, hsv.grown.trans hgw, hret hsv.calls hne⟩
    rw [sendImage, hu, Flow.bind_done, hv, Flow.bind_done]
    rw [Nat.add_zero] at hw
    rw [hw, Flow.bind_hung]
  rw [Nat.add_zero, streamWords] at hw
  rw [hwords, hwd] at hvw
  have hsw := hsv.trans hvw
  rcases flush_sends hvw.ok with ⟨t, ht, hwt⟩ | ⟨t, ht, hgt, hne⟩
  rotate_left
  · refine .inr ⟨t, ?_, hsw.grown.trans hgt, hret hsw.calls hne⟩
    rw [sendImage, hu, Flow.bind_done, hv, Flow.bind_done, hw, Flow.bind_done, ht]
  have hbytes : ∀ words, encodeWord (kindWord kind s) ++ encodeWord (size / 4#32) ++ words.flatMap encodeWord =
      loadBytes s.cfg kind size words := fun words => by simp [loadBytes, kindWord]
  have hlen := loadBytes_length s.cfg kind size (wordsFrom s (size.toNat / 4) 0)
  rw [hbytes] at hsw
  have hstored : ∀ a, (∀ i < (loadBytes s.cfg kind size (wordsFrom s (size.toNat / 4) 0)).length,
      a ≠ appendAddress s i) → readByte t.txbuf a = readByte s.txbuf a := fun a ha => by
    rw [hwt.txbuf]; exact hsw.placed.stored a ha
  refine .inl ⟨t, ?_, ?_, hwt.appended.ok, fun hs => hwt.appended.returns_nil (hsw.calls hs), ?_, hstored⟩
  · rw [sendImage, hu, Flow.bind_done, hv, Flow.bind_done, hw, Flow.bind_done, ht]
  · have h1 := State.ext_iff.1 hwt.appended.frame
    have h2 := State.ext_iff.1 hsw.frame
    simp only [true_and, and_true] at h1 h2
    apply State.ext <;> simp [h1, h2, hwt.cursor]
  obtain ⟨sent, hs1, hs2, hs3, hs4⟩ := hsw.events
  obtain ⟨ps, hp1, hp2, hp3⟩ := hwt.appended.payloads hwt.cursor
  refine ⟨sent ++ ps.map .ttransmit, by rw [hp1, hs1]; simp, ?_, ?_, ?_, fun j hj => ?_, fun a _ ha => hstored a ha⟩
  · simp only [wireBytes_append, wireBytes_ttransmits, hp2, List.append_nil]
    exact hs2
  · simp [hs3, reportsFrom_size hsize]
  · intro e he
    rcases List.mem_append.1 he with h | h
    · exact hs4 e h
    · obtain ⟨p, hp, rfl⟩ := List.mem_map.1 h
      rw [← hsw.cfg_eq]
      exact .inl ⟨p, rfl, hp3 p hp⟩
  · obtain ⟨m, hvm, after, hafter⟩ := streamWords_split hsv.ok himg (show 256 * j < size.toNat / 4 by omega) hw
    rw [hwords, hwd] at hvm
    have hsm := hsv.trans hvm
    rw [hbytes] at hsm
    obtain ⟨before, hb1, hb2, hb3, _⟩ := hsm.events
    have hmlen := loadBytes_length s.cfg kind size (wordsFrom s (256 * j) 0)
    rw [wordsFrom_length] at hmlen
    refine ⟨before, after ++ ps.map .ttransmit, ?_, ?_, ?_⟩
    · rw [hs1, hb1, List.append_assoc] at hafter
      rw [List.append_cancel_left hafter]
      simp
    · rw [programReports_take hj, hb3]
      simp
    · have hsplit := List.take_append_drop (256 * j) (wordsFrom s (size.toNat / 4) 0)
      rw [wordsFrom_take s 0 (show 256 * j ≤ size.toNat / 4 by omega)] at hsplit
      have := hsm.sent_bytes (by omega) hb2
        (((wordsFrom s (size.toNat / 4) 0).drop (256 * j)).flatMap encodeWord)
      rw [hmlen, ← loadBytes_append, hsplit] at this
      rw [this]
      congr 2
      omega

/-- Steps 2 to 4, where every call returns. -/
theorem sendImage_spec (kind : LoadKind) {size : Word} {s : State} (h : TxOk s) (hr : s.returns = [])
    (hsize : size.toNat % 4 = 0) (hl : s.imageHeld = true → size.toNat ≤ s.image.length) :
    ∃ t, sendImage kind size s = .done () t ∧
      ImageSent s t (loadBytes s.cfg kind size (wordsFrom s (size.toNat / 4) 0)) size
        (size.toNat / 4 * wordDraws s) := (sendImage_sends kind h hsize hl).done hr

/-- What the load shows stays shown where the later acknowledgements touch address 0 alone. -/
theorem LoadSent.of_stored {s t u : State} {size : Word} {bytes : List Byte} {sent : List Event}
    (h : LoadSent s t size bytes sent) (hu : ∀ a, a ≠ 0 → readByte u.txbuf a = readByte t.txbuf a) :
    LoadSent s u size bytes sent :=
  ⟨h.wire, h.reports, h.only, h.places, fun a h0 ha => by rw [hu a h0, h.stored a h0 ha]⟩

/-- Where LOAD_IMAGE's checks pass, LoadSequence runs (spec/46_load.md R240). -/
theorem loadRule_checked {kind : LoadKind} {size : Word} {s : State} (h₁ : size.toNat % 4 = 0)
    (h₂ : size.toNat ≤ s.cfg.maxImage) (h₃ : size.toNat ≤ s.image.length) :
    loadRule kind size s = loadSequence kind size s := by
  rw [loadRule, if_neg (by omega), if_neg (by omega), if_neg (by omega)]

/-! ## The acknowledgements of a load -/

/-- What a phase of a load leaves, with nothing pending before it: the attempts' events, and address 0 of TXBUF. -/
structure PhaseEnded (s t : State) (attempts rest : List (List Byte)) : Prop where
  frame : t = { s with txbuf := t.txbuf, answers := rest, trace := s.trace ++ attemptEvents attempts }
  ok : TxOk t
  stored : ∀ a, a ≠ 0 → readByte t.txbuf a = readByte s.txbuf a

theorem PhaseEnded.of_awaited {s t : State} {silent : Nat} {last : List Byte} {rest : List (List Byte)}
    (hr : s.returns = []) (haw : Awaited (probed s) t silent last rest) :
    PhaseEnded s t (List.replicate silent [] ++ [last]) rest := by
  refine ⟨?_, haw.ok, fun a ha => ?_⟩
  · have := haw.frame
    rw [this, attemptEvents_cons]
    simp [hr]
  · rw [haw.stored a (.inr ha)]
    exact readByte_writeByte_other _ _ _ _ ha

/-- An acknowledged phase, where every call returns. -/
theorem loadAck_ack (phase : AckPhase) (kind : LoadKind) (size : Word) (silent : Nat) (rest : List (List Byte))
    {s : State} (h : TxOk s) (h0 : s.txcur = 0) (hr : s.returns = []) (hk : silent < ackBudget phase)
    (hs : s.answers = ackAnswers silent ++ rest) :
    ∃ t, loadAck phase kind size s = .done () t ∧ PhaseEnded s t (ackAnswers silent) rest := by
  obtain ⟨t, ht, haw⟩ := awaitAck_ack (.load phase kind size) silent rest (probed_txOk h h0) h0
    (by simp [hr]) hk hs
  refine ⟨t, ?_, PhaseEnded.of_awaited hr haw⟩
  rw [loadAck, waitForAck_empty _ (by omega) h h0 hr]
  exact ht

/-- A phase that is not acknowledged, where every call returns: its status ends the command. -/
theorem loadAck_fails (phase : AckPhase) (kind : LoadKind) (size : Word) {attempts : List (List Byte)} {st : Status}
    (hf : AckFailure (ackBudget phase) attempts st) (rest : List (List Byte)) {s : State} (h : TxOk s)
    (h0 : s.txcur = 0) (hr : s.returns = []) (hs : s.answers = attempts ++ rest) :
    ∃ t, loadAck phase kind size s = .fail st t ∧ PhaseEnded s t attempts rest := by
  have hret : (probed s).returns = [] := by simp [hr]
  have hb : ackBudget phase ≠ 0 := by cases phase <;> decide
  have hrun : loadAck phase kind size s = awaitAck (.load phase kind size) s.answers (ackBudget phase) (probed s) := by
    rw [loadAck, waitForAck_empty _ hb h h0 hr]
  cases hf with
  | @nak silent b within other =>
    obtain ⟨t, ht, haw⟩ := awaitAck_nak (.load phase kind size) silent rest (probed_txOk h h0) h0 hret within other
      (by simpa using hs)
    exact ⟨t, hrun.trans ht, PhaseEnded.of_awaited hr haw⟩
  | silence =>
    obtain ⟨k, hk⟩ : ∃ k, ackBudget phase = k + 1 := ⟨ackBudget phase - 1, by omega⟩
    rw [hk] at hs hrun ⊢
    obtain ⟨t, ht, haw⟩ := awaitAck_silence (.load phase kind size) k rest (probed_txOk h h0) h0 hret hs
    refine ⟨t, hrun.trans ht, ?_⟩
    rw [List.replicate_succ']
    exact PhaseEnded.of_awaited hr haw

end Sys2Proof.Machine
end

