-- ==== Sys2Proof/Laws/PerInstr.lean ====
section
/-! SUPPORT. Statements made once per command: its arguments fit the fields the opcode map gives them. -/

namespace Sys2Proof.Laws

open Sys2Proof

/-- The arguments of a command set no must-be-zero bit and read back as its operands (spec/30_encoding.md R91, R92). -/
def ArgsFit.Statement (i : Instr) : Prop :=
  i.arg0 >>> i.opcode.arg0Bits = 0#32 ∧ i.arg1 >>> i.opcode.arg1Bits = 0#32 ∧
    i.opcode.withArgs i.arg0 i.arg1 = i

/-- A byte zero-extended to an argument has no bit from bit 8 up. -/
theorem byte_arg_high_zero (b : Byte) : (b.setWidth 32) >>> 8 = 0#32 := by
  ext i hi
  simp

/-- A byte zero-extended to an argument reads back. -/
theorem byte_arg_reads_back (b : Byte) : (b.setWidth 32).setWidth 8 = b := by
  ext i hi
  simp

/-- An argument that a command does not use is zero. -/
theorem unused_arg_zero : (0#32 : Word) >>> 0 = 0#32 := by decide

/-- A kind's code zero-extended to an argument has no bit from bit 2 up and reads back. -/
theorem kind_arg_fits (kind : LoadKind) :
    (kind.code.setWidth 32) >>> 2 = 0#32 ∧ kindOf ((kind.code.setWidth 32).setWidth 2) = kind := by
  cases kind <;> decide

theorem ArgsFit.init : ArgsFit.Statement .init := ⟨by decide, by decide, rfl⟩
theorem ArgsFit.readReg (index : Byte) : ArgsFit.Statement (.readReg index) :=
  ⟨byte_arg_high_zero index, unused_arg_zero, congrArg Instr.readReg (byte_arg_reads_back index)⟩
theorem ArgsFit.lfsrSeed (seed : Byte) : ArgsFit.Statement (.lfsrSeed seed) :=
  ⟨byte_arg_high_zero seed, unused_arg_zero, congrArg Instr.lfsrSeed (byte_arg_reads_back seed)⟩
theorem ArgsFit.lfsrStep : ArgsFit.Statement .lfsrStep := ⟨by decide, by decide, rfl⟩
theorem ArgsFit.appendByte (byte : Byte) : ArgsFit.Statement (.appendByte byte) :=
  ⟨byte_arg_high_zero byte, unused_arg_zero, congrArg Instr.appendByte (byte_arg_reads_back byte)⟩
theorem ArgsFit.appendWord (value : Word) : ArgsFit.Statement (.appendWord value) :=
  ⟨BitVec.ushiftRight_eq_zero (Nat.le_refl _), unused_arg_zero, rfl⟩
theorem ArgsFit.flush : ArgsFit.Statement .flush := ⟨by decide, by decide, rfl⟩
theorem ArgsFit.receiveBit (timeoutMs : Word) : ArgsFit.Statement (.receiveBit timeoutMs) :=
  ⟨BitVec.ushiftRight_eq_zero (Nat.le_refl _), unused_arg_zero, rfl⟩
theorem ArgsFit.handshake : ArgsFit.Statement .handshake := ⟨by decide, by decide, rfl⟩
theorem ArgsFit.waitForAck (maxRetries : Word) : ArgsFit.Statement (.waitForAck maxRetries) :=
  ⟨BitVec.ushiftRight_eq_zero (Nat.le_refl _), unused_arg_zero, rfl⟩
theorem ArgsFit.loadImage (kind : LoadKind) (size : Word) : ArgsFit.Statement (.loadImage kind size) :=
  ⟨(kind_arg_fits kind).1, BitVec.ushiftRight_eq_zero (Nat.le_refl _),
    congrArg (Instr.loadImage · size) (kind_arg_fits kind).2⟩
theorem ArgsFit.shutdown : ArgsFit.Statement .shutdown := ⟨by decide, by decide, rfl⟩

end Sys2Proof.Laws
end

