-- ==== Sys2Proof/Tests/Slice0.lean ====
section
/-! SUPPORT. Tests: the checks of WellFormed and of the decoder, vectors of spec/95_test_vectors.md, and for each
obligation with hypotheses a state and operands that meet them. -/

namespace Sys2Proof.Tests

open Sys2Proof Sys2Proof.Machine

/-! ## WellFormed and the decoder: words written out from spec/30_encoding.md R90 to R93 -/

theorem test_wellFormed_refuses_index_9 : (Instr.readReg 0x09#8).wellFormed = false := by decide
theorem test_wellFormed_refuses_index_ff : (Instr.readReg 0xFF#8).wellFormed = false := by decide
theorem test_wellFormed_admits_index_8 : (Instr.readReg 0x08#8).wellFormed = true := by decide

theorem test_decode_init : decode 0x00000000_00000000_01#72 = .ok .init := by decide +kernel
theorem test_decode_readReg : decode 0x00000000_00000008_02#72 = .ok (.readReg 0x08#8) := by decide +kernel
theorem test_decode_lfsrSeed : decode 0x00000000_00000050_03#72 = .ok (.lfsrSeed 0x50#8) := by decide +kernel
theorem test_decode_lfsrStep : decode 0x00000000_00000000_04#72 = .ok .lfsrStep := by decide +kernel
theorem test_decode_appendByte : decode 0x00000000_000000F9_05#72 = .ok (.appendByte 0xF9#8) := by decide +kernel
theorem test_decode_appendWord :
    decode 0x00000000_DEADBEEF_06#72 = .ok (.appendWord 0xDEADBEEF#32) := by decide +kernel
theorem test_decode_flush : decode 0x00000000_00000000_07#72 = .ok .flush := by decide +kernel
theorem test_decode_receiveBit : decode 0x00000000_00000064_08#72 = .ok (.receiveBit 100#32) := by decide +kernel
theorem test_decode_handshake : decode 0x00000000_00000000_09#72 = .ok .handshake := by decide +kernel
theorem test_decode_waitForAck : decode 0x00000000_00000190_0A#72 = .ok (.waitForAck 400#32) := by decide +kernel
theorem test_decode_loadImage :
    decode 0x00001004_00000001_0B#72 = .ok (.loadImage .run 4100#32) := by decide +kernel
theorem test_decode_loadImage_kind_3 :
    decode 0x00000008_00000003_0B#72 = .ok (.loadImage .eepromRun 8#32) := by decide +kernel
theorem test_decode_shutdown : decode 0x00000000_00000000_0C#72 = .ok .shutdown := by decide +kernel

/-- The reserved operation codes at the ends of the map (R93). -/
theorem test_decode_reserved :
    decode 0x00#72 = .error (.reservedOpcode 0x00#8) ∧ decode 0x0D#72 = .error (.reservedOpcode 0x0D#8) ∧
    decode 0xFF#72 = .error (.reservedOpcode 0xFF#8) := by decide +kernel

/-- One must-be-zero bit set, in ARG0 and in ARG1; a register index above the map (R91, R92). -/
theorem test_decode_illegal_fields :
    decode 0x00000000_00000001_01#72 = .error (.mustBeZero .init) ∧
    decode 0x00000000_00000100_05#72 = .error (.mustBeZero .appendByte) ∧
    decode 0x80000000_00000000_06#72 = .error (.mustBeZero .appendWord) ∧
    decode 0x00000008_00000004_0B#72 = .error (.mustBeZero .loadImage) ∧
    decode 0x00000000_00000009_02#72 = .error (.registerIndex 0x09#8) := by decide +kernel

/-! ## Small states -/

/-- A small instance. -/
def cfg4 : Config := { txCap := 4, rxCap := 4, maxImage := 8, kindCodes := .default }

def fresh : State := State.resetOf cfg4

def linked : State := { fresh with sess := .linked, hsState := .done }

def failed : State := { fresh with sess := .failed, hsState := .timeout }

/-- Four bytes pending in a buffer of four (spec/95_test_vectors.md V1, first row of the transmit buffer). -/
def full : State :=
  { fresh with txbuf := [(0, 0xF9#8), (1, 0x92#8), (2, 0xDB#8), (3, 0x93#8)], txcur := 4 }

/-- A session with an image of eight bytes and the given answers. -/
def loading (answers : List (List Byte)) : State :=
  { linked with image := [0x03#8, 0x0A#8, 0x11#8, 0x18#8, 0x1F#8, 0x26#8, 0x2D#8, 0x34#8], answers := answers }

/-- The next state, where there is one. -/
def nextOf (o : Host.Outcome State Fault Refusal) : Option State :=
  match o with
  | .next s => some s
  | .fault _ => none
  | .refused _ => none

/-! ## One step of each command (spec/95_test_vectors.md) -/

/-- V1: INIT discards the pending byte. -/
theorem test_init_discards : (nextOf (exec .init { full with sess := .failed })).map (fun t => (t.txcur, t.sess, t.trace)) =
    some (0, .ready, [.response .ok 0#32]) := by decide +kernel

/-- V2: STATUS after a RECEIVE_BIT that ended TIMEOUT. -/
theorem test_readReg_status :
    (nextOf (exec (.readReg 0#8) { failed with hsState := .idle, lastStatus := .timeout })).map (·.trace) =
      some [.response .ok 0x7#32] := by decide +kernel

/-- V3: the tap on bit 4, and the bit that goes out. -/
theorem test_lfsrStep_tap4 : (nextOf (exec .lfsrStep { fresh with lfsr := 0x10#8 })).map (fun t => (t.lfsr, t.trace)) =
    some (0x21#8, [.response .ok 0#32]) := by decide +kernel

theorem test_lfsrStep_ff : (nextOf (exec .lfsrStep { fresh with lfsr := 0xFF#8 })).map (fun t => (t.lfsr, t.trace)) =
    some (0xFE#8, [.response .ok 1#32]) := by decide +kernel

theorem test_lfsrSeed : (nextOf (exec (.lfsrSeed 0x50#8) fresh)).map (·.lfsr) = some 0x50#8 := by decide +kernel

/-- V1: a full buffer is flushed before the byte is stored. -/
theorem test_appendByte_full : (nextOf (exec (.appendByte 0x9B#8) full)).map (fun t => (t.txcur, t.txbuf.head?, t.trace)) =
    some (1, some (0, 0x9B#8), [.ttransmit [0xF9#8, 0x92#8, 0xDB#8, 0x93#8], .response .ok 0#32]) := by decide +kernel

/-- V1: APPEND_WORD 0x12345678 in a buffer of 11. -/
theorem test_appendWord_bytes :
    (nextOf (exec (.appendWord 0x12345678#32) (State.resetOf { cfg4 with txCap := 11 }))).map pendingBytes =
      some [0x92#8, 0xDB#8, 0x93#8, 0x9B#8, 0xD3#8, 0x92#8, 0xD3#8, 0x93#8, 0x9A#8, 0x9A#8, 0xF2#8] := by decide +kernel

/-- V1: APPEND_WORD 0 with TXCAP = 5 makes two automatic flushes. -/
theorem test_appendWord_flushes :
    (nextOf (exec (.appendWord 0#32) (State.resetOf { cfg4 with txCap := 5 }))).map (fun t => (t.txcur, t.trace)) =
      some (1, [.ttransmit (List.replicate 5 0x92#8), .ttransmit (List.replicate 5 0x92#8), .response .ok 0#32]) := by
  decide +kernel

/-- V1: FLUSH of an empty buffer makes no TTransmit. -/
theorem test_flush_empty : (nextOf (exec .flush fresh)).map (·.trace) = some [.response .ok 0#32] := by decide +kernel

/-- R312: a TTransmit that never returns leaves FLUSH in progress, its event shown and TXCUR not yet 0. -/
theorem test_flush_hangs :
    (nextOf (exec .flush { full with returns := [false] })).map (fun t => (t.busy, t.running, t.txcur, t.trace)) =
      some (true, some (.hung .flush), 4, [.ttransmit [0xF9#8, 0x92#8, 0xDB#8, 0x93#8]]) := by decide +kernel

/-- R312: HANDSHAKE in a TReset that never returns; nothing is sent, and HS_STATE is Reset. -/
theorem test_handshake_hangs :
    (nextOf (exec .handshake { fresh with returns := [false] })).map (fun t => (t.busy, t.hsState, t.trace)) =
      some (true, .reset, [.progress .handshakeStart 0#32 0#32, .treset]) := by decide +kernel

/-- V2: noise is skipped, the bit is answered, the rest stays in the window. -/
theorem test_receiveBit :
    (nextOf (exec (.receiveBit 100#32) { fresh with answers := [[0x00#8, 0xFD#8, 0xFF#8, 0xFE#8]] })).map
      (fun t => (t.rxcur, t.rxlen, t.trace)) =
      some (3, 4, [.treceive 4 100#32 [0x00#8, 0xFD#8, 0xFF#8, 0xFE#8], .response .ok 1#32]) := by decide +kernel

/-- V2: an exhausted window, noise, then silence. -/
theorem test_receiveBit_timeout :
    (nextOf (exec (.receiveBit 7#32) { fresh with rxcur := 4, rxlen := 4, answers := [[0x12#8], []] })).map
      (fun t => (t.rxcur, t.rxlen, t.sess, t.trace)) =
      some (0, 0, .failed, [.treceive 4 7#32 [0x12#8], .treceive 4 7#32 [], .response .timeout 0#32]) := by
  decide +kernel

/-- V4.4, silence. -/
theorem test_handshake_silence :
    (nextOf (exec .handshake { State.reset with answers := [[]] })).map
      (fun t => (t.lfsr, t.hsState, t.sess, t.lastStatus, t.txcur, t.trace.length)) =
      some (0x9A#8, .timeout, .failed, .timeout, 0, 6) := by decide +kernel

/-- V4.4, a mismatch at response bit 0. -/
theorem test_handshake_mismatch :
    (nextOf (exec .handshake { State.reset with answers := [[0xFF#8]] })).map
      (fun t => (t.lfsr, t.hsState, t.sess, t.lastStatus, t.rxcur)) =
      some (0x35#8, .error, .failed, .error, 1) := by decide +kernel

/-- W3. -/
theorem test_waitForAck_silence : (nextOf (exec (.waitForAck 1#32) { fresh with answers := [[]] })).map (·.trace) =
    some [.ttransmit [0xF9#8], .treceive 1 25#32 [], .response .timeout 0#32] := by decide +kernel

/-- W4. -/
theorem test_waitForAck_nak : (nextOf (exec (.waitForAck 400#32) { fresh with answers := [[0x00#8]] })).map (·.trace) =
    some [.ttransmit [0xF9#8], .treceive 1 25#32 [0x00#8], .response .error 0#32] := by decide +kernel

/-- W7: a size that is no multiple of 4. -/
theorem test_loadImage_size : (nextOf (exec (.loadImage .run 6#32) (loading []))).map (fun t => (t.sess, t.trace)) =
    some (.linked, [.response .precond 0#32]) := by decide +kernel

/-- A Run load of one word: the kind word 1, the word count 1, the little-endian image word 0x18110A03, then the probe
(spec/46_load.md R244; the bytes by hand from spec/30_encoding.md R83). -/
theorem test_loadImage_stream :
    (nextOf (exec (.loadImage .run 4#32) (loading [[0xFE#8]]))).map (fun t => (t.sess, wireBytes t.trace)) =
      some (.done, [0x93#8, 0x92#8, 0x92#8, 0x92#8, 0x92#8, 0x92#8, 0x92#8, 0x92#8, 0x92#8, 0x92#8, 0xF2#8,
        0x93#8, 0x92#8, 0x92#8, 0x92#8, 0x92#8, 0x92#8, 0x92#8, 0x92#8, 0x92#8, 0x92#8, 0xF2#8,
        0x9B#8, 0x92#8, 0x92#8, 0xD3#8, 0x92#8, 0x9A#8, 0xD2#8, 0x92#8, 0x92#8, 0x9B#8, 0xF2#8, 0xF9#8]) := by
  decide +kernel

theorem test_shutdown : (nextOf (exec .shutdown linked)).map (fun t => (t.sess, wireBytes t.trace)) =
    some (.done, List.replicate 10 0x92#8 ++ [0xF2#8]) := by decide +kernel

/-- R8: the word sent is the instance's, here 0x12345678 for Shutdown (the bytes of V1). -/
theorem test_shutdown_other_word :
    (nextOf (exec .shutdown { linked with
      cfg := { cfg4 with kindCodes := { KindCodes.default with shutdown := 0x12345678#32 } } })).map
        (fun t => wireBytes t.trace) =
      some [0x92#8, 0xDB#8, 0x93#8, 0x9B#8, 0xD3#8, 0x92#8, 0xD3#8, 0x93#8, 0x9A#8, 0x9A#8, 0xF2#8] := by decide +kernel

/-- The table word of LFSR_SEED 0x50 is the very next command after reset. -/
theorem test_step_runs_placed_word :
    decodeTableWord 72 0x5003 = some (.lfsrSeed 0x50#8) ∧
    (nextOf (step (State.reset.withFetchWord 72 0x5003))).map (fun t => (t.lfsr, t.trace)) =
      some (0x50#8, [.response .ok 0#32]) := by decide +kernel

/-! ## Sound small states -/

theorem txOk_fresh : TxOk fresh := ⟨by decide, by decide, rfl, rfl⟩
theorem rxOk_fresh : RxOk fresh := ⟨by decide, by decide, by decide, rfl, rfl⟩
theorem txOk_full : TxOk full := ⟨by decide, by decide, by decide, by decide⟩

theorem cfg4_wf : cfg4.wf := by decide

theorem txOk_loading (answers : List (List Byte)) : TxOk (loading answers) := ⟨cfg4_wf.1, Nat.zero_le _, rfl, rfl⟩

/-- A host that presents one command word. -/
def withWord (word : Command) (s : State) : State := { s with host := [.command word [] true] }

theorem sound_linked (host : List HostMove) : Sound { linked with host := host } :=
  ⟨cfg4_wf, ⟨cfg4_wf.1, Nat.zero_le _, rfl, rfl⟩, ⟨cfg4_wf.2.1, Nat.le_refl _, Nat.zero_le _, rfl, rfl⟩, rfl,
    fun _ h => absurd h (by simp [linked, fresh, State.resetOf]), rfl,
    fun _ h => absurd h (by simp [linked, fresh, State.resetOf])⟩

theorem sound_failed (host : List HostMove) : Sound { failed with host := host } :=
  ⟨cfg4_wf, ⟨cfg4_wf.1, Nat.zero_le _, rfl, rfl⟩, ⟨cfg4_wf.2.1, Nat.le_refl _, Nat.zero_le _, rfl, rfl⟩, rfl,
    fun _ h => absurd h (by simp [failed, fresh, State.resetOf]), .inr (.inr (.inr rfl)),
    fun _ h => absurd h (by simp [failed, fresh, State.resetOf])⟩

/-- A sound state in the middle of a load: two attempts left for the last acknowledgement. -/
def waiting : State :=
  { loading [] with busy := true, running := some (.load .eepromVerify .eeprom 8#32 2) }

theorem sound_waiting : Sound waiting :=
  ⟨by decide, ⟨by decide, by decide, rfl, rfl⟩, ⟨by decide, by decide, by decide, rfl, rfl⟩, rfl,
    fun p h => by
      cases Option.some.inj h
      exact ⟨by decide, by decide, rfl, rfl, .inr rfl⟩,
    rfl, fun _ h => absurd h (by simp [waiting, loading, linked, fresh, State.resetOf])⟩

/-! ## A witness for each obligation with hypotheses -/

theorem witness_DecodeOfEncode : (Instr.readReg 0x08#8).wellFormed = true ∧ Instr.shutdown.wellFormed = true := by
  decide

theorem witness_EncodeOfDecode : decode 0x802#72 = .ok (.readReg 0x08#8) := by decide +kernel

theorem witness_EncodedBytesAreFramed :
    0x92#8 ∈ encodeWord 0#32 ∧ (encodeWord 4#32)[0]? = some 0xD2#8 ∧ (encodeWord 4#32)[9]? = some 0x92#8 ∧
      (encodeWord 4#32)[10]? = some 0xF2#8 := by decide +kernel

theorem witness_ReceivedByteClassification : 0xFD#8 ≠ 0xFE#8 ∧ 0xFD#8 ≠ 0xFF#8 := by decide

theorem witness_LfsrCycle : 0x01#8 ≠ 0#8 ∧ 254 < 255 ∧ 0 < 1 := by decide

theorem witness_ResetIsSound : cfg4.wf ∧ ({ txCap := 1, rxCap := 1, maxImage := 0, kindCodes := .default } : Config).wf := by decide

theorem witness_BlockResetStep : ({ waiting with host := [.blockReset] } : State).host = .blockReset :: [] ∧
    ({ failed with host := [.blockReset] } : State).host = .blockReset :: [] := ⟨rfl, rfl⟩

theorem witness_InitResetsTheSession : full.busy = false ∧ failed.busy = false := by decide

theorem witness_ReadRegAnswersTheRegister :
    full.busy = false ∧ full.txcur < 2 ^ 32 ∧ full.rxcur < 2 ^ 32 ∧ full.rxlen < 2 ^ 32 ∧ full.cfg.txCap < 2 ^ 32 ∧
      full.cfg.rxCap < 2 ^ 32 ∧ full.cfg.maxImage < 2 ^ 32 ∧
      ({ full with txcur := 2 ^ 32 - 1 } : State).txcur < 2 ^ 32 := by decide

theorem witness_ReadRegAboveTheMapIsIllegal : fresh.busy = false ∧ 0x08#8 < 0x09#8 ∧ 0x08#8 < 0xFF#8 := by decide

theorem witness_Ready :
    Ready .lfsrSeed fresh ∧ Ready .lfsrSeed linked ∧ Ready .lfsrStep { linked with sess := .done } ∧
      Ready .appendByte fresh ∧ Ready .appendWord fresh ∧ Ready .flush fresh ∧ Ready .receiveBit fresh ∧
      Ready .handshake fresh ∧ Ready .waitForAck fresh ∧ Ready .loadImage linked ∧ Ready .shutdown linked := by decide

/-- LFSR_SEED 0x00 and LFSR_STEP from the fixed point are in the statements' range. -/
theorem witness_LfsrSeedLoadsTheRegister : Ready .lfsrSeed fresh := by decide
theorem witness_LfsrStepAdvancesTheRegister : Ready .lfsrStep fresh := by decide

/-- Room for the last byte, and no room. -/
theorem witness_AppendByteStoresOneByte :
    (Ready .appendByte { full with txcur := 3 } ∧ 1 ≤ cfg4.txCap ∧ ({ full with txcur := 3 } : State).txcur < cfg4.txCap) ∧
    (Ready .appendByte full ∧ full.txcur = full.cfg.txCap ∧ CallsReturn full ∧ Memory.wf full.txbuf = true) := by decide

theorem witness_AppendWordAppendsElevenBytes : Ready .appendWord full ∧ TxOk full ∧ CallsReturn full :=
  ⟨by decide, txOk_full, rfl⟩

theorem witness_FlushSendsThePendingBytes :
    (Ready .flush fresh ∧ fresh.txcur = 0) ∧ (Ready .flush full ∧ 0 < full.txcur ∧ full.txcur ≤ full.cfg.txCap ∧ CallsReturn full) ∧
      0 < ({ full with txcur := 1 } : State).txcur := by decide

/-- A full buffer, and calls that return; each operation ends there. -/
theorem witness_TransmitCursorBounds :
    1 ≤ full.cfg.txCap ∧ full.txcur ≤ full.cfg.txCap ∧ CallsReturn full ∧
      appendByte 0x9B#8 full = .done () { full with
        txbuf := writeByte full.txbuf 0 0x9B#8, txcur := 1, trace := [.ttransmit (pendingBytes full)] } ∧
      flush full = .done () { full with txcur := 0, trace := [.ttransmit (pendingBytes full)] } := by decide +kernel

theorem witness_ShutdownSendsTheShutdownWord :
    Ready .shutdown (loading []) ∧ TxOk (loading []) ∧ CallsReturn (loading []) := ⟨by decide, txOk_loading [], rfl⟩

/-- APPEND_BYTE 0x9B with a full buffer. -/
theorem witness_WireOrderIsAppendOrder :
    TxOk (withWord 0x9B05#72 full) ∧ resetsNext (withWord 0x9B05#72 full) = false ∧
      commandOf (withWord 0x9B05#72 full) ≠ some .init ∧ (nextOf (step (withWord 0x9B05#72 full))).isSome = true :=
  ⟨⟨by decide, by decide, by decide, by decide⟩, by decide, by decide +kernel, by decide +kernel⟩

/-- A window with one bit left, and one answer that is needed. -/
theorem witness_ReceiveBitAnswersTheNextBit :
    (Ready .receiveBit { fresh with answers := [[0xF9#8], [0xFF#8, 0xFE#8], []] } ∧
      Refills cfg4 [[0xF9#8], [0xFF#8, 0xFE#8]] ∧ incomingBits fresh [[0xF9#8], [0xFF#8, 0xFE#8]] = true :: [false]) ∧
    RxOk fresh :=
  ⟨by decide, rxOk_fresh⟩

theorem witness_ReceiveBitTimesOut :
    (Ready .receiveBit fresh ∧ Refills cfg4 [[0x12#8]] ∧ incomingBits fresh [[0x12#8]] = []) ∧
      (Refills cfg4 [] ∧ incomingBits fresh [] = []) ∧ RxOk fresh := ⟨by decide, by decide, rxOk_fresh⟩

/-- Two calls of the transport: the automatic flush of a full buffer, and the flush of the probe. -/
def twoCalls (returns : List Bool) : State := { withWord 0x10A#72 full with answers := [[0xFE#8]], returns := returns }

/-- Noise answers; a step with two calls of which none, the first or the second never returns; the state of a call that
never returns. -/
theorem witness_HangingCommandsStayInProgress :
    ((Ready .receiveBit { fresh with answers := [[0x12#8], [0xF9#8, 0x00#8, 0xFD#8, 0x92#8]] } ∧
        Ready .handshake { fresh with answers := [[0x12#8], [0xF9#8, 0x00#8, 0xFD#8, 0x92#8]] } ∧
        Refills cfg4 [[0x12#8], [0xF9#8, 0x00#8, 0xFD#8, 0x92#8]] ∧
        incomingBits fresh [[0x12#8], [0xF9#8, 0x00#8, 0xFD#8, 0x92#8]] = [] ∧ CallsReturn fresh) ∧
      TxOk fresh ∧ RxOk fresh) ∧
    ((nextOf (step (twoCalls []))).map (fun t => transportCalls t.trace) = some (transportCalls (twoCalls []).trace + 2) ∧
      false ∉ (twoCalls [true, true]).returns.take 2 ∧
      (0 < 2 ∧ false ∉ (twoCalls [false]).returns.take 0 ∧ (twoCalls [false]).returns[0]? = some false) ∧
      (1 < 2 ∧ false ∉ (twoCalls [true, false]).returns.take 1 ∧ (twoCalls [true, false]).returns[1]? = some false)) ∧
    (nextOf (step (twoCalls [true, false]))).map (fun t => (t.busy, t.running, resetsNext t)) =
      some (true, some (.hung .waitForAck), false) :=
  ⟨⟨by decide, txOk_fresh, rxOk_fresh⟩, by decide +kernel, by decide +kernel⟩

/-- The same two bytes in one answer and in two. -/
theorem witness_RefillDivisionDoesNotMatter :
    (Refills cfg4 [[0xF9#8, 0xFF#8]] ∧ Refills cfg4 [[0xF9#8], [0xFF#8]] ∧
      windowBytes fresh ++ [[0xF9#8, 0xFF#8]].flatten = windowBytes fresh ++ [[0xF9#8], [0xFF#8]].flatten ∧
      (nextOf (exec (.receiveBit 1#32) { fresh with answers := [[0xF9#8, 0xFF#8]] })).map (·.busy) = some false) ∧
    RxOk fresh := ⟨by decide +kernel, rxOk_fresh⟩

/-- The last attempt of a budget of 2, and the first of a budget of 1. -/
theorem witness_WaitForAckAcknowledged :
    Ready .waitForAck full ∧ TxOk full ∧ CallsReturn full ∧ 1 < (2#32).toNat ∧ 0 < (1#32).toNat ∧
      ({ full with answers := [[], [0xFE#8]] } : State).answers = ackAnswers 1 ++ [] :=
  ⟨by decide, txOk_full, rfl, by decide, by decide, rfl⟩

theorem witness_WaitForAckNak :
    Ready .waitForAck full ∧ TxOk full ∧ CallsReturn full ∧ 1 < (2#32).toNat ∧ 0xFF#8 ≠ 0xFE#8 ∧
      ({ full with answers := [[], [0xFF#8]] } : State).answers = List.replicate 1 [] ++ [0xFF#8] :: [] :=
  ⟨by decide, txOk_full, rfl, by decide, by decide, rfl⟩

/-- A budget of 0, with nothing to answer, and a budget of 1. -/
theorem witness_WaitForAckSilence :
    Ready .waitForAck full ∧ TxOk full ∧ CallsReturn full ∧ full.answers = List.replicate (0#32).toNat [] ++ [] ∧
      ({ full with answers := [[]] } : State).answers = List.replicate (1#32).toNat [] ++ [] ∧ 1#32 ≠ 0#32 :=
  ⟨by decide, txOk_full, rfl, rfl, rfl, by decide⟩

/-- The correct echo and version 1 in answers of one byte, for a window of four (spec/95_test_vectors.md W5). -/
def echo (n : Nat) : List (List Byte) :=
  ((responseBits ++ [true, false, false, false, false, false, false, false]).take n).map fun b => [patternByte b]

theorem witness_HandshakeSucceeds :
    (Ready .handshake { fresh with answers := echo 258 } ∧ Refills cfg4 (echo 258) ∧
      incomingBits fresh (echo 258) =
        responseBits ++ [true, false, false, false, false, false, false, false] ++ []) ∧
    TxOk fresh ∧ RxOk fresh ∧ CallsReturn fresh := ⟨by decide +kernel, txOk_fresh, rxOk_fresh, rfl⟩

/-- A difference at bit 0 and at bit 249. -/
theorem witness_HandshakeMismatch :
    (Ready .handshake fresh ∧
      (Refills cfg4 [[0xFF#8]] ∧ responseBits[0]? = some (!true) ∧
        incomingBits fresh [[0xFF#8]] = responseBits.take 0 ++ true :: []) ∧
      (Refills cfg4 (echo 249 ++ [[0xFF#8]]) ∧ responseBits[249]? = some (!true) ∧
        incomingBits fresh (echo 249 ++ [[0xFF#8]]) = responseBits.take 249 ++ true :: [])) ∧
    TxOk fresh ∧ RxOk fresh ∧ CallsReturn fresh := ⟨by decide +kernel, txOk_fresh, rxOk_fresh, rfl⟩

/-- Silence before response bit 0 and before bit 249, before version bit 0 and before the last one. -/
theorem witness_HandshakeTimesOut :
    (Ready .handshake fresh ∧ Refills cfg4 [] ∧ incomingBits fresh [] = responseBits.take 0 ∧
      Refills cfg4 (echo 249) ∧ incomingBits fresh (echo 249) = responseBits.take 249 ∧
      Refills cfg4 (echo 250) ∧ incomingBits fresh (echo 250) = responseBits ++ [] ∧
      incomingBits fresh (echo 257) = responseBits ++ [true, false, false, false, false, false, false]) ∧
    TxOk fresh ∧ RxOk fresh ∧ CallsReturn fresh := ⟨by decide +kernel, txOk_fresh, rxOk_fresh, rfl⟩

/-- The premises that every load statement shares: the largest image of the instance. -/
def loadPremises (s : State) : Prop :=
  Ready .loadImage s ∧ TxOk s ∧ CallsReturn s ∧ (8#32).toNat % 4 = 0 ∧ (8#32).toNat ≤ s.cfg.maxImage ∧
    (8#32).toNat ≤ s.image.length

theorem loadPremises_loading (answers : List (List Byte)) (held : Bool) :
    loadPremises { loading answers with imageHeld := held } :=
  ⟨⟨rfl, rfl⟩, ⟨cfg4_wf.1, Nat.zero_le _, rfl, rfl⟩, rfl, by decide, Nat.le_refl 8, Nat.le_refl 8⟩

/-- The largest image, with the last attempt of the budget, and an image of no bytes. -/
theorem witness_LoadImageWithOneAck :
    loadPremises (loading (ackAnswers 399)) ∧ (loading (ackAnswers 399)).imageHeld = true ∧ (0#32).toNat % 4 = 0 ∧
      399 < 400 ∧ (loading (ackAnswers 399)).answers = ackAnswers 399 ++ [] :=
  ⟨loadPremises_loading _ true, rfl, by decide, by decide, by simp [loading]⟩

/-- The last attempt of each of the three budgets. -/
theorem witness_LoadImageWithThreeAcks :
    loadPremises (loading (ackAnswers 399 ++ ackAnswers 199 ++ ackAnswers 79 ++ [])) ∧
      (loading (ackAnswers 399 ++ ackAnswers 199 ++ ackAnswers 79 ++ [])).imageHeld = true ∧
      399 < 400 ∧ 199 < 200 ∧ 79 < 80 :=
  ⟨loadPremises_loading _ true, rfl, by decide, by decide, by decide⟩

/-- A held image or another, and the answers to a load. -/
def loadingWith (held : Bool) (answers : List (List Byte)) : State := { loading answers with imageHeld := held }

/-- In each phase a NAK at the last attempt of the budget, and a budget spent in silence; a held image and another. -/
theorem witness_LoadImageShortCircuits :
    (AckFailure 400 (List.replicate 399 [] ++ [[0xFF#8]]) .error ∧ AckFailure 400 (List.replicate 400 []) .timeout ∧
      loadPremises (loadingWith true (List.replicate 399 [] ++ [[0xFF#8]] ++ [])) ∧
      loadPremises (loadingWith false (List.replicate 400 [] ++ []))) ∧
    (hasEeprom .eeprom = true ∧ 399 < 400 ∧
      AckFailure 200 (List.replicate 199 [] ++ [[0x00#8]]) .error ∧ AckFailure 200 (List.replicate 200 []) .timeout ∧
      loadPremises (loadingWith true (ackAnswers 399 ++ (List.replicate 199 [] ++ [[0x00#8]]) ++ [])) ∧
      loadPremises (loadingWith false (ackAnswers 399 ++ List.replicate 200 [] ++ []))) ∧
    (hasEeprom .eepromRun = true ∧ 199 < 200 ∧
      AckFailure 80 (List.replicate 79 [] ++ [[0xFF#8]]) .error ∧ AckFailure 80 (List.replicate 80 []) .timeout ∧
      loadPremises (loadingWith true (ackAnswers 399 ++ ackAnswers 199 ++ (List.replicate 79 [] ++ [[0xFF#8]]) ++ [])) ∧
      loadPremises (loadingWith false (ackAnswers 399 ++ ackAnswers 199 ++ List.replicate 80 [] ++ []))) :=
  ⟨⟨.nak (by decide) (by decide), .silence, loadPremises_loading _ _, loadPremises_loading _ _⟩,
    ⟨rfl, by decide, .nak (by decide) (by decide), .silence, loadPremises_loading _ _, loadPremises_loading _ _⟩,
    ⟨rfl, by decide, .nak (by decide) (by decide), .silence, loadPremises_loading _ _, loadPremises_loading _ _⟩⟩

/-- A size of 6, a size above MAX_IMAGE, a size above the image. -/
theorem witness_LoadImageChecksTheSize :
    Ready .loadImage (loading []) ∧ (6#32).toNat % 4 ≠ 0 ∧ (loading []).cfg.maxImage < (12#32).toNat ∧
      ({ loading [] with image := [0#8] } : State).image.length < (4#32).toNat := by decide

/-- One acknowledgement for a kind without EEPROM, three for one with it, at the last attempts of the budgets. -/
theorem witness_LoadImageWithChangingImage :
    (loadPremises { loading (ackAnswers 399 ++ []) with imageHeld := false } ∧
      loadPremises { loading (ackAnswers 399 ++ ackAnswers 199 ++ ackAnswers 79 ++ []) with imageHeld := false }) ∧
    399 < 400 ∧ 199 < 200 ∧ 79 < 80 :=
  ⟨⟨loadPremises_loading _ false, loadPremises_loading _ false⟩, by decide, by decide, by decide⟩

/-- A "no" of the gating table in each session state that has one. -/
theorem witness_SessionGating :
    (fresh.busy = false ∧ allowed (Instr.loadImage .run 8#32).opcode fresh.sess = false) ∧
    (linked.busy = false ∧ allowed Instr.handshake.opcode linked.sess = false) ∧
    (failed.busy = false ∧ allowed Instr.flush.opcode failed.sess = false) := by decide

/-- HANDSHAKE in LINKED ends PRECOND, READ_REG 9 ends ILLEGAL. -/
theorem witness_RefusalChangesOnlyLastStatus :
    (nextOf (runWord 0x09#72 linked)).map (fun t => (t.busy, t.lastStatus)) = some (false, .precond) ∧
    (nextOf (runWord 0x902#72 linked)).map (fun t => (t.busy, t.lastStatus)) = some (false, .illegal) ∧
    linked.busy = false := by decide +kernel

theorem witness_IllegalWordEndsIllegal :
    (withWord 0x0D#72 failed).host = .command 0x0D#72 [] true :: [] ∧ (withWord 0x0D#72 failed).busy = false ∧
      0x0D#8 ≤ cmdOp 0x0D#72 ∧ cmdOp 0x00#72 = 0x00#8 ∧
      (Opcode.loadImage.code = cmdOp 0x40B#72 ∧ cmdArg0 0x40B#72 >>> Opcode.loadImage.arg0Bits ≠ 0#32) ∧
      (cmdOp 0x902#72 = 0x02#8 ∧ 0x08#8 < (cmdArg0 0x902#72).setWidth 8) := by decide +kernel

theorem witness_StepRunsTheDecodedCommand :
    (withWord 0x5003#72 fresh).host = .command 0x5003#72 [] true :: [] ∧ (withWord 0x5003#72 fresh).busy = false ∧
      decode 0x5003#72 = .ok (.lfsrSeed 0x50#8) := by decide +kernel

theorem witness_StatusFields :
    failed.hsState = .timeout ∧ failed.lastStatus = .ok ∧ failed.sess = .failed := by decide

theorem witness_StepWaitsForACommand : fresh.host = [] ∧ fresh.busy = false := by decide

theorem witness_CommandWhileBusyIsRefused : waiting.busy = true := by decide

/-- RECEIVE_BIT waits after one noise byte and goes on with another answer; FLUSH hangs and takes none. -/
theorem witness_WaitingCommandGoesOn :
    fresh.running = none ∧ resetsNext fresh = false ∧
      (nextOf (exec (.receiveBit 1#32) { fresh with answers := [[0xF9#8]] })).map (·.busy) = some true ∧
      (full.running = none ∧ resetsNext full = false ∧
        (nextOf (exec .flush { full with returns := [false], answers := [] })).map (·.busy) = some true) ∧
      ([[0xFF#8]] : List (List Byte)) ≠ [] := by decide +kernel

/-- Whichever way the free draw goes, one of the two clauses applies. -/
theorem witness_WaitingCommandDrawsAnAnswer :
    waiting.busy = true ∧ waiting.running = some (.load .eepromVerify .eeprom 8#32 2) ∧
      (∀ op, Pending.load .eepromVerify .eeprom 8#32 2 ≠ .hung op) ∧ waiting.answers = [] ∧
      resetsNext waiting = false ∧
      ((∃ a, Config.transportDraw waiting.draws = some a) ∨ Config.transportDraw waiting.draws = none) := by
  refine ⟨rfl, rfl, by simp, rfl, rfl, ?_⟩
  cases h : Config.transportDraw waiting.draws with
  | none => exact .inr rfl
  | some a => exact .inl ⟨a, rfl⟩

/-- SHUTDOWN in a TTransmit that never returns. -/
def hanging : State := { linked with busy := true, running := some (.hung .shutdown) }

theorem sound_hanging : Sound hanging :=
  ⟨cfg4_wf, ⟨cfg4_wf.1, Nat.zero_le _, rfl, rfl⟩, ⟨cfg4_wf.2.1, Nat.le_refl _, Nat.zero_le _, rfl, rfl⟩, rfl,
    fun p h => by
      cases Option.some.inj h
      exact ⟨rfl, rfl, by simp, by simp [hanging, linked]⟩,
    rfl, fun _ h => absurd h (by simp [hanging, linked, fresh, State.resetOf])⟩

/-- A sound state between commands, one inside a command that waits and one inside a command that hangs, each with a
next state. -/
theorem witness_StepKeepsSound :
    (Sound (withWord 0x0C#72 linked) ∧ (nextOf (step (withWord 0x0C#72 linked))).isSome = true) ∧ Sound waiting ∧
      (Sound hanging ∧ step hanging = .next hanging) :=
  ⟨⟨sound_linked _, by decide +kernel⟩, sound_waiting, sound_hanging, rfl⟩

theorem witness_SoundStatesDoNotFault : Sound (withWord 0x0C#72 linked) ∧ Sound waiting :=
  ⟨sound_linked _, sound_waiting⟩

theorem witness_FailedIsLeftOnlyByInit :
    (failed.sess = .failed ∧ failed.busy = false ∧ Instr.shutdown.opcode ≠ .init ∧ Instr.shutdown.opcode ≠ .readReg) ∧
    (Sound (withWord 0x01#72 failed) ∧
      (nextOf (step (withWord 0x01#72 failed))).map (fun t => decide (t.sess ≠ .failed)) = some true) :=
  ⟨by decide, sound_failed _, by decide +kernel⟩

/-- One step for each way the session changes: INIT, SHUTDOWN, a TIMEOUT, and the last version bit of a HANDSHAKE. -/
theorem witness_SessionChangesOnlyWhereListed :
    (nextOf (step (withWord 0x01#72 failed))).map (·.sess) = some .ready ∧
    (nextOf (step (withWord 0x0C#72 linked))).map (·.sess) = some .done ∧
    (nextOf (step (withWord 0x00A#72 fresh))).map (·.sess) = some .failed ∧
    (nextOf (step { fresh with busy := true, running := some (.version 1 0#8), answers := [[0xFE#8]] })).map
      (fun t => (t.busy, t.lastStatus, t.sess)) = some (false, .ok, .linked) ∧
    commandOf { fresh with busy := true, running := some (.version 1 0#8) } = some .handshake ∧
    resetsNext { fresh with host := [.blockReset] } = true := by decide +kernel

/-- A step that writes LFSR, one that writes RXCUR, one that writes TXCUR. -/
theorem witness_RegistersHaveTheirWriters :
    (nextOf (step (withWord 0x5003#72 fresh))).map (fun t => decide (t.lfsr ≠ fresh.lfsr)) = some true ∧
    (nextOf (step (withWord 0x08#72 { fresh with answers := [[0xFF#8]] }))).map (fun t => decide (t.rxcur ≠ 0)) =
      some true ∧
    (nextOf (step (withWord 0x9B05#72 fresh))).map (fun t => decide (t.txcur ≠ 0)) = some true ∧
    resetsNext (withWord 0x5003#72 fresh) = false ∧ commandOf (withWord 0x5003#72 fresh) ≠ some .init := by
  decide +kernel

theorem witness_StepKeepsParametersAndEvents : (nextOf (step (withWord 0x07#72 full))).isSome = true := by decide +kernel

theorem witness_OneResponsePerCommand :
    (resetsNext (withWord 0x07#72 full) = false ∧ acceptsNext (withWord 0x07#72 full) = true ∧
      (nextOf (step (withWord 0x07#72 full))).isSome = true) ∧
    (resetsNext { waiting with host := [.blockReset] } = true ∧
      (nextOf (step { waiting with host := [.blockReset] })).isSome = true) := by decide +kernel

theorem witness_ResponseEndsTheCommand :
    (nextOf (step (withWord 0x07#72 full))).map
      (fun t => decide (responseCount (withWord 0x07#72 full).trace < responseCount t.trace)) = some true := by
  decide +kernel

end Sys2Proof.Tests
end

section
/-! What a step can do (spec/40_control.md R110, R111), said once. -/

namespace Sys2Proof.Machine

open Sys2Proof

/-- The rule of a command, behind dispatch (spec/40_control.md R111). -/
def ruleOf (i : Instr) (s : State) : Flow Word :=
  match i with
  | .init => .done 0#32 (reinit s)
  | .readReg index =>
    match regValue s index with
    | some data => .done data s
    | none => .fail .illegal s
  | .lfsrSeed seed => .done 0#32 { s with lfsr := seed }
  | .lfsrStep => .done (bit32 (lfsrBit s.lfsr)) (lfsrStep s)
  | .appendByte byte => (appendByte byte s).bind fun _ s => .done 0#32 s
  | .appendWord value => (appendWord value s).bind fun _ s => .done 0#32 s
  | .flush => (flush s).bind fun _ s => .done 0#32 s
  | .receiveBit timeoutMs => receiveBitRule timeoutMs s
  | .handshake => handshakeRule s
  | .waitForAck maxRetries => (waitForAck .waitForAck maxRetries.toNat s).bind fun _ s => .done 0#32 s
  | .loadImage kind size => loadRule kind size s
  | .shutdown => shutdownRule s

/-- A command's effect is dispatch of its rule. -/
theorem exec_eq_dispatch (i : Instr) (s : State) : exec i s = dispatch i.opcode (ruleOf i) s := by
  cases i <;> rfl

/-- Everything a step that answers a next state can be. -/
inductive StepTo (s : State) : State → Prop where
  /-- Block reset. -/
  | reset {rest : List HostMove} (next : s.host = .blockReset :: rest) : StepTo s (blockReset { s with host := rest })
  /-- The block waits for a command. -/
  | idle (next : s.host = []) (ready : s.busy = false) : StepTo s s
  /-- The command in progress is in a call that never returns. -/
  | hangs {op : Opcode} (next : resetsNext s = false) (busy : s.busy = true) (stands : s.running = some (.hung op)) :
    StepTo s s
  /-- The TReceive of the command in progress has not returned yet. -/
  | waits {p : Pending} (next : resetsNext s = false) (busy : s.busy = true) (stands : s.running = some p) :
    StepTo s { s with draws := s.draws + 1 }
  /-- The command in progress goes on with an answer. -/
  | goesOn {p : Pending} {n : Nat} {answers : List (List Byte)} {t : State} (next : resetsNext s = false)
    (busy : s.busy = true) (stands : s.running = some p) (ends : ∀ op, p ≠ .hung op)
    (settles : settle (pendingOpcode p)
      (resumeRule p { s with draws := n, answers := answers, running := none }) = .next t) : StepTo s t
  /-- The command is turned down: its word is illegal, or the session does not allow it. -/
  | turnsDown {word : Command} {image : List Byte} {held : Bool} {rest : List HostMove} {st : Status}
    (next : s.host = .command word image held :: rest) (ready : s.busy = false)
    (reason : (∃ i, decode word = .ok i ∧ allowed i.opcode s.sess = false ∧ st = .precond) ∨
      ∃ e, decode word = .error e ∧ st = .illegal) :
    StepTo s (complete st 0#32 (accept (presented image held rest s)))
  /-- The command runs from its acceptance. -/
  | runs {word : Command} {image : List Byte} {held : Bool} {rest : List HostMove} {i : Instr} {t : State}
    (next : s.host = .command word image held :: rest) (ready : s.busy = false) (decodes : decode word = .ok i)
    (allows : allowed i.opcode s.sess = true)
    (settles : settle i.opcode (ruleOf i (accept (presented image held rest s))) = .next t) : StepTo s t

theorem continueCommand_next {s t : State} (hr : resetsNext s = false) (hb : s.busy = true)
    (h : continueCommand s = .next t) : StepTo s t := by
  unfold continueCommand at h
  split at h
  · cases h
  · next op hrun => cases h; exact .hangs hr hb hrun
  · next p hp hrun =>
    split at h
    · exact .goesOn hr hb hrun hp h
    · split at h
      · next u hdraw =>
        unfold drawAnswer at hdraw
        split at hdraw
        · cases hdraw; exact .goesOn hr hb hrun hp h
        · cases hdraw
      · cases h; exact .waits hr hb hrun

theorem runWord_next {s t : State} {word : Command} {image : List Byte} {held : Bool} {rest : List HostMove}
    (hh : s.host = .command word image held :: rest) (hb : s.busy = false)
    (h : runWord word (presented image held rest s) = .next t) : StepTo s t := by
  unfold runWord at h
  split at h
  · next i hi =>
    rw [exec_eq_dispatch] at h
    rcases dispatch_cases i.opcode (ruleOf i) (presented image held rest s) with
      ⟨hbusy, _⟩ | ⟨_, hsess, hgated⟩ | ⟨⟨_, hallow⟩, hrun⟩
    · exact absurd (hb.symm.trans hbusy) (by decide)
    · rw [hgated] at h
      cases h
      exact .turnsDown hh hb (.inl ⟨i, hi, hsess, rfl⟩)
    · rw [hrun] at h
      exact .runs hh hb hi hallow h
  · next e he =>
    have hill : dispatchIllegal (presented image held rest s) =
        .next (complete .illegal 0#32 (accept (presented image held rest s))) := by simp [dispatchIllegal, hb]
    rw [hill] at h
    cases h
    exact .turnsDown hh hb (.inr ⟨e, he, rfl⟩)

/-- Every step that answers a next state is one of these. -/
theorem step_next {s t : State} (h : step s = .next t) : StepTo s t := by
  unfold step stepBlock at h
  split at h
  · next rest hh => cases h; exact .reset hh
  · next word image held rest hh =>
    cases hb : s.busy with
    | true => exact continueCommand_next (by simp [resetsNext, hh]) hb (by simpa [hb] using h)
    | false => exact runWord_next hh hb (by simpa [hb] using h)
  · next hh =>
    cases hb : s.busy with
    | true => exact continueCommand_next (by simp [resetsNext, hh]) hb (by simpa [hb] using h)
    | false =>
      have hst : s = t := by simpa [hb] using h
      subst hst
      exact .idle hh hb

/-! ## The command of a step -/

@[simp] theorem resetsNext_blockReset {s : State} {rest : List HostMove} (h : s.host = .blockReset :: rest) :
    resetsNext s = true := by simp [resetsNext, h]

theorem resetsNext_command {s : State} {word : Command} {image : List Byte} {held : Bool} {rest : List HostMove}
    (h : s.host = .command word image held :: rest) : resetsNext s = false := by simp [resetsNext, h]

theorem commandOf_busy {s : State} {p : Pending} (hr : resetsNext s = false) (hb : s.busy = true)
    (h : s.running = some p) : commandOf s = some (pendingOpcode p) := by simp [commandOf, hr, hb, h]

theorem commandOf_decodes {s : State} {word : Command} {image : List Byte} {held : Bool} {rest : List HostMove}
    {i : Instr} (h : s.host = .command word image held :: rest) (hb : s.busy = false) (hi : decode word = .ok i) :
    commandOf s = some i.opcode := by simp [commandOf, resetsNext, h, hb, hi]

theorem commandOf_illegal {s : State} {word : Command} {image : List Byte} {held : Bool} {rest : List HostMove}
    {e : DecodeError} (h : s.host = .command word image held :: rest) (hb : s.busy = false)
    (he : decode word = .error e) : commandOf s = none := by simp [commandOf, resetsNext, h, hb, he]

end Sys2Proof.Machine
end

section
/-! What a step writes, however it ends: the session, the registers and the buffers of each command, in every state
(spec/10_state.md R22, R24). -/

namespace Sys2Proof.Machine

open Sys2Proof

/-! ## A raised status is never OK -/

/-- The flow does not raise OK. -/
def Flow.raisesNoOk {α : Type} (x : Flow α) : Prop :=
  match x with
  | .fail st _ => st ≠ .ok
  | _ => True

theorem Flow.raisesNoOk_bind {α β : Type} {x : Flow α} {f : α → State → Flow β} (hx : x.raisesNoOk)
    (hf : ∀ a s, (f a s).raisesNoOk) : (x.bind f).raisesNoOk := by
  cases x with
  | done a s => exact hf a s
  | fail st s => exact hx
  | _ => trivial

theorem Flow.raisesNoOk_waitingAs {α : Type} {x : Flow α} (hx : x.raisesNoOk) (p : Pending) :
    (x.waitingAs p).raisesNoOk := by
  cases x with
  | fail st s => exact hx
  | _ => trivial

theorem Flow.raisesNoOk_onFail {α : Type} {x : Flow α} (hx : x.raisesNoOk) (f : State → State) :
    (x.onFail f).raisesNoOk := by
  cases x with
  | fail st s => exact hx
  | _ => trivial

theorem callTransport_raisesNoOk (e : Event) (s : State) : (callTransport e s).raisesNoOk := by
  unfold callTransport
  split <;> trivial

theorem flush_raisesNoOk (s : State) : (flush s).raisesNoOk := by
  unfold flush
  split
  · trivial
  · split
    · exact Flow.raisesNoOk_bind (callTransport_raisesNoOk _ s) fun _ _ => trivial
    · trivial

theorem writeTx_raisesNoOk (a : Nat) (b : Byte) (s : State) : (writeTx a b s).raisesNoOk := by
  unfold writeTx
  split <;> trivial

theorem appendByte_raisesNoOk (b : Byte) (s : State) : (appendByte b s).raisesNoOk := by
  unfold appendByte
  refine Flow.raisesNoOk_bind ?_ fun _ t => Flow.raisesNoOk_bind (writeTx_raisesNoOk _ b t) fun _ _ => trivial
  split
  · exact flush_raisesNoOk s
  · trivial

theorem appendBytes_raisesNoOk (bs : List Byte) (s : State) : (appendBytes bs s).raisesNoOk := by
  induction bs generalizing s with
  | nil => trivial
  | cons b bs ih => exact Flow.raisesNoOk_bind (appendByte_raisesNoOk b s) fun _ t => ih t

theorem appendWord_raisesNoOk (v : Word) (s : State) : (appendWord v s).raisesNoOk := appendBytes_raisesNoOk _ s

theorem sendProbe_raisesNoOk (s : State) : (sendProbe s).raisesNoOk :=
  Flow.raisesNoOk_bind (appendByte_raisesNoOk _ s) fun _ t => flush_raisesNoOk t

theorem tReceive_raisesNoOk (n : Nat) (w : Word) (a : List Byte) (rest : List (List Byte)) (s : State) :
    (tReceive n w a rest s).raisesNoOk := by
  unfold tReceive
  split <;> trivial

theorem scanWindow_raisesNoOk (n : Nat) (s : State) : (scanWindow n s).raisesNoOk := by
  induction n generalizing s with
  | zero => trivial
  | succ n ih =>
    refine Flow.raisesNoOk_bind ?_ fun x t => ?_
    · unfold readRx
      split <;> trivial
    · dsimp only
      split
      · trivial
      · exact ih _

theorem receiveBitOver_raisesNoOk (w : Word) (answers : List (List Byte)) (s : State) :
    (receiveBitOver w answers s).raisesNoOk := by
  induction answers generalizing s with
  | nil =>
    refine Flow.raisesNoOk_bind (scanWindow_raisesNoOk _ s) fun found t => ?_
    cases found <;> trivial
  | cons a rest ih =>
    refine Flow.raisesNoOk_bind (scanWindow_raisesNoOk _ s) fun found t => ?_
    cases found with
    | some b => trivial
    | none =>
      refine Flow.raisesNoOk_bind (tReceive_raisesNoOk _ w a rest t) fun _ u => ?_
      dsimp only
      split
      · exact Status.noConfusion
      · exact ih _

theorem awaitAck_raisesNoOk (at_ : Nat → Pending) (answers : List (List Byte)) (k : Nat) (s : State) :
    (awaitAck at_ answers k s).raisesNoOk := by
  induction answers generalizing k s with
  | nil => trivial
  | cons a rest ih =>
    refine Flow.raisesNoOk_bind (tReceive_raisesNoOk _ _ a rest s) fun _ t => ?_
    cases a with
    | cons b bs =>
      dsimp only
      split
      · trivial
      · exact Status.noConfusion
    | nil =>
      dsimp only
      split
      · exact Status.noConfusion
      · exact Flow.raisesNoOk_bind (sendProbe_raisesNoOk t) fun _ u => ih _ u

theorem waitForAck_raisesNoOk (at_ : Nat → Pending) (n : Nat) (s : State) : (waitForAck at_ n s).raisesNoOk := by
  unfold waitForAck
  split
  · exact Status.noConfusion
  · exact Flow.raisesNoOk_bind (sendProbe_raisesNoOk s) fun _ t => awaitAck_raisesNoOk _ _ _ t

theorem sendPattern_raisesNoOk (n : Nat) (s : State) : (sendPattern n s).raisesNoOk := by
  induction n generalizing s with
  | zero => trivial
  | succ n ih => exact Flow.raisesNoOk_bind (appendByte_raisesNoOk _ _) fun _ t => ih t

theorem sendConnect_raisesNoOk (s : State) : (sendConnect s).raisesNoOk :=
  Flow.raisesNoOk_bind (callTransport_raisesNoOk _ _) fun _ _ =>
    Flow.raisesNoOk_bind (appendByte_raisesNoOk _ _) fun _ _ =>
      Flow.raisesNoOk_bind (sendPattern_raisesNoOk _ _) fun _ _ =>
        Flow.raisesNoOk_bind (appendBytes_raisesNoOk _ _) fun _ _ =>
          Flow.raisesNoOk_bind (flush_raisesNoOk _) fun _ _ => trivial

theorem hsReceive_raisesNoOk (w : Word) (p : Pending) (s : State) :
    (((receiveBit w s).waitingAs p).onFail handshakeTimeout).raisesNoOk :=
  Flow.raisesNoOk_onFail (Flow.raisesNoOk_waitingAs (receiveBitOver_raisesNoOk w _ s) p) _

theorem verifyResponse_raisesNoOk (n : Nat) (s : State) : (verifyResponse n s).raisesNoOk := by
  induction n generalizing s with
  | zero => trivial
  | succ n ih =>
    refine Flow.raisesNoOk_bind (hsReceive_raisesNoOk _ _ s) fun b t => ?_
    dsimp only
    split
    · exact ih _
    · exact Status.noConfusion

theorem receiveVersion_raisesNoOk (n : Nat) (acc : Byte) (s : State) : (receiveVersion n acc s).raisesNoOk := by
  induction n generalizing acc s with
  | zero => trivial
  | succ n ih => exact Flow.raisesNoOk_bind (hsReceive_raisesNoOk _ _ s) fun b t => ih _ t

theorem imageWord_raisesNoOk (o : Nat) (s : State) : (imageWord o s).raisesNoOk := by
  have hread : ∀ a t, (readImage a t).raisesNoOk := by
    intro a t
    unfold readImage
    split <;> trivial
  unfold imageWord
  split
  · exact Flow.raisesNoOk_bind (hread _ _) fun _ _ => Flow.raisesNoOk_bind (hread _ _) fun _ _ =>
      Flow.raisesNoOk_bind (hread _ _) fun _ _ => Flow.raisesNoOk_bind (hread _ _) fun _ _ => trivial
  · trivial

theorem streamWords_raisesNoOk (n o : Nat) (size : Word) (s : State) : (streamWords n o size s).raisesNoOk := by
  induction n generalizing o s with
  | zero => trivial
  | succ n ih =>
    exact Flow.raisesNoOk_bind (imageWord_raisesNoOk _ _) fun v t =>
      Flow.raisesNoOk_bind (appendWord_raisesNoOk v t) fun _ u => ih _ u

theorem sendImage_raisesNoOk (kind : LoadKind) (size : Word) (s : State) : (sendImage kind size s).raisesNoOk :=
  Flow.raisesNoOk_bind (appendWord_raisesNoOk _ s) fun _ t =>
    Flow.raisesNoOk_bind (appendWord_raisesNoOk _ t) fun _ u =>
      Flow.raisesNoOk_bind (streamWords_raisesNoOk _ _ _ u) fun _ v => flush_raisesNoOk v

theorem loadVerify_raisesNoOk (kind : LoadKind) (size : Word) (s : State) : (loadVerify kind size s).raisesNoOk :=
  Flow.raisesNoOk_bind (waitForAck_raisesNoOk _ _ _) fun _ _ => trivial

theorem loadWrite_raisesNoOk (kind : LoadKind) (size : Word) (s : State) : (loadWrite kind size s).raisesNoOk :=
  Flow.raisesNoOk_bind (waitForAck_raisesNoOk _ _ _) fun _ t => loadVerify_raisesNoOk kind size t

theorem afterAck_program (kind : LoadKind) (size : Word) (s : State) :
    afterAck .program kind size s = if hasEeprom kind then loadWrite kind size s else finishLoad size s := rfl

theorem afterAck_raisesNoOk (phase : AckPhase) (kind : LoadKind) (size : Word) (s : State) :
    (afterAck phase kind size s).raisesNoOk := by
  cases phase with
  | program =>
    rw [afterAck_program]
    split
    · exact loadWrite_raisesNoOk kind size s
    · trivial
  | eepromWrite => exact loadVerify_raisesNoOk kind size s
  | eepromVerify => trivial

theorem loadRule_raisesNoOk (kind : LoadKind) (size : Word) (s : State) : (loadRule kind size s).raisesNoOk := by
  unfold loadRule
  split
  · exact Status.noConfusion
  · split
    · exact Status.noConfusion
    · split
      · exact Status.noConfusion
      · exact Flow.raisesNoOk_bind (sendImage_raisesNoOk kind size s) fun _ t =>
          Flow.raisesNoOk_bind (waitForAck_raisesNoOk _ _ t) fun _ u => afterAck_raisesNoOk .program kind size u

theorem receiveBitRule_raisesNoOk (w : Word) (s : State) : (receiveBitRule w s).raisesNoOk :=
  Flow.raisesNoOk_bind (Flow.raisesNoOk_waitingAs (receiveBitOver_raisesNoOk w _ s) _) fun _ _ => trivial

theorem handshakeFromVersion_raisesNoOk (n : Nat) (acc : Byte) (s : State) :
    (handshakeFromVersion n acc s).raisesNoOk :=
  Flow.raisesNoOk_bind (receiveVersion_raisesNoOk n acc s) fun _ _ => trivial

theorem handshakeFromResponse_raisesNoOk (n : Nat) (s : State) : (handshakeFromResponse n s).raisesNoOk :=
  Flow.raisesNoOk_bind (verifyResponse_raisesNoOk n s) fun _ _ => handshakeFromVersion_raisesNoOk _ _ _

/-- No command's rule raises OK. -/
theorem ruleOf_raisesNoOk (i : Instr) (s : State) : (ruleOf i s).raisesNoOk := by
  cases i with
  | init => trivial
  | readReg index =>
    unfold ruleOf
    dsimp only
    split
    · trivial
    · exact Status.noConfusion
  | lfsrSeed seed => trivial
  | lfsrStep => trivial
  | appendByte byte => exact Flow.raisesNoOk_bind (appendByte_raisesNoOk byte s) fun _ _ => trivial
  | appendWord value => exact Flow.raisesNoOk_bind (appendWord_raisesNoOk value s) fun _ _ => trivial
  | flush => exact Flow.raisesNoOk_bind (flush_raisesNoOk s) fun _ _ => trivial
  | receiveBit w => exact receiveBitRule_raisesNoOk w s
  | handshake => exact Flow.raisesNoOk_bind (sendConnect_raisesNoOk s) fun _ _ => handshakeFromResponse_raisesNoOk _ _
  | waitForAck n => exact Flow.raisesNoOk_bind (waitForAck_raisesNoOk _ _ s) fun _ _ => trivial
  | loadImage kind size => exact loadRule_raisesNoOk kind size s
  | shutdown =>
    exact Flow.raisesNoOk_bind (appendWord_raisesNoOk _ s) fun _ t =>
      Flow.raisesNoOk_bind (flush_raisesNoOk t) fun _ _ => trivial

theorem resumeRule_raisesNoOk (p : Pending) (s : State) : (resumeRule p s).raisesNoOk := by
  cases p with
  | receiveBit w => exact receiveBitRule_raisesNoOk w s
  | response n => exact handshakeFromResponse_raisesNoOk n s
  | version n acc => exact handshakeFromVersion_raisesNoOk n acc s
  | waitForAck k => exact Flow.raisesNoOk_bind (awaitAck_raisesNoOk _ _ k s) fun _ _ => trivial
  | load phase kind size k =>
    exact Flow.raisesNoOk_bind (awaitAck_raisesNoOk _ _ k s) fun _ t => afterAck_raisesNoOk phase kind size t
  | hung op => trivial

/-! ## What the end of LOAD_IMAGE and of HANDSHAKE writes -/

/-- `t` is `s` after a LOAD_IMAGE that ended OK. -/
def LoadDone (s t : State) : Prop := ∃ u, AckFrame s u ∧ t = { u with sess := .done }

/-- `t` is `s` after a HANDSHAKE that ended OK. -/
def HandshakeDone (s t : State) : Prop := ∃ u version, HsFrame s u ∧ t = { u with version := version, sess := .linked }

theorem AckFrame.emit {s t : State} (h : AckFrame s t) {e : Event} (he : responseCount [e] = 0) :
    AckFrame s (t.emit e) := by
  refine ⟨?_, h.shows.trans ⟨[e], rfl, he⟩⟩
  have := h.frame
  simp only [State.emit]
  rw [this]

theorem LoadDone.of_ack {s t u : State} (h₁ : AckFrame s t) (h₂ : LoadDone t u) : LoadDone s u := by
  obtain ⟨v, hv, rfl⟩ := h₂
  exact ⟨v, h₁.trans hv, rfl⟩

theorem HandshakeDone.of_hs {s t u : State} (h₁ : HsFrame s t) (h₂ : HandshakeDone t u) : HandshakeDone s u := by
  obtain ⟨v, x, hv, rfl⟩ := h₂
  exact ⟨v, x, h₁.trans hv, rfl⟩

/-- A flow that leaves LOAD_IMAGE's frame, and its end where it runs to its end. -/
abbrev Flow.loads (x : Flow Word) (s : State) : Prop := x.leaves (fun _ => LoadDone s) (AckFrame s)

/-- A flow that leaves HANDSHAKE's frame, and its end where it runs to its end. -/
abbrev Flow.links (x : Flow Word) (s : State) : Prop := x.leaves (fun _ => HandshakeDone s) (HsFrame s)

theorem Flow.loads_of_ack {x : Flow Word} {s t : State} (h : AckFrame s t) (hx : x.loads t) : x.loads s :=
  Flow.leaves_mono hx (fun _ _ => LoadDone.of_ack h) fun _ => h.trans

theorem Flow.links_of_hs {x : Flow Word} {s t : State} (h : HsFrame s t) (hx : x.links t) : x.links s :=
  Flow.leaves_mono hx (fun _ _ => HandshakeDone.of_hs h) fun _ => h.trans

theorem Flow.loads_bind {α : Type} {x : Flow α} {f : α → State → Flow Word} {s : State} (hx : x.keeps (AckFrame s))
    (hf : ∀ a t, (f a t).loads t) : (x.bind f).loads s :=
  Flow.leaves_bind hx fun a t ht => Flow.loads_of_ack ht (hf a t)

theorem Flow.links_bind {α : Type} {x : Flow α} {f : α → State → Flow Word} {s : State} (hx : x.keeps (HsFrame s))
    (hf : ∀ a t, (f a t).links t) : (x.bind f).links s :=
  Flow.leaves_bind hx fun a t ht => Flow.links_of_hs ht (hf a t)

theorem finishLoad_loads (size : Word) (s : State) : (finishLoad size s).loads s :=
  ⟨_, (AckFrame.refl s).emit (e := .progress .done 0#32 size) rfl, rfl⟩

theorem loadAck_loads (phase : AckPhase) (kind : LoadKind) (size : Word) {e : Event} (he : responseCount [e] = 0)
    (s : State) {f : Unit → State → Flow Word} (hf : ∀ a t, (f a t).loads t) :
    ((loadAck phase kind size (s.emit e)).bind f).loads s :=
  Flow.loads_of_ack ((AckFrame.refl s).emit he) (Flow.loads_bind (waitForAck_keeps _ _ _) hf)

theorem loadVerify_loads (kind : LoadKind) (size : Word) (s : State) : (loadVerify kind size s).loads s :=
  loadAck_loads .eepromVerify kind size rfl s fun _ t => finishLoad_loads size t

theorem loadWrite_loads (kind : LoadKind) (size : Word) (s : State) : (loadWrite kind size s).loads s :=
  loadAck_loads .eepromWrite kind size rfl s fun _ t => loadVerify_loads kind size t

theorem afterAck_loads (phase : AckPhase) (kind : LoadKind) (size : Word) (s : State) :
    (afterAck phase kind size s).loads s := by
  cases phase with
  | program =>
    rw [afterAck_program]
    split
    · exact loadWrite_loads kind size s
    · exact finishLoad_loads size s
  | eepromWrite => exact loadVerify_loads kind size s
  | eepromVerify => exact finishLoad_loads size s

theorem loadRule_loads (kind : LoadKind) (size : Word) (s : State) : (loadRule kind size s).loads s := by
  unfold loadRule
  split
  · exact AckFrame.refl s
  · split
    · exact AckFrame.refl s
    · split
      · exact AckFrame.refl s
      · exact Flow.loads_bind (sendImage_keeps kind size s) fun _ t =>
          Flow.loads_bind (waitForAck_keeps _ _ t) fun _ u => afterAck_loads .program kind size u

theorem shutdownRule_loads (s : State) : (shutdownRule s).loads s :=
  Flow.loads_bind (Flow.keeps_mono (appendWord_keeps _ s) fun _ => TxFrame.toAck) fun _ t =>
    Flow.loads_bind (Flow.keeps_mono (flush_keeps t) fun _ => TxFrame.toAck) fun _ u => ⟨u, .refl u, rfl⟩

theorem finishHandshake_links (version : Byte) (s : State) : (finishHandshake version s).links s :=
  ⟨_, version, ((HsFrame.refl s).emit (e := .progress .handshakeDone 0#32 0#32) rfl).hsState .done, rfl⟩

theorem handshakeFromVersion_links (n : Nat) (acc : Byte) (s : State) : (handshakeFromVersion n acc s).links s :=
  Flow.links_bind (receiveVersion_keeps n acc s) fun v t => finishHandshake_links v t

theorem handshakeFromResponse_links (n : Nat) (s : State) : (handshakeFromResponse n s).links s :=
  Flow.links_bind (verifyResponse_keeps n s) fun _ t =>
    Flow.links_of_hs (((HsFrame.refl t).emit (e := .progress .versionStart 0#32 0#32) rfl).hsState .versionAwaited)
      (handshakeFromVersion_links _ _ _)

theorem handshakeRule_links (s : State) : (handshakeRule s).links s :=
  Flow.links_bind (sendConnect_keeps s) fun _ t => handshakeFromResponse_links 250 t

end Sys2Proof.Machine
end

section
/-! The writers of each register, and what a whole step does (spec/10_state.md R22, R24). -/

namespace Sys2Proof.Machine

open Sys2Proof

/-! ## The writers of each element of state -/

/-- The commands but INIT that write LFSR. -/
abbrev lfsrWriters : List Opcode := [.lfsrSeed, .lfsrStep, .handshake]

/-- The commands but INIT that write the receive window. -/
abbrev windowWriters : List Opcode := [.receiveBit, .handshake]

/-- The commands but INIT that write the transmit buffer. -/
abbrev bufferWriters : List Opcode :=
  [.appendByte, .appendWord, .flush, .handshake, .waitForAck, .loadImage, .shutdown]

/-- SESS where a command but INIT ends OK (spec/10_state.md R24). -/
def sessAfter (op : Opcode) (sess : Sess) : Sess :=
  match op with
  | .handshake => .linked
  | .loadImage => .done
  | .shutdown => .done
  | _ => sess

/-- `t` is `s` after a stretch of the command `op`, not INIT: only registers of its own are written, SESS and VERSION
left aside. -/
structure WritesOwn (op : Opcode) (s t : State) : Prop where
  notInit : op ≠ .init
  lfsr : t.lfsr = s.lfsr ∨ op ∈ lfsrWriters
  hsState : t.hsState = s.hsState ∨ op = .handshake
  window : (t.rxbuf = s.rxbuf ∧ t.rxcur = s.rxcur ∧ t.rxlen = s.rxlen) ∨ op ∈ windowWriters
  buffer : (t.txbuf = s.txbuf ∧ t.txcur = s.txcur) ∨ op ∈ bufferWriters

/-- `t` is `s` after such a stretch, before the response: the parameters are kept, and the events added are no
responses. -/
structure Touches (op : Opcode) (s t : State) : Prop extends WritesOwn op s t where
  cfg : t.cfg = s.cfg
  shows : Shows s t

/-- The command `op` is not at its end: SESS and VERSION are as they were. -/
structure Midway (op : Opcode) (s t : State) : Prop extends Touches op s t where
  sess : t.sess = s.sess
  version : t.version = s.version
  busy : t.busy = true

/-- The command `op` ran to its end. -/
structure Ended (op : Opcode) (s t : State) : Prop extends Touches op s t where
  sess : t.sess = sessAfter op s.sess
  version : t.version = s.version ∨ op = .handshake

theorem Midway.refl {op : Opcode} {s : State} (hop : op ≠ .init) (hb : s.busy = true) : Midway op s s :=
  ⟨⟨⟨hop, .inl rfl, .inl rfl, .inl ⟨rfl, rfl, rfl⟩, .inl ⟨rfl, rfl⟩⟩, rfl, .refl s⟩, rfl, rfl, hb⟩

/-- A command that writes SESS and VERSION nowhere is at its end what it is on the way. -/
theorem Midway.ended {op : Opcode} {s t : State} (h : Midway op s t) (hop : sessAfter op s.sess = s.sess) :
    Ended op s t := ⟨h.toTouches, h.sess.trans hop.symm, .inl h.version⟩

/-- VERSION, SESS and the control state are left aside. -/
theorem Touches.withEnd {op : Opcode} {s t : State} (h : Touches op s t) (version : Byte) (sess : Sess)
    (running : Option Pending) : Touches op s { t with version := version, sess := sess, running := running } :=
  ⟨⟨h.notInit, h.lfsr, h.hsState, h.window, h.buffer⟩, h.cfg, h.shows⟩

theorem AckFrame.midway {op : Opcode} {s t : State} (h : AckFrame s t) (hb : s.busy = true)
    (hop : op ∈ bufferWriters) : Midway op s t := by
  have hf := h.frame
  have hinit : op ≠ .init := by rintro rfl; simp at hop
  refine ⟨⟨⟨hinit, .inl ?_, .inl ?_, .inl ⟨?_, ?_, ?_⟩, .inr hop⟩, ?_, h.shows⟩, ?_, ?_, ?_⟩
  all_goals rw [hf]
  exact hb

theorem RxFrame.midway {op : Opcode} {s t : State} (h : RxFrame s t) (hb : s.busy = true)
    (hop : op ∈ windowWriters) : Midway op s t := by
  have hf := h.frame
  have hinit : op ≠ .init := by rintro rfl; simp at hop
  refine ⟨⟨⟨hinit, .inl ?_, .inl ?_, .inr hop, .inl ⟨?_, ?_⟩⟩, ?_, h.shows⟩, ?_, ?_, ?_⟩
  all_goals rw [hf]
  exact hb

theorem HsFrame.midway {s t : State} (h : HsFrame s t) (hb : s.busy = true) : Midway .handshake s t := by
  have hf := h.frame
  refine ⟨⟨⟨by decide, .inr (by decide), .inr rfl, .inr (by decide), .inr (by decide)⟩, ?_, h.shows⟩, ?_, ?_, ?_⟩
  all_goals rw [hf]
  exact hb

theorem LoadDone.ended {op : Opcode} {s t : State} (h : LoadDone s t) (hb : s.busy = true)
    (hop : op = .loadImage ∨ op = .shutdown) : Ended op s t := by
  obtain ⟨u, hu, rfl⟩ := h
  have hmem : op ∈ bufferWriters := by rcases hop with rfl | rfl <;> decide
  have hm := hu.midway hb hmem
  refine ⟨hm.toTouches.withEnd _ _ _, ?_, .inl hm.version⟩
  rcases hop with rfl | rfl <;> rfl

theorem HandshakeDone.ended {s t : State} (h : HandshakeDone s t) (hb : s.busy = true) : Ended .handshake s t := by
  obtain ⟨u, v, hu, rfl⟩ := h
  have hm := hu.midway hb
  exact ⟨hm.toTouches.withEnd _ _ _, rfl, .inr rfl⟩

/-! ## What the rule of each command writes -/

/-- A flow that writes what the command `op` may write. -/
abbrev Flow.writes (x : Flow Word) (op : Opcode) (s : State) : Prop := x.leaves (fun _ => Ended op s) (Midway op s)

/-- A part that keeps a frame, and then an answer, in a command that does not write SESS. -/
theorem Flow.writes_of_keeps {α : Type} {x : Flow α} {g : α → Word} {op : Opcode} {s : State} {P : State → Prop}
    (hx : x.keeps P) (hP : ∀ t, P t → Midway op s t) (hop : sessAfter op s.sess = s.sess) :
    (x.bind fun a t => .done (g a) t).writes op s :=
  Flow.leaves_bind (Flow.keeps_mono hx hP) fun _ _ ht => ht.ended hop

theorem Flow.loads.writes {x : Flow Word} {op : Opcode} {s : State} (hx : x.loads s) (hb : s.busy = true)
    (hop : op = .loadImage ∨ op = .shutdown) : x.writes op s :=
  Flow.leaves_mono hx (fun _ _ h => h.ended hb hop) fun _ h =>
    h.midway hb (by rcases hop with rfl | rfl <;> decide)

theorem Flow.links.writes {x : Flow Word} {s : State} (hx : x.links s) (hb : s.busy = true) : x.writes .handshake s :=
  Flow.leaves_mono hx (fun _ _ h => h.ended hb) fun _ h => h.midway hb

theorem receiveBitRule_writes (w : Word) {s : State} (hb : s.busy = true) :
    (receiveBitRule w s).writes .receiveBit s :=
  Flow.writes_of_keeps (Flow.keeps_waitingAs (receiveBit_keeps w s) _ fun _ ht => ht.waiting _)
    (fun _ h => h.midway hb (by decide)) rfl

/-- A command that writes LFSR alone. -/
theorem ended_of_lfsr (x : Byte) {op : Opcode} {s : State} (hmem : op ∈ lfsrWriters) (hi : op ≠ .init)
    (hop : sessAfter op s.sess = s.sess) : Ended op s { s with lfsr := x } :=
  ⟨⟨⟨hi, .inr hmem, .inl rfl, .inl ⟨rfl, rfl, rfl⟩, .inl ⟨rfl, rfl⟩⟩, rfl, [], by simp, rfl⟩, hop.symm, .inl rfl⟩

/-- The rule of a command writes what the command may write. -/
theorem ruleOf_writes {i : Instr} (hi : i ≠ .init) {s : State} (hb : s.busy = true) :
    (ruleOf i s).writes i.opcode s := by
  have sends : ∀ {x : Flow Unit} {op : Opcode}, x.keeps (TxFrame s) → op ∈ bufferWriters →
      sessAfter op s.sess = s.sess → (x.bind fun _ t => .done 0#32 t).writes op s := fun hx hmem hop =>
    Flow.writes_of_keeps hx (fun _ h => h.toAck.midway hb hmem) hop
  cases i with
  | init => exact absurd rfl hi
  | readReg index =>
    unfold ruleOf
    dsimp only
    split
    · exact (Midway.refl (op := .readReg) Opcode.noConfusion hb).ended rfl
    · exact Midway.refl (op := .readReg) Opcode.noConfusion hb
  | lfsrSeed seed => exact ended_of_lfsr _ (op := .lfsrSeed) (by decide) Opcode.noConfusion rfl
  | lfsrStep => exact ended_of_lfsr _ (op := .lfsrStep) (by decide) Opcode.noConfusion rfl
  | appendByte byte => exact sends (op := .appendByte) (appendByte_keeps byte s) (by decide) rfl
  | appendWord value => exact sends (op := .appendWord) (appendWord_keeps value s) (by decide) rfl
  | flush => exact sends (flush_keeps s) (by decide) rfl
  | receiveBit w => exact receiveBitRule_writes w hb
  | handshake => exact (handshakeRule_links s).writes hb
  | waitForAck n =>
    exact Flow.writes_of_keeps (op := .waitForAck) (waitForAck_keeps _ _ s) (fun _ h => h.midway hb (by decide)) rfl
  | loadImage kind size => exact (loadRule_loads kind size s).writes hb (.inl rfl)
  | shutdown => exact (shutdownRule_loads s).writes hb (.inr rfl)

/-- So does the rest of its rule, from the call it waits in. -/
theorem resumeRule_writes {p : Pending} (ends : ∀ op, p ≠ .hung op) {s : State} (hb : s.busy = true) :
    (resumeRule p s).writes (pendingOpcode p) s := by
  cases p with
  | receiveBit w => exact receiveBitRule_writes w hb
  | response n => exact (handshakeFromResponse_links n s).writes hb
  | version n acc => exact (handshakeFromVersion_links n acc s).writes hb
  | waitForAck k =>
    exact Flow.writes_of_keeps (op := .waitForAck) (awaitAck_keeps _ _ k s)
      (fun _ h => h.midway hb (by decide)) rfl
  | load phase kind size k =>
    have hx : (loadFrom phase kind size k s).loads s :=
      Flow.loads_bind (awaitAck_keeps _ _ k s) fun _ t => afterAck_loads phase kind size t
    exact hx.writes hb (.inl rfl)
  | hung op => exact absurd rfl (ends op)

/-! ## What a step does -/

/-- `u` is `s` where a stretch of a command begins: the elements of spec/10_state.md R22 but BUSY, the parameters and
the events are those of `s`. -/
def Enters (s u : State) : Prop :=
  u = { s with
    busy := true, running := u.running, host := u.host, image := u.image, imageHeld := u.imageHeld,
    answers := u.answers, draws := u.draws }

theorem Enters.cfg_eq {s u : State} (h : Enters s u) : u.cfg = s.cfg := by rw [h]
theorem Enters.trace_eq {s u : State} (h : Enters s u) : u.trace = s.trace := by rw [h]

theorem Touches.of_enters {op : Opcode} {s u t : State} (he : Enters s u) (h : Touches op u t) : Touches op s t := by
  rw [he] at h
  exact ⟨⟨h.notInit, h.lfsr, h.hsState, h.window, h.buffer⟩, h.cfg, h.shows⟩

theorem Midway.of_enters {op : Opcode} {s u t : State} (he : Enters s u) (h : Midway op u t) : Midway op s t :=
  ⟨h.toTouches.of_enters he, by rw [h.sess, he], by rw [h.version, he], h.busy⟩

theorem Ended.of_enters {op : Opcode} {s u t : State} (he : Enters s u) (h : Ended op u t) : Ended op s t :=
  ⟨h.toTouches.of_enters he, by rw [h.sess, he], h.version.imp_left fun hv => by rw [hv, he]⟩

/-- Everything a step that answers a next state does to the block. -/
inductive StepEffect (s : State) : State → Prop where
  /-- Block reset. -/
  | reset {rest : List HostMove} (next : resetsNext s = true) : StepEffect s (blockReset { s with host := rest })
  /-- No command goes on. -/
  | stays {n : Nat} (next : resetsNext s = false) (idle : s.busy = true ∨ commandOf s = none) :
    StepEffect s { s with draws := n }
  /-- The command is turned down. -/
  | turnsDown {image : List Byte} {held : Bool} {rest : List HostMove} {st : Status} (next : resetsNext s = false)
    (command : commandOf s ≠ some .init) (status : st = .precond ∨ st = .illegal) :
    StepEffect s (complete st 0#32 (accept (presented image held rest s)))
  /-- The command is still in progress. -/
  | suspends {op : Opcode} {t : State} (next : resetsNext s = false) (command : commandOf s = some op)
    (midway : Midway op s t) : StepEffect s t
  /-- The command ends with a status it raised. -/
  | fails {op : Opcode} {st : Status} {u : State} (next : resetsNext s = false) (command : commandOf s = some op)
    (status : st ≠ .ok) (midway : Midway op s u) : StepEffect s (complete st 0#32 u)
  /-- INIT ends OK. -/
  | inits {data : Word} {u : State} (next : resetsNext s = false) (command : commandOf s = some .init)
    (enters : Enters s u) : StepEffect s (complete .ok data (reinit u))
  /-- A command but INIT ends OK. -/
  | ends {op : Opcode} {data : Word} {u : State} (next : resetsNext s = false) (command : commandOf s = some op)
    (ended : Ended op s u) : StepEffect s (complete .ok data u)

/-- What a stretch of a command does, once its rule is known to write what it may. -/
theorem settle_effect {op : Opcode} {x : Flow Word} {s u t : State} (hr : resetsNext s = false)
    (hc : commandOf s = some op) (he : Enters s u) (hx : x.writes op u) (hok : x.raisesNoOk)
    (h : settle op x = .next t) : StepEffect s t := by
  rcases settle_next h with ⟨data, v, rfl, rfl⟩ | ⟨st, v, rfl, rfl⟩ | rfl | ⟨v, rfl, rfl⟩
  · exact .ends hr hc (hx.of_enters he)
  · exact .fails hr hc hok (hx.of_enters he)
  · exact .suspends hr hc (hx.of_enters he)
  · have hv : Midway op s v := hx.of_enters he
    exact .suspends hr hc
      ⟨hv.toTouches.withEnd _ _ _, hv.sess, hv.version, hv.busy⟩

theorem step_effect {s t : State} (h : step s = .next t) : StepEffect s t := by
  cases step_next h with
  | reset next => exact .reset (resetsNext_blockReset next)
  | idle next ready =>
    exact .stays (n := s.draws) (by simp [resetsNext, next]) (.inr (by simp [commandOf, resetsNext, next, ready]))
  | hangs next busy => exact .stays (n := s.draws) next (.inl busy)
  | waits next busy => exact .stays next (.inl busy)
  | @goesOn p n answers _ next busy stands ends settles =>
    have he : Enters s { s with draws := n, answers := answers, running := none } := by rw [Enters, ← busy]
    exact settle_effect next (commandOf_busy next busy stands) he (resumeRule_writes ends busy)
      (resumeRule_raisesNoOk p _) settles
  | turnsDown next ready reason =>
    rcases reason with ⟨i, hi, hgated, rfl⟩ | ⟨e, he, rfl⟩
    · refine .turnsDown (resetsNext_command next) (fun hinit => ?_) (.inl rfl)
      rw [commandOf_decodes next ready hi] at hinit
      rw [Option.some.inj hinit] at hgated
      exact absurd hgated (by simp [allowed])
    · refine .turnsDown (resetsNext_command next) ?_ (.inr rfl)
      rw [commandOf_illegal next ready he]
      exact nofun
  | @runs word image held rest i _ next ready decodes allows settles =>
    have he : Enters s (accept (presented image held rest s)) := rfl
    have hr := resetsNext_command next
    have hc := commandOf_decodes next ready decodes
    by_cases hi : i = .init
    · subst hi
      cases settles
      exact .inits hr hc he
    · exact settle_effect hr hc he (ruleOf_writes hi rfl) (ruleOf_raisesNoOk i _) settles

end Sys2Proof.Machine
end

section
/-! The rules of the whole machine on what a step writes and shows (spec/10_state.md R22 to R35). -/

namespace Sys2Proof.Machine

open Sys2Proof

/-! ## The STATUS register -/

theorem Sess.code_le (sess : Sess) : sess.code.toNat ≤ 3 := by cases sess <;> decide
theorem Status.code_le (last : Status) : last.code.toNat ≤ 4 := by cases last <;> decide
theorem HsState.code_le (hs : HsState) : hs.code.toNat ≤ 9 := by cases hs <;> decide

/-- Three fields side by side, whatever their values. -/
theorem packed_fields (hs : BitVec 4) (last : BitVec 3) (sess : BitVec 2) :
    ((hs ++ last ++ sess).setWidth 32).extractLsb' 0 2 = sess ∧
    ((hs ++ last ++ sess).setWidth 32).extractLsb' 2 3 = last ∧
    ((hs ++ last ++ sess).setWidth 32).extractLsb' 5 4 = hs ∧
    (hs ++ last ++ sess).setWidth 32 >>> 9 = 0#32 := by
  revert hs last sess
  decide +kernel

/-- Settles O18: the fields are read out of the packed word, and the codes are in their ranges. -/
theorem statusFields : Obligations.StatusFields := by
  intro hs last sess
  obtain ⟨hsess, hlast, hhs, hzero⟩ := packed_fields hs.code last.code sess.code
  refine ⟨hsess, hlast, hhs, hzero, ?_, sess.code_le, last.code_le, hs.code_le⟩
  rintro s rfl rfl rfl
  exact ⟨rfl, rfl⟩

/-! ## The parameters and the events -/

theorem Shows.trace_prefix {s t : State} (h : Shows s t) : s.trace <+: t.trace := by
  obtain ⟨es, hes, _⟩ := h
  exact ⟨es, hes.symm⟩

theorem Shows.trace_prefix_complete {s t : State} (h : Shows s t) (st : Status) (data : Word) :
    s.trace <+: (complete st data t).trace := by
  rw [complete_trace]
  exact h.trace_prefix.trans (List.prefix_append _ _)

/-- Settles O58, by what each kind of step leaves. -/
theorem stepKeepsParametersAndEvents : Obligations.StepKeepsParametersAndEvents := by
  intro s t h
  cases step_effect h with
  | reset next => exact ⟨rfl, List.prefix_refl _⟩
  | stays next idle => exact ⟨rfl, List.prefix_refl _⟩
  | turnsDown next command status => exact ⟨by simp, by simp⟩
  | suspends next command midway => exact ⟨midway.cfg, midway.shows.trace_prefix⟩
  | fails next command status midway =>
    exact ⟨(complete_cfg _ _ _).trans midway.cfg, midway.shows.trace_prefix_complete _ _⟩
  | inits next command enters =>
    exact ⟨by simp [enters.cfg_eq], by simp [enters.trace_eq]⟩
  | ends next command ended => exact ⟨(complete_cfg _ _ _).trans ended.cfg, ended.shows.trace_prefix_complete _ _⟩

/-! ## The response -/

theorem Shows.responseCount_eq {s t : State} (h : Shows s t) : responseCount t.trace = responseCount s.trace := by
  obtain ⟨es, hes, hno⟩ := h
  simp [hes, hno]

/-- What `complete` shows behind a stretch without a response (spec/40_control.md R113). -/
theorem complete_response {s u : State} (h : Shows s u) (st : Status) (data : Word) :
    (complete st data u).busy = false ∧
    (∃ es d, (complete st data u).trace = s.trace ++ es ++ [.response (complete st data u).lastStatus d] ∧
      responseCount es = 0 ∧ ((complete st data u).lastStatus ≠ .ok → d = 0#32)) ∧
    ((complete st data u).lastStatus = .timeout ∨ (complete st data u).lastStatus = .error →
      (complete st data u).sess = .failed) := by
  obtain ⟨es, hes, hno⟩ := h
  refine ⟨complete_busy _ _ _, ⟨es, if st = .ok then data else 0#32, ?_, hno, fun hne => ?_⟩, fun hst => ?_⟩
  · rw [complete_trace, complete_lastStatus, hes]
  · rw [complete_lastStatus] at hne
    exact if_neg hne
  · rw [complete_lastStatus] at hst
    rcases hst with rfl | rfl <;> rfl

/-- Settles O60: a step that shows a response completes a command, and shows nothing behind it. -/
theorem responseEndsTheCommand : Obligations.ResponseEndsTheCommand := by
  intro s t h hmore
  cases step_effect h with
  | reset next => exact absurd hmore (Nat.lt_irrefl _)
  | stays next idle => exact absurd hmore (Nat.lt_irrefl _)
  | turnsDown next command status => exact complete_response ⟨[], by simp, rfl⟩ _ _
  | suspends next command midway =>
    rw [midway.shows.responseCount_eq] at hmore
    exact absurd hmore (Nat.lt_irrefl _)
  | fails next command status midway => exact complete_response midway.shows _ _
  | inits next command enters => exact complete_response ⟨[], by simp [enters.trace_eq], rfl⟩ _ _
  | ends next command ended => exact complete_response ended.shows _ _

/-! ## The session -/

/-- SESS after `complete`: FAILED for the two failures, and else as it was (spec/60_exceptions.md R273). -/
theorem complete_sess_cases (st : Status) (data : Word) (s : State) :
    ((st = .timeout ∨ st = .error) ∧ (complete st data s).sess = .failed) ∨
      (¬ (st = .timeout ∨ st = .error) ∧ (complete st data s).sess = s.sess) := by
  cases st <;> simp [isFailure]

/-- Where a command ends OK: HANDSHAKE, LOAD_IMAGE and SHUTDOWN write SESS, and the others do not. -/
theorem sessAfter_cases (op : Opcode) (sess : Sess) :
    (op = .handshake ∧ sessAfter op sess = .linked) ∨
      ((op = .loadImage ∨ op = .shutdown) ∧ sessAfter op sess = .done) ∨ sessAfter op sess = sess := by
  cases op <;> simp [sessAfter]

/-- Settles O56: SESS is written by block reset and INIT, by `complete` of a failure, and by the end of HANDSHAKE,
LOAD_IMAGE and SHUTDOWN. -/
theorem sessionChangesOnlyWhereListed : Obligations.SessionChangesOnlyWhereListed := by
  intro s t h
  cases step_effect h with
  | reset next => simp [next, commandOf]
  | stays next idle =>
    rcases idle with busy | none
    · simp [next, busy]
    · simp [next, none]
  | turnsDown next command status =>
    rcases status with rfl | rfl <;> simp [next, command, isFailure]
  | suspends next command midway => simp [next, midway.busy, midway.sess]
  | @fails op st u next command status midway =>
    have hinit : commandOf s ≠ some .init := by rw [command]; simpa using midway.notInit
    refine ⟨by simp [next, hinit], by simp [status], by simp [status], ?_, ?_⟩
    all_goals rcases complete_sess_cases st 0#32 u with ⟨hst, hsess⟩ | ⟨hst, hsess⟩
    · exact fun _ _ _ _ => hsess
    · exact fun _ _ _ hfail => absurd (by simpa using hfail) hst
    · exact fun _ => .inr (.inr (.inr ⟨hsess, by simpa using hst, by simp, by simp [command]⟩))
    · exact fun hne => absurd (hsess.trans midway.sess) hne
  | inits next command enters => simp [command, isFailure]
  | @ends op data u next command ended =>
    have hsess : (complete .ok data u).sess = sessAfter op s.sess := by simp [isFailure, ended.sess]
    have hinit : commandOf s ≠ some .init := by rw [command]; simpa using ended.notInit
    refine ⟨by simp [next, hinit], ?_, ?_, by simp, ?_⟩
    · rintro hop - -
      rw [hsess, Option.some.inj (command.symm.trans hop)]
      rfl
    · rintro hop - -
      rw [hsess]
      rw [command] at hop
      rcases hop with hop | hop
      all_goals rw [Option.some.inj hop]; rfl
    · rw [hsess, command]
      rcases sessAfter_cases op s.sess with ⟨rfl, hafter⟩ | ⟨hop, hafter⟩ | hafter
      · exact fun _ => .inr (.inl ⟨hafter, rfl, by simp, by simp⟩)
      · exact fun _ => .inr (.inr (.inl ⟨hafter, by simpa using hop, by simp, by simp⟩))
      · exact fun hne => absurd hafter hne

/-! ## The registers and the buffers -/

/-- The response of a command writes none of its registers. -/
theorem WritesOwn.complete {op : Opcode} {s u : State} (h : WritesOwn op s u) (st : Status) (data : Word) :
    WritesOwn op s (complete st data u) :=
  ⟨h.notInit, by simpa using h.lfsr, by simpa using h.hsState, by simpa using h.window, by simpa using h.buffer⟩

/-- The writers of LFSR, HS_STATE, the receive window and the transmit buffer, read off the command of the step. -/
theorem WritesOwn.writers {op : Opcode} {s t : State} (h : WritesOwn op s t) (hc : commandOf s = some op) :
    (t.lfsr ≠ s.lfsr → commandOf s ∈ lfsrWriters.map some) ∧
    (t.hsState ≠ s.hsState → commandOf s = some .handshake) ∧
    (¬(t.rxbuf = s.rxbuf ∧ t.rxcur = s.rxcur ∧ t.rxlen = s.rxlen) → commandOf s ∈ windowWriters.map some) ∧
    (¬(t.txbuf = s.txbuf ∧ t.txcur = s.txcur) → commandOf s ∈ bufferWriters.map some) := by
  rw [hc]
  exact ⟨fun hne => List.mem_map_of_mem (h.lfsr.resolve_left hne),
    fun hne => congrArg some (h.hsState.resolve_left hne),
    fun hne => List.mem_map_of_mem (h.window.resolve_left hne),
    fun hne => List.mem_map_of_mem (h.buffer.resolve_left hne)⟩

/-- Settles O57: each element of state is written by the commands that the frames name. -/
theorem registersHaveTheirWriters : Obligations.RegistersHaveTheirWriters := by
  intro s t h hreset hinit
  cases step_effect h with
  | reset next => exact absurd (next.symm.trans hreset) (by decide)
  | stays next idle => simp
  | turnsDown next command status => simp
  | suspends next command midway =>
    obtain ⟨hlfsr, hhs, hwindow, hbuffer⟩ := midway.toWritesOwn.writers command
    exact ⟨hlfsr, fun hne => absurd midway.version hne, hhs, hwindow, hbuffer⟩
  | fails next command status midway =>
    obtain ⟨hlfsr, hhs, hwindow, hbuffer⟩ := (midway.toWritesOwn.complete _ _).writers command
    exact ⟨hlfsr, fun hne => absurd ((complete_version _ _ _).trans midway.version) hne, hhs, hwindow, hbuffer⟩
  | inits next command enters => exact absurd command hinit
  | ends next command ended =>
    obtain ⟨hlfsr, hhs, hwindow, hbuffer⟩ := (ended.toWritesOwn.complete _ _).writers command
    refine ⟨hlfsr, fun hne => ⟨?_, complete_lastStatus _ _ _, complete_busy _ _ _⟩, hhs, hwindow, hbuffer⟩
    rw [complete_version] at hne
    exact command.trans (congrArg some (ended.version.resolve_left hne))

end Sys2Proof.Machine
end

section
/-! The invariant of the block inside a command (spec/10_state.md R26, R30 to R32): what a stretch of a command keeps of
it, and which end of a stretch leaves a sound state. -/

namespace Sys2Proof.Machine

open Sys2Proof

/-- The receive side's order does not depend on the other fields. -/
theorem RxOk.of_same {s t : State} (h : RxOk s) (hc : t.cfg = s.cfg) (hb : t.rxbuf = s.rxbuf) (hx : t.rxcur = s.rxcur)
    (hl : t.rxlen = s.rxlen) : RxOk t := by
  refine ⟨?_, ?_, ?_, ?_, ?_⟩
  · rw [hc]; exact h.cap
  · rw [hx, hl]; exact h.cur
  · rw [hc, hl]; exact h.len
  · rw [hb]; exact h.mem
  · rw [hc, hb]; exact h.below

/-- What holds at every point inside a command, whatever its registers hold. -/
structure Intact (s : State) : Prop where
  cfgOk : s.cfg.wf
  tx : TxOk s
  rx : RxOk s
  busy : s.busy = true
  running : s.running = none
  events : ∀ e ∈ s.trace, eventLegal s.cfg e

/-- HS_STATE where no handshake is running (spec/10_state.md R24, R30). -/
def Settled (s : State) : Prop :=
  match s.sess with
  | .ready => s.hsState = .idle
  | .linked => s.hsState = .done
  | .done => s.hsState = .done
  | .failed => s.hsState = .idle ∨ s.hsState = .done ∨ s.hsState = .error ∨ s.hsState = .timeout

theorem Settled.of_same {s t : State} (h : Settled s) (hs : t.sess = s.sess) (hh : t.hsState = s.hsState) :
    Settled t := by
  unfold Settled
  rw [hs, hh]
  exact h

theorem Settled.ready_idle {s : State} (h : Settled s) (hs : s.sess = .ready) : s.hsState = .idle := by
  simpa [Settled, hs] using h

theorem Settled.sound {s : State} (h : Settled s) : hsStateSound s := by
  unfold Settled at h
  unfold hsStateSound
  cases hs : s.sess with
  | ready => rw [hs] at h; exact .inl h
  | _ => rw [hs] at h; exact h

/-- Only a running handshake is not settled. -/
theorem Settled.of_sound {s : State} (h : hsStateSound s) (hr : s.sess = .ready → s.hsState = .idle) : Settled s := by
  unfold hsStateSound at h
  unfold Settled
  cases hs : s.sess with
  | ready => exact hr hs
  | _ => rw [hs] at h; exact h

/-- The end of a command leaves a settled HS_STATE settled: each is one of those after a failure. -/
theorem Settled.complete {s : State} (h : Settled s) (st : Status) (data : Word) :
    hsStateSound (complete st data s) := by
  have hfailed : s.hsState = .idle ∨ s.hsState = .done ∨ s.hsState = .error ∨ s.hsState = .timeout := by
    unfold Settled at h
    cases hs : s.sess with
    | ready => rw [hs] at h; exact .inl h
    | failed => rw [hs] at h; exact h
    | _ => rw [hs] at h; exact .inr (.inl h)
  rcases complete_sess_cases st data s with ⟨_, hs⟩ | ⟨_, hs⟩
  · unfold hsStateSound
    rw [hs, complete_hsState]
    exact hfailed
  · exact (h.of_same hs (complete_hsState _ _ _)).sound

/-! ## How a stretch ends -/

/-- The end of a command. -/
theorem Intact.complete {s : State} (h : Intact s) {st : Status} {data : Word}
    (hhs : hsStateSound (complete st data s)) : Sound (complete st data s) := by
  refine ⟨by simpa using h.cfgOk, h.tx.of_same (by simp) (by simp) (by simp),
    h.rx.of_same (by simp) (by simp) (by simp) (by simp), by simp [h.running], by simp [h.running], hhs, fun e he => ?_⟩
  rw [complete_cfg]
  rw [complete_trace] at he
  rcases List.mem_append.1 he with he | he
  · exact h.events e he
  · rw [List.mem_singleton.1 he]
    by_cases hst : st = .ok
    · exact .inl hst
    · exact .inr (if_neg hst)

/-- The wait of a command, in a TReceive or in a call that never returns. -/
theorem Intact.hold {s : State} (h : Intact s) {p : Pending} (hp : pendingSound s p) (hhs : hsStateSound s) :
    Sound { s with running := some p } :=
  ⟨h.cfgOk, h.tx.of_same rfl rfl rfl, h.rx.of_same rfl rfl rfl rfl, h.busy,
    fun q hq => by cases Option.some.inj hq; exact hp, hhs, h.events⟩

/-- The flow of the command `op` leaves a sound state, however it ends. -/
def Flow.sound (x : Flow Word) (op : Opcode) : Prop :=
  match x with
  | .done data s => Sound (complete .ok data s)
  | .fail st s => Sound (complete st 0#32 s)
  | .wait s => Sound s
  | .hung s => Sound { s with running := some (.hung op) }
  | .fault _ => True
  | .refused _ => True

theorem Flow.sound.next {x : Flow Word} {op : Opcode} (hx : x.sound op) {t : State} (h : settle op x = .next t) :
    Sound t := by
  rcases settle_next h with ⟨data, s, rfl, rfl⟩ | ⟨st, s, rfl, rfl⟩ | rfl | ⟨s, rfl, rfl⟩
  all_goals exact hx

/-! ## What a stretch keeps -/

/-- The fields that being intact speaks of are those of `s`. -/
theorem Intact.of_same {s t : State} (h : Intact s)
    (hf : t = { s with
      lfsr := t.lfsr, version := t.version, hsState := t.hsState, sess := t.sess, lastStatus := t.lastStatus,
      host := t.host, image := t.image, imageHeld := t.imageHeld, answers := t.answers, returns := t.returns,
      draws := t.draws }) : Intact t := by
  rw [hf]
  exact ⟨h.cfgOk, h.tx.of_same rfl rfl rfl, h.rx.of_same rfl rfl rfl rfl, h.busy, h.running, h.events⟩

/-- Further legal events. -/
theorem Intact.shows {s t : State} (h : Intact s) (hc : t.cfg = s.cfg) (htx : TxOk t) (hrx : RxOk t)
    (hb : t.busy = s.busy) (hr : t.running = s.running) {es : List Event} (he : t.trace = s.trace ++ es)
    (hl : ∀ e ∈ es, eventLegal s.cfg e) : Intact t := by
  refine ⟨by rw [hc]; exact h.cfgOk, htx, hrx, hb.trans h.busy, hr.trans h.running, fun e hmem => ?_⟩
  rw [hc]
  rw [he] at hmem
  exact (List.mem_append.1 hmem).elim (h.events e) (hl e)

theorem Intact.progress {s : State} (h : Intact s) (phase : Phase) (o n : Word) : Intact (progress phase o n s) :=
  h.shows (es := [.progress phase o n]) rfl (h.tx.of_same rfl rfl rfl) (h.rx.of_same rfl rfl rfl rfl) rfl rfl rfl
    fun e he => by rw [List.mem_singleton.1 he]; trivial

theorem Grown.intact {s t : State} (hg : Grown s t) (h : Intact s) : Intact t := by
  obtain ⟨es, htrace, hlegal⟩ := hg.events
  have hf := hg.frame
  exact h.shows hg.cfg_eq hg.ok (by rw [hf]; exact h.rx.of_same rfl rfl rfl rfl) (by rw [hf]) (by rw [hf]) htrace hlegal

theorem Refilled.intact {w : Word} {s t : State} (hr : Refilled w s t) (h : Intact s) : Intact t := by
  obtain ⟨taken, _, htrace, hlen, _⟩ := hr.events
  have hf := hr.frame
  refine h.shows hr.cfg_eq (by rw [hf]; exact h.tx.of_same rfl rfl rfl) hr.ok (by rw [hf]) (by rw [hf]) htrace
    fun e he => ?_
  obtain ⟨a, ha, rfl⟩ := List.mem_map.1 he
  exact ⟨h.cfgOk.2.1, hlen a ha⟩

theorem Connected.intact {s t : State} {ps : List (List Byte)} (hc : Connected s t ps) (h : Intact s) : Intact t := by
  have hf := hc.frame
  refine h.shows hc.cfg_eq hc.ok (hc.rxOk h.rx) (by rw [hf]) (by rw [hf])
    (es := [.progress .handshakeStart 0#32 0#32, .treset] ++ ps.map .ttransmit ++ [.progress .responseStart 0#32 0#32])
    (by rw [hf]; simp) fun e he => ?_
  simp only [List.mem_append, List.mem_cons, List.mem_map, List.not_mem_nil, or_false] at he
  rcases he with ((rfl | rfl) | ⟨p, hp, rfl⟩) | rfl
  · trivial
  · trivial
  · exact hc.sizes p hp
  · trivial

/-! ## Commands other than HANDSHAKE -/

/-- What holds inside the command `op`, not HANDSHAKE. -/
structure Within (op : Opcode) (s : State) : Prop extends Intact s where
  notHandshake : op ≠ .handshake
  settled : Settled s
  gated : allowed op s.sess = true

section within

variable {op : Opcode} {s t : State}

theorem Within.of_intact (h : Within op s) (ht : Intact t) (hs : t.sess = s.sess) (hh : t.hsState = s.hsState) :
    Within op t := ⟨ht, h.notHandshake, h.settled.of_same hs hh, by rw [hs]; exact h.gated⟩

theorem Within.grown (h : Within op s) (hg : Grown s t) : Within op t :=
  h.of_intact (hg.intact h.toIntact) (by rw [hg.frame]) (by rw [hg.frame])

theorem Within.refilled {w : Word} (h : Within op s) (hr : Refilled w s t) : Within op t :=
  h.of_intact (hr.intact h.toIntact) (by rw [hr.frame]) (by rw [hr.frame])

theorem Within.complete (h : Within op s) (st : Status) (data : Word) : Sound (complete st data s) :=
  h.toIntact.complete (h.settled.complete st data)

theorem Within.hold (h : Within op s) {p : Pending} (hp : pendingSound s p) : Sound { s with running := some p } :=
  h.toIntact.hold hp h.settled.sound

theorem Within.hang (h : Within op s) (hop : callsTransport op = true) : Sound { s with running := some (.hung op) } :=
  h.hold ⟨hop, h.gated, fun heq => absurd heq h.notHandshake, fun _ => h.settled.ready_idle⟩

/-- A part that sends, and then the rest of the rule. -/
theorem Within.sends (h : Within op s) (hop : callsTransport op = true) {x : Flow Unit} {P : State → Prop}
    (hx : x.sends s P) {f : Unit → State → Flow Word} (hf : ∀ t, P t → (f () t).sound op) : (x.bind f).sound op := by
  rcases hx with ⟨t, rfl, ht⟩ | ⟨t, rfl, ht, _⟩
  · exact hf t ht
  · exact (h.grown ht).hang hop

/-- The end of LOAD_IMAGE and SHUTDOWN: HS_STATE is Done in LINKED and in DONE. -/
theorem Within.finish (h : Within op s) (hs : s.sess = .linked) (data : Word) :
    Sound (Machine.complete .ok data { s with sess := .done }) := by
  have hdone : s.hsState = .done := by
    have := h.settled
    simpa [Settled, hs] using this
  have hset : Settled { s with sess := .done } := hdone
  exact (h.toIntact.of_same (t := { s with sess := .done }) rfl).complete (hset.complete .ok data)

theorem flush_sound (h : Within .flush s) : ((flush s).bind fun _ t => .done 0#32 t).sound .flush :=
  h.sends rfl (flush_sends h.tx) fun _ ht => (h.grown ht.appended.grown).complete .ok 0#32

theorem appendByte_sound (b : Byte) (h : Within .appendByte s) :
    ((appendByte b s).bind fun _ t => .done 0#32 t).sound .appendByte :=
  h.sends rfl (appendByte_sends b h.tx) fun _ ht => (h.grown ht.1.grown).complete .ok 0#32

theorem appendWord_sound (v : Word) (h : Within .appendWord s) :
    ((appendWord v s).bind fun _ t => .done 0#32 t).sound .appendWord :=
  h.sends rfl (appendWord_sends v h.tx) fun _ ht => (h.grown ht.1.grown).complete .ok 0#32

theorem linked_of_allowed (hop : op = .loadImage ∨ op = .shutdown) (h : allowed op s.sess = true) :
    s.sess = .linked := by
  rcases hop with rfl | rfl <;> simpa [allowed] using h

theorem shutdownRule_sound (h : Within .shutdown s) : (shutdownRule s).sound .shutdown :=
  h.sends rfl (appendWord_sends _ h.tx) fun _ ht =>
    have hw := h.grown ht.1.grown
    hw.sends rfl (flush_sends hw.tx) fun _ hu =>
      have hv := hw.grown hu.appended.grown
      hv.finish (linked_of_allowed (.inr rfl) hv.gated) 0#32

theorem not_failed_of_allowed (hop : op = .receiveBit ∨ op = .waitForAck) (h : allowed op s.sess = true) :
    s.sess ≠ .failed := by
  rcases hop with rfl | rfl <;> simpa [allowed] using h

theorem receiveBitRule_sound (w : Word) (h : Within .receiveBit s) : (receiveBitRule w s).sound .receiveBit := by
  unfold receiveBitRule
  rcases receiveBit_cases w h.rx with ⟨b, u, hx, hu⟩ | ⟨u, hx, hu, _⟩ | ⟨u, hx, hu, _, hempty⟩ | ⟨n, l, hx⟩
  all_goals rw [hx]
  · exact (h.refilled hu).complete _ _
  · exact (h.refilled hu).complete _ _
  · have hw := h.refilled hu
    exact hw.hold ⟨hempty, not_failed_of_allowed (.inl rfl) hw.gated, hw.settled.ready_idle⟩
  · trivial

/-! ## Acknowledgements -/

/-- The wait for an acknowledgement, with nothing pending, and then the rest of the rule. -/
theorem awaitAck_sound {at_ : Nat → Pending} {k : Nat} (h : Within op s) (hop : callsTransport op = true)
    (h0 : s.txcur = 0) (hk : 1 ≤ k)
    (hp : ∀ m t, 1 ≤ m → m ≤ k → t.txcur = 0 → Within op t → pendingSound t (at_ m))
    {f : Unit → State → Flow Word} (hf : ∀ t, t.txcur = 0 → Within op t → (f () t).sound op) :
    ((awaitAck at_ s.answers k s).bind f).sound op := by
  rcases awaitAck_cases at_ s.answers h.tx h0 hk rfl with
    ⟨t, hx, ht⟩ | ⟨st, t, hx, _, ht⟩ | ⟨t, m, hx, ht, _, hm, hmk⟩ | ⟨t, hx, ht⟩ | ⟨n, l, hx⟩
  all_goals rw [hx]
  · exact hf t (ht.cursor.trans h0) (h.grown ht.grown)
  · exact (h.grown ht.grown).complete _ _
  · have hw := h.grown ht.grown
    exact hw.hold (hp m t hm hmk (ht.cursor.trans h0) hw)
  · exact (h.grown ht).hang hop
  · trivial

/-- WaitForAck, and then the rest of the rule. -/
theorem waitForAck_sound {at_ : Nat → Pending} {n : Nat} (h : Within op s) (hop : callsTransport op = true)
    (hp : ∀ m t, 1 ≤ m → m ≤ n → t.txcur = 0 → Within op t → pendingSound t (at_ m))
    {f : Unit → State → Flow Word} (hf : ∀ t, t.txcur = 0 → Within op t → (f () t).sound op) :
    ((waitForAck at_ n s).bind f).sound op := by
  by_cases hn : n = 0
  · rw [waitForAck, if_pos hn]
    exact h.complete _ _
  · rcases waitForAck_cases at_ hn h.tx with ⟨u, hx, hu, h0, _⟩ | ⟨u, hx, hu, _⟩
    all_goals rw [hx]
    · exact awaitAck_sound (h.grown hu.grown) hop h0 (Nat.one_le_iff_ne_zero.2 hn) hp hf
    · exact (h.grown hu).hang hop

theorem pendingSound_waitForAck {m : Nat} (hm : 1 ≤ m) (hlt : m < 2 ^ 32) (h0 : s.txcur = 0)
    (h : Within .waitForAck s) : pendingSound s (.waitForAck m) :=
  ⟨hm, hlt, h0, not_failed_of_allowed (.inr rfl) h.gated, h.settled.ready_idle⟩

theorem waitForAckFrom_sound {k : Nat} (h : Within .waitForAck s) (h0 : s.txcur = 0) (hk : 1 ≤ k) (hlt : k < 2 ^ 32) :
    (waitForAckFrom k s).sound .waitForAck :=
  awaitAck_sound h rfl h0 hk (fun _ _ hm hmk => pendingSound_waitForAck hm (Nat.lt_of_le_of_lt hmk hlt))
    fun _ _ hw => hw.complete .ok 0#32

/-! ## LOAD_IMAGE -/

variable {kind : LoadKind} {size : Word} {phase : AckPhase}

theorem pendingSound_load {m : Nat} (hphase : phase = .program ∨ hasEeprom kind = true) (hm : 1 ≤ m)
    (hle : m ≤ ackBudget phase) (h0 : s.txcur = 0) (h : Within .loadImage s) :
    pendingSound s (.load phase kind size m) :=
  ⟨hm, hle, h0, linked_of_allowed (.inl rfl) h.gated, hphase⟩

theorem Within.progress (h : Within op s) (p : Phase) (o n : Word) : Within op (Machine.progress p o n s) :=
  h.of_intact (h.toIntact.progress p o n) rfl rfl

theorem finishLoad_sound (h : Within .loadImage s) : (finishLoad size s).sound .loadImage :=
  (h.progress .done 0#32 size).finish (linked_of_allowed (.inl rfl) h.gated) 0#32

/-- A phase of a load, and then the rest of the rule. -/
theorem loadAck_sound (h : Within .loadImage s) (hphase : phase = .program ∨ hasEeprom kind = true)
    {f : Unit → State → Flow Word} (hf : ∀ t, Within .loadImage t → (f () t).sound .loadImage) :
    ((loadAck phase kind size s).bind f).sound .loadImage :=
  waitForAck_sound h rfl (fun _ _ hm hle => pendingSound_load hphase hm hle) fun t _ => hf t

theorem loadVerify_sound (h : Within .loadImage s) (hkind : hasEeprom kind = true) :
    (loadVerify kind size s).sound .loadImage :=
  loadAck_sound (h.progress .eepromVerify 0#32 size) (.inr hkind) fun _ ht => finishLoad_sound ht

theorem loadWrite_sound (h : Within .loadImage s) (hkind : hasEeprom kind = true) :
    (loadWrite kind size s).sound .loadImage :=
  loadAck_sound (h.progress .eepromWrite 0#32 size) (.inr hkind) fun _ ht => loadVerify_sound ht hkind

theorem afterAck_sound (h : Within .loadImage s) (hphase : phase = .program ∨ hasEeprom kind = true) :
    (afterAck phase kind size s).sound .loadImage := by
  cases phase with
  | program =>
    rw [afterAck_program]
    split
    · next hkind => exact loadWrite_sound h hkind
    · exact finishLoad_sound h
  | eepromWrite => exact loadVerify_sound h (hphase.resolve_left nofun)
  | eepromVerify => exact finishLoad_sound h

theorem loadFrom_sound {k : Nat} (h : Within .loadImage s) (h0 : s.txcur = 0) (hk : 1 ≤ k)
    (hle : k ≤ ackBudget phase) (hphase : phase = .program ∨ hasEeprom kind = true) :
    (loadFrom phase kind size k s).sound .loadImage :=
  awaitAck_sound h rfl h0 hk (fun _ _ hm hmk => pendingSound_load hphase hm (Nat.le_trans hmk hle)) fun _ _ ht =>
    afterAck_sound ht hphase

theorem loadRule_sound (h : Within .loadImage s) : (loadRule kind size s).sound .loadImage := by
  unfold loadRule
  split
  · exact h.complete _ _
  · next hsize =>
    split
    · exact h.complete _ _
    · split
      · exact h.complete _ _
      · next himage =>
        refine h.sends rfl (sendImage_sends kind h.tx (by omega) fun _ => by omega) fun t ht => ?_
        exact loadAck_sound (h.grown ht.grown) (.inl rfl) fun u hu => afterAck_sound hu (.inl rfl)

end within

/-! ## HANDSHAKE -/

/-- A failed HANDSHAKE (spec/44_handshake.md R194). -/
theorem handshake_fails {s : State} (h : Intact s) {st : Status} {y : HsState}
    (hst : st = .error ∧ y = .error ∨ st = .timeout ∧ y = .timeout) :
    Sound (complete st 0#32 { s with hsState := y }) := by
  refine (h.of_same (t := { s with hsState := y }) rfl).complete ?_
  rcases hst with ⟨rfl, rfl⟩ | ⟨rfl, rfl⟩
  · exact .inr (.inr (.inl rfl))
  · exact .inr (.inr (.inr rfl))

/-- In READY any HS_STATE goes with a handshake that is running. -/
theorem hsStateSound_of_ready {s : State} (hs : s.sess = .ready) (hb : s.busy = true) : hsStateSound s := by
  unfold hsStateSound
  rw [hs]
  exact .inr hb

theorem handshakeFromVersion_sound {n : Nat} (acc : Byte) {s : State} (h : Intact s) (hn : n ≤ 8) (h0 : s.txcur = 0)
    (hs : s.sess = .ready) (hh : s.hsState = .versionAwaited) (hl : s.lfsr = lfsrAfter 500 handshakeSeed) :
    (handshakeFromVersion n acc s).sound .handshake := by
  unfold handshakeFromVersion
  rcases receiveVersion_cases n acc h.rx with
    ⟨u, v, hx, hu⟩ | ⟨u, hx, hu⟩ | ⟨u, m, v, hx, hu, _, hempty, hm, hmn⟩ | ⟨k, l, hx⟩
  all_goals rw [hx]
  · have hi := (hu.intact h).progress .handshakeDone 0#32 0#32
    exact (hi.of_same (t := { progress .handshakeDone 0#32 0#32 u with
      hsState := .done, version := v, sess := .linked }) rfl).complete rfl
  · exact handshake_fails (hu.intact h) (.inr ⟨rfl, rfl⟩)
  · have hi := hu.intact h
    have hf := hu.frame
    have hus : u.sess = .ready := by rw [hf]; exact hs
    exact hi.hold ⟨hm, Nat.le_trans hmn hn, hempty, by rw [hf]; exact h0, hus, by rw [hf]; exact hh,
      by rw [hf]; exact hl⟩
      (hsStateSound_of_ready hus hi.busy)
  · trivial

theorem handshakeFromResponse_sound {n : Nat} {s : State} (h : Intact s) (hn : n ≤ 250) (h0 : s.txcur = 0)
    (hs : s.sess = .ready) (hh : s.hsState = .responseVerifying)
    (hl : s.lfsr = lfsrAfter (500 - n) handshakeSeed) : (handshakeFromResponse n s).sound .handshake := by
  unfold handshakeFromResponse
  have hlfsr : ∀ k, k ≤ n → lfsrAfter k s.lfsr = lfsrAfter (500 - (n - k)) handshakeSeed := fun k hk => by
    rw [hl, ← lfsrAfter_add, show 500 - n + k = 500 - (n - k) by omega]
  have hi : ∀ x, Intact { s with lfsr := x } := fun x => h.of_same rfl
  rcases verifyResponse_cases n h.rx with
    ⟨u, hx, hu⟩ | ⟨u, st, x, y, hx, hu, hst⟩ | ⟨u, m, hx, hu, _, hempty, hm, hmn⟩ | ⟨k, l, hx⟩
  all_goals rw [hx]
  · have hf := hu.frame
    have hv := ((hu.intact (hi _)).progress .versionStart 0#32 0#32).of_same
      (t := { progress .versionStart 0#32 0#32 u with hsState := .versionAwaited }) rfl
    refine handshakeFromVersion_sound 0x00#8 hv (Nat.le_refl 8) ?_ ?_ rfl ?_
    · rw [progress_txcur, hf]; exact h0
    · rw [progress_sess, hf]; exact hs
    · rw [progress_lfsr, hf]
      exact (hlfsr n (Nat.le_refl n)).trans (by rw [Nat.sub_self])
  · exact handshake_fails (hu.intact (hi x)) hst
  · have hv := hu.intact (hi _)
    have hf := hu.frame
    have hus : u.sess = .ready := by rw [hf]; exact hs
    have hul : u.lfsr = lfsrAfter (500 - m) handshakeSeed := by
      rw [hf]
      exact (hlfsr (n - m) (Nat.sub_le n m)).trans (by rw [Nat.sub_sub_self hmn])
    exact hv.hold ⟨hm, Nat.le_trans hmn hn, hempty, by rw [hf]; exact h0, hus, by rw [hf]; exact hh, hul⟩
      (hsStateSound_of_ready hus hv.busy)
  · trivial

theorem handshakeRule_sound {s : State} (h : Intact s) (hs : s.sess = .ready) : (handshakeRule s).sound .handshake := by
  unfold handshakeRule
  rcases sendConnect_cases h.tx with ⟨t, ps, hx, ht⟩ | ⟨t, hx, x, y, hy, hg, _⟩
  all_goals rw [hx]
  · have hf := ht.frame
    exact handshakeFromResponse_sound (ht.intact h) (Nat.le_refl 250) (by rw [hf]) (by rw [hf]; exact hs) (by rw [hf])
      ht.lfsr_eq
  · have hi := hg.intact (h.of_same (t := { s with lfsr := x, hsState := y }) rfl)
    have hf := hg.frame
    have hts : t.sess = .ready := by rw [hf]; exact hs
    have hth : t.hsState = y := by rw [hf]
    refine hi.hold ⟨rfl, by rw [hts]; rfl, fun _ => by rw [hth]; exact hy, fun hne => absurd rfl hne⟩ ?_
    exact hsStateSound_of_ready hts hi.busy

/-! ## The commands -/

theorem Intact.reinit {s : State} (h : Intact s) : Intact (reinit s) :=
  ⟨h.cfgOk, ⟨h.cfgOk.1, Nat.zero_le _, rfl, rfl⟩, ⟨h.cfgOk.2.1, Nat.le_refl _, Nat.zero_le _, rfl, rfl⟩, h.busy,
    h.running, h.events⟩

/-- From its acceptance a command leaves a sound state. -/
theorem ruleOf_sound (i : Instr) {s : State} (h : Intact s) (hset : Settled s)
    (hallow : allowed i.opcode s.sess = true) : (ruleOf i s).sound i.opcode := by
  have hw : i.opcode ≠ .handshake → Within i.opcode s := fun hne => ⟨h, hne, hset, hallow⟩
  cases i with
  | init => exact h.reinit.complete (Settled.complete (s := reinit s) rfl .ok 0#32)
  | readReg index =>
    unfold ruleOf
    dsimp only
    split
    · exact (hw nofun).complete _ _
    · exact (hw nofun).complete _ _
  | lfsrSeed seed => exact ((hw nofun).of_intact (t := { s with lfsr := seed }) (h.of_same rfl) rfl rfl).complete .ok _
  | lfsrStep => exact ((hw nofun).of_intact (t := lfsrStep s) (h.of_same rfl) rfl rfl).complete .ok _
  | appendByte byte => exact appendByte_sound byte (hw nofun)
  | appendWord value => exact appendWord_sound value (hw nofun)
  | flush => exact flush_sound (hw nofun)
  | receiveBit w => exact receiveBitRule_sound w (hw nofun)
  | handshake => exact handshakeRule_sound h (by simpa [allowed, Instr.opcode] using hallow)
  | waitForAck n =>
    exact waitForAck_sound (hw nofun) rfl
      (fun _ _ hm hmn => pendingSound_waitForAck hm (Nat.lt_of_le_of_lt hmn n.isLt)) fun _ _ ht => ht.complete .ok 0#32
  | loadImage kind size => exact loadRule_sound (hw nofun)
  | shutdown => exact shutdownRule_sound (hw nofun)

/-- So does a command from the call it waits in. -/
theorem resumeRule_sound {p : Pending} (ends : ∀ op, p ≠ .hung op) {s : State} (h : Intact s) (hhs : hsStateSound s)
    (hp : pendingSound s p) : (resumeRule p s).sound (pendingOpcode p) := by
  cases p with
  | receiveBit w =>
    obtain ⟨_, hne, hidle⟩ := hp
    exact receiveBitRule_sound w ⟨h, nofun, .of_sound hhs hidle, by simpa [allowed] using hne⟩
  | response n =>
    obtain ⟨_, hn, _, h0, hs, hh, hl⟩ := hp
    exact handshakeFromResponse_sound h hn h0 hs hh hl
  | version n acc =>
    obtain ⟨_, hn, _, h0, hs, hh, hl⟩ := hp
    exact handshakeFromVersion_sound acc h hn h0 hs hh hl
  | waitForAck k =>
    obtain ⟨hk, hlt, h0, hne, hidle⟩ := hp
    exact waitForAckFrom_sound ⟨h, nofun, .of_sound hhs hidle, by simpa [allowed] using hne⟩ h0 hk hlt
  | load phase kind size k =>
    obtain ⟨hk, hle, h0, hs, hphase⟩ := hp
    have hset : Settled s := .of_sound hhs fun hready => absurd (hs.symm.trans hready) nofun
    exact loadFrom_sound ⟨h, nofun, hset, by simp [allowed, hs]⟩ h0 hk hle hphase
  | hung op => exact absurd rfl (ends op)

/-! ## The step -/

/-- The invariant does not look at the outside world's fields. -/
theorem Sound.withDraws {s : State} (h : Sound s) (n : Nat) : Sound { s with draws := n } :=
  ⟨h.cfgOk, h.tx.of_same rfl rfl rfl, h.rx.of_same rfl rfl rfl rfl, h.busyRunning, h.waits, h.hs, h.events⟩

theorem Sound.blockReset {s : State} (h : Sound s) (rest : List HostMove) :
    Sound (blockReset { s with host := rest }) :=
  ⟨h.cfgOk, ⟨h.cfgOk.1, Nat.zero_le _, rfl, rfl⟩, ⟨h.cfgOk.2.1, Nat.le_refl _, Nat.zero_le _, rfl, rfl⟩, rfl, nofun,
    .inl rfl, h.events⟩

/-- Between two commands HS_STATE is settled. -/
theorem Sound.settled {s : State} (h : Sound s) (hb : s.busy = false) : Settled s := by
  refine .of_sound h.hs fun hs => ?_
  have := h.hs
  simpa [hsStateSound, hs, hb] using this

/-- A command that is accepted. -/
theorem Sound.accepted {s : State} (h : Sound s) (hb : s.busy = false) (image : List Byte) (held : Bool)
    (rest : List HostMove) : Intact (accept (presented image held rest s)) := by
  have hidle : s.running = none := by
    have := h.busyRunning
    simpa [hb] using this
  exact ⟨h.cfgOk, h.tx.of_same rfl rfl rfl, h.rx.of_same rfl rfl rfl rfl, rfl, hidle, h.events⟩

/-- A command that goes on. -/
theorem Sound.resumed {s : State} (h : Sound s) (hb : s.busy = true) (n : Nat) (answers : List (List Byte)) :
    Intact { s with draws := n, answers := answers, running := none } :=
  ⟨h.cfgOk, h.tx.of_same rfl rfl rfl, h.rx.of_same rfl rfl rfl rfl, hb, rfl, h.events⟩

/-- Settles O52, for each kind of step: a command is sound inside, and so is each of its ends. -/
theorem stepKeepsSound : Obligations.StepKeepsSound := by
  intro s t h hstep
  cases step_next hstep with
  | reset next => exact h.blockReset _
  | idle next ready => exact h
  | hangs next busy stands => exact h
  | waits next busy stands => exact h.withDraws _
  | @goesOn p n answers _ next busy stands ends settles =>
    exact (resumeRule_sound ends (h.resumed busy n answers) h.hs (h.waits p stands)).next settles
  | @turnsDown word image held rest st next ready reason =>
    have hset : Settled (accept (presented image held rest s)) := (h.settled ready).of_same rfl rfl
    exact (h.accepted ready image held rest).complete (hset.complete st 0#32)
  | @runs word image held rest i _ next ready decodes allows settles =>
    have hset : Settled (accept (presented image held rest s)) := (h.settled ready).of_same rfl rfl
    exact (ruleOf_sound i (h.accepted ready image held rest) hset allows).next settles

end Sys2Proof.Machine
end

section
/-! Wire order (spec/20_memory.md R63): in every state with the transmit buffer in order, whatever its receive side and
its command in progress, each operation of a command but INIT only lengthens the bytes sent and then pending. -/

namespace Sys2Proof.Machine

open Sys2Proof

/-- From `s` to `t` the bytes sent and then those pending grew at their end alone, and the buffer is in order. -/
structure Lengthened (s t : State) : Prop where
  wire : (wireBytes s.trace ++ pendingBytes s) <+: (wireBytes t.trace ++ pendingBytes t)
  ok : TxOk t

theorem Lengthened.trans {s t u : State} (h₁ : Lengthened s t) (h₂ : Lengthened t u) : Lengthened s u :=
  ⟨h₁.wire.trans h₂.wire, h₂.ok⟩

/-- A stretch that leaves the transmit side alone and shows no TTransmit. -/
theorem Lengthened.of_quiet {s t : State} (h : TxOk s) (hc : t.cfg = s.cfg) (hx : t.txcur = s.txcur)
    (hb : t.txbuf = s.txbuf) (hw : wireBytes t.trace = wireBytes s.trace) : Lengthened s t := by
  have hp : pendingBytes t = pendingBytes s := by simp only [pendingBytes, hx, hb]
  exact ⟨by rw [hw, hp], h.of_same hc hx hb⟩

theorem Lengthened.refl {s : State} (h : TxOk s) : Lengthened s s := .of_quiet h rfl rfl rfl rfl

theorem Grown.lengthened {s t : State} (h : Grown s t) : Lengthened s t := ⟨h.wire, h.ok⟩

theorem Lengthened.of_progress {s : State} (h : TxOk s) (phase : Phase) (o n : Word) :
    Lengthened s (progress phase o n s) := .of_quiet h rfl rfl rfl (by simp [wireBytes])

theorem Lengthened.complete {s t : State} (h : Lengthened s t) (st : Status) (data : Word) :
    Lengthened s (complete st data t) :=
  h.trans (.of_quiet h.ok (by simp) (by simp) (by simp) (by simp [wireBytes]))

theorem Lengthened.holding {s t : State} (h : Lengthened s t) (p : Pending) :
    Lengthened s { t with running := some p } := h.trans (.of_quiet h.ok rfl rfl rfl rfl)

/-- However the flow ends, it only lengthened what `s` has sent and pending. -/
abbrev Flow.lengthens {α : Type} (x : Flow α) (s : State) : Prop := x.keeps (Lengthened s)

theorem Flow.lengthens_after {α : Type} {x : Flow α} {s t : State} (h : Lengthened s t) (hx : x.lengthens t) :
    x.lengthens s := Flow.keeps_mono hx fun _ hu => h.trans hu

theorem Flow.lengthens_bind {α β : Type} {x : Flow α} {f : α → State → Flow β} {s : State} (hx : x.lengthens s)
    (hf : ∀ a t, TxOk t → (f a t).lengthens t) : (x.bind f).lengthens s :=
  Flow.leaves_bind hx fun a t ht => Flow.lengthens_after ht (hf a t ht.ok)

/-- A part that sends. -/
theorem Flow.sends.lengthens {x : Flow Unit} {s : State} {P : State → Prop} (hx : x.sends s P)
    (hp : ∀ t, P t → Grown s t) : x.lengthens s := by
  rcases hx with ⟨t, rfl, ht⟩ | ⟨t, rfl, ht, _⟩
  · exact (hp t ht).lengthened
  · exact ht.lengthened

theorem flush_lengthens {s : State} (h : TxOk s) : (flush s).lengthens s :=
  (flush_sends h).lengthens fun _ ht => ht.appended.grown

theorem appendByte_lengthens (b : Byte) {s : State} (h : TxOk s) : (appendByte b s).lengthens s :=
  (appendByte_sends b h).lengthens fun _ ht => ht.1.grown

theorem appendWord_lengthens (v : Word) {s : State} (h : TxOk s) : (appendWord v s).lengthens s :=
  (appendWord_sends v h).lengthens fun _ ht => ht.1.grown

theorem sendProbe_lengthens {s : State} (h : TxOk s) : (sendProbe s).lengthens s :=
  (sendProbe_sends h).lengthens fun _ ht => ht.1.grown

theorem shutdownRule_lengthens {s : State} (h : TxOk s) : (shutdownRule s).lengthens s :=
  Flow.lengthens_bind (appendWord_lengthens _ h) fun _ _ ht =>
    Flow.lengthens_bind (flush_lengthens ht) fun _ _ hu => .of_quiet hu rfl rfl rfl rfl

/-! ## The receive side: it sends nothing, in order or not -/

theorem scanWindow_lengthens (n : Nat) {s : State} (h : TxOk s) : (scanWindow n s).lengthens s := by
  induction n generalizing s with
  | zero => exact Lengthened.refl h
  | succ n ih =>
    have hread : (readRx s.rxcur s).lengthens s := by
      unfold readRx
      split
      · exact Lengthened.refl h
      · trivial
    refine Flow.lengthens_bind hread fun x t ht => ?_
    have hnext : Lengthened t { t with rxcur := t.rxcur + 1 } := .of_quiet ht rfl rfl rfl rfl
    dsimp only
    split
    · exact hnext
    · exact Flow.lengthens_after hnext (ih hnext.ok)

theorem tReceive_lengthens (n : Nat) (w : Word) (a : List Byte) (rest : List (List Byte)) {s : State} (h : TxOk s) :
    (tReceive n w a rest s).lengthens s := by
  unfold tReceive
  split
  · exact .of_quiet h rfl rfl rfl (by simp [wireBytes])
  · trivial

theorem receiveBitOver_lengthens (w : Word) (answers : List (List Byte)) {s : State} (h : TxOk s) :
    (receiveBitOver w answers s).lengthens s := by
  induction answers generalizing s with
  | nil =>
    refine Flow.lengthens_bind (scanWindow_lengthens _ h) fun found t ht => ?_
    cases found <;> exact Lengthened.refl ht
  | cons a rest ih =>
    refine Flow.lengthens_bind (scanWindow_lengthens _ h) fun found t ht => ?_
    cases found with
    | some b => exact Lengthened.refl ht
    | none =>
      refine Flow.lengthens_bind (tReceive_lengthens _ w a rest ht) fun _ u hu => ?_
      have hfill : Lengthened u (fillWindow a u) := .of_quiet hu rfl rfl rfl rfl
      dsimp only
      split
      · exact hfill
      · exact Flow.lengthens_after hfill (ih hfill.ok)

theorem receiveBit_lengthens (w : Word) (p : Pending) {s : State} (h : TxOk s) :
    ((receiveBit w s).waitingAs p).lengthens s :=
  Flow.keeps_waitingAs (receiveBitOver_lengthens w s.answers h) p fun _ ht => ht.holding p

theorem receiveBitRule_lengthens (w : Word) {s : State} (h : TxOk s) : (receiveBitRule w s).lengthens s :=
  Flow.lengthens_bind (receiveBit_lengthens w _ h) fun _ _ ht => Lengthened.refl ht

/-! ## Acknowledgements -/

theorem awaitAck_lengthens (at_ : Nat → Pending) (answers : List (List Byte)) (k : Nat) {s : State} (h : TxOk s) :
    (awaitAck at_ answers k s).lengthens s := by
  induction answers generalizing k s with
  | nil => exact (Lengthened.refl h).holding (at_ k)
  | cons a rest ih =>
    refine Flow.lengthens_bind (tReceive_lengthens 1 25#32 a rest h) fun _ t ht => ?_
    cases a with
    | cons b bs =>
      dsimp only
      split <;> exact Lengthened.refl ht
    | nil =>
      dsimp only
      split
      · exact Lengthened.refl ht
      · exact Flow.lengthens_bind (sendProbe_lengthens ht) fun _ u hu => ih (k - 1) hu

theorem waitForAck_lengthens (at_ : Nat → Pending) (n : Nat) {s : State} (h : TxOk s) :
    (waitForAck at_ n s).lengthens s := by
  unfold waitForAck
  split
  · exact Lengthened.refl h
  · exact Flow.lengthens_bind (sendProbe_lengthens h) fun _ t ht => awaitAck_lengthens at_ t.answers n ht

/-! ## HANDSHAKE -/

theorem Connected.lengthened {s t : State} {ps : List (List Byte)} (h : Connected s t ps) : Lengthened s t := by
  refine ⟨⟨handshakeStream, ?_⟩, h.ok⟩
  have hcur : t.txcur = 0 := by rw [h.frame]
  have htrace : wireBytes t.trace = wireBytes s.trace ++ ps.flatten := by
    rw [h.frame]
    simp [wireBytes]
  rw [pendingBytes_of_txcur_zero hcur, htrace, h.sent]
  simp

theorem sendConnect_lengthens {s : State} (h : TxOk s) : (sendConnect s).lengthens s := by
  rcases sendConnect_cases h with ⟨t, ps, hx, ht⟩ | ⟨t, hx, x, y, _, hg, _⟩
  all_goals rw [hx]
  · exact ht.lengthened
  · exact ⟨hg.wire, hg.ok⟩

theorem hsReceive_lengthens (w : Word) (p : Pending) {s : State} (h : TxOk s) :
    (((receiveBit w s).waitingAs p).onFail handshakeTimeout).lengthens s :=
  Flow.keeps_onFail (receiveBit_lengthens w p h) fun _ ht => ht.trans (.of_quiet ht.ok rfl rfl rfl rfl)

theorem verifyResponse_lengthens (n : Nat) {s : State} (h : TxOk s) : (verifyResponse n s).lengthens s := by
  induction n generalizing s with
  | zero => exact Lengthened.refl h
  | succ n ih =>
    refine Flow.lengthens_bind (hsReceive_lengthens _ _ h) fun b t ht => ?_
    have hstep : Lengthened t (lfsrStep t) := .of_quiet ht rfl rfl rfl rfl
    dsimp only
    split
    · exact Flow.lengthens_after hstep (ih hstep.ok)
    · exact .of_quiet ht rfl rfl rfl rfl

theorem receiveVersion_lengthens (n : Nat) (acc : Byte) {s : State} (h : TxOk s) :
    (receiveVersion n acc s).lengthens s := by
  induction n generalizing acc s with
  | zero => exact Lengthened.refl h
  | succ n ih => exact Flow.lengthens_bind (hsReceive_lengthens _ _ h) fun b t ht => ih _ ht

theorem handshakeFromVersion_lengthens (n : Nat) (acc : Byte) {s : State} (h : TxOk s) :
    (handshakeFromVersion n acc s).lengthens s :=
  Flow.lengthens_bind (receiveVersion_lengthens n acc h) fun _ _ ht =>
    .of_quiet ht rfl rfl rfl (by simp [wireBytes])

theorem handshakeFromResponse_lengthens (n : Nat) {s : State} (h : TxOk s) : (handshakeFromResponse n s).lengthens s :=
  Flow.lengthens_bind (verifyResponse_lengthens n h) fun _ t ht =>
    have hstart : Lengthened t { progress .versionStart 0#32 0#32 t with hsState := .versionAwaited } :=
      .of_quiet ht rfl rfl rfl (by simp [wireBytes])
    Flow.lengthens_after hstart (handshakeFromVersion_lengthens 8 0x00#8 hstart.ok)

theorem handshakeRule_lengthens {s : State} (h : TxOk s) : (handshakeRule s).lengthens s :=
  Flow.lengthens_bind (sendConnect_lengthens h) fun _ _ ht => handshakeFromResponse_lengthens 250 ht

/-! ## LOAD_IMAGE -/

section load

variable (phase : AckPhase) (kind : LoadKind) (size : Word) {s : State}

theorem finishLoad_lengthens (h : TxOk s) : (finishLoad size s).lengthens s :=
  .of_quiet h rfl rfl rfl (by simp [wireBytes])

/-- A phase of a load behind its report. -/
theorem loadAck_lengthens (p : Phase) (h : TxOk s) :
    (loadAck phase kind size (progress p 0#32 size s)).lengthens s :=
  have hp := Lengthened.of_progress h p 0#32 size
  Flow.lengthens_after hp (waitForAck_lengthens _ _ hp.ok)

theorem loadVerify_lengthens (h : TxOk s) : (loadVerify kind size s).lengthens s :=
  Flow.lengthens_bind (loadAck_lengthens _ kind size _ h) fun _ _ ht => finishLoad_lengthens size ht

theorem loadWrite_lengthens (h : TxOk s) : (loadWrite kind size s).lengthens s :=
  Flow.lengthens_bind (loadAck_lengthens _ kind size _ h) fun _ _ ht => loadVerify_lengthens kind size ht

theorem afterAck_lengthens (h : TxOk s) : (afterAck phase kind size s).lengthens s := by
  cases phase with
  | program =>
    rw [afterAck_program]
    split
    · exact loadWrite_lengthens kind size h
    · exact finishLoad_lengthens size h
  | eepromWrite => exact loadVerify_lengthens kind size h
  | eepromVerify => exact finishLoad_lengthens size h

theorem loadRule_lengthens (h : TxOk s) : (loadRule kind size s).lengthens s := by
  unfold loadRule
  split
  · exact Lengthened.refl h
  · split
    · exact Lengthened.refl h
    · split
      · exact Lengthened.refl h
      · refine Flow.lengthens_bind ((sendImage_sends kind h (by omega) fun _ => by omega).lengthens fun _ ht => ht.grown)
          fun _ t ht => ?_
        exact Flow.lengthens_bind (waitForAck_lengthens _ _ ht) fun _ _ hu => afterAck_lengthens _ kind size hu

end load

/-! ## The commands -/

/-- From its acceptance a command other than INIT lengthens the wire. -/
theorem ruleOf_lengthens {i : Instr} (hi : i ≠ .init) {s : State} (h : TxOk s) : (ruleOf i s).lengthens s := by
  cases i with
  | init => exact absurd rfl hi
  | readReg index =>
    unfold ruleOf
    dsimp only
    split <;> exact Lengthened.refl h
  | lfsrSeed seed => exact .of_quiet h rfl rfl rfl rfl
  | lfsrStep => exact .of_quiet h rfl rfl rfl rfl
  | appendByte byte => exact Flow.lengthens_bind (appendByte_lengthens byte h) fun _ _ ht => .refl ht
  | appendWord value => exact Flow.lengthens_bind (appendWord_lengthens value h) fun _ _ ht => .refl ht
  | flush => exact Flow.lengthens_bind (flush_lengthens h) fun _ _ ht => .refl ht
  | receiveBit w => exact receiveBitRule_lengthens w h
  | handshake => exact handshakeRule_lengthens h
  | waitForAck n => exact Flow.lengthens_bind (waitForAck_lengthens _ _ h) fun _ _ ht => .refl ht
  | loadImage kind size => exact loadRule_lengthens kind size h
  | shutdown => exact shutdownRule_lengthens h

/-- So does a command from the call it waits in. -/
theorem resumeRule_lengthens (p : Pending) {s : State} (h : TxOk s) : (resumeRule p s).lengthens s := by
  cases p with
  | receiveBit w => exact receiveBitRule_lengthens w h
  | response n => exact handshakeFromResponse_lengthens n h
  | version n acc => exact handshakeFromVersion_lengthens n acc h
  | waitForAck k => exact Flow.lengthens_bind (awaitAck_lengthens _ _ k h) fun _ _ ht => .refl ht
  | load phase kind size k =>
    exact Flow.lengthens_bind (awaitAck_lengthens _ _ k h) fun _ _ ht => afterAck_lengthens phase kind size ht
  | hung op => exact Lengthened.refl h

theorem settle_lengthened {op : Opcode} {x : Flow Word} {s u t : State} (hu : Lengthened s u) (hx : x.lengthens u)
    (h : settle op x = .next t) : Lengthened s t :=
  settle_leaves (Flow.lengthens_after hu hx) (fun st data _ hv => hv.complete st data)
    (fun _ hv => hv.holding (.hung op)) h

theorem step_lengthens {s t : State} (h : TxOk s) (hr : resetsNext s = false) (hi : commandOf s ≠ some .init)
    (hstep : step s = .next t) : Lengthened s t := by
  cases step_next hstep with
  | reset next => exact absurd ((resetsNext_blockReset next).symm.trans hr) nofun
  | idle next ready => exact .refl h
  | hangs next busy stands => exact .refl h
  | waits next busy stands => exact .of_quiet h rfl rfl rfl rfl
  | @goesOn p n answers _ next busy stands ends settles =>
    have hgo : Lengthened s { s with draws := n, answers := answers, running := none } := .of_quiet h rfl rfl rfl rfl
    exact settle_lengthened hgo (resumeRule_lengthens p hgo.ok) settles
  | @turnsDown word image held rest st next ready reason =>
    have haccept : Lengthened s (accept (presented image held rest s)) := .of_quiet h rfl rfl rfl rfl
    exact haccept.complete st 0#32
  | @runs word image held rest i _ next ready decodes allows settles =>
    have haccept : Lengthened s (accept (presented image held rest s)) := .of_quiet h rfl rfl rfl rfl
    have hne : i ≠ .init := by
      rintro rfl
      exact hi (commandOf_decodes next ready decodes)
    exact settle_lengthened haccept (ruleOf_lengthens hne haccept.ok) settles

/-- Settles O26: every step but INIT and a block reset only lengthens what is sent and then pending. -/
theorem wireOrderIsAppendOrder : Obligations.WireOrderIsAppendOrder := by
  intro s t h hr hi hstep
  have hl := step_lengthens h hr hi hstep
  exact ⟨hl.wire, hl.ok⟩

end Sys2Proof.Machine
end

section
/-! A step with BUSY = 1 (spec/40_control.md R110): the command in progress goes on with an answer, scripted or drawn, or
waits on. -/

namespace Sys2Proof.Machine

open Sys2Proof

theorem step_busy {s : State} (hr : resetsNext s = false) (hb : s.busy = true) : step s = continueCommand s := by
  unfold step stepBlock
  split
  · next rest hh => exact absurd ((resetsNext_blockReset hh).symm.trans hr) nofun
  · rw [if_pos hb]
  · rw [if_pos hb]

section waiting

variable {s : State} {p : Pending}

theorem continueCommand_answered (hp : s.running = some p) (ends : ∀ op, p ≠ .hung op) (ha : s.answers ≠ []) :
    continueCommand s = resume p s := by
  obtain ⟨a, rest, ha⟩ := List.exists_cons_of_ne_nil ha
  unfold continueCommand
  cases p with
  | hung op => exact absurd rfl (ends op)
  | _ => simp only [hp, ha]

theorem continueCommand_drawn (hp : s.running = some p) (ends : ∀ op, p ≠ .hung op) (ha : s.answers = [])
    {a : List Byte} (hd : Config.transportDraw s.draws = some a) :
    continueCommand s = resume p { s with draws := s.draws + 1, answers := [a.take (p.maxBytes s.cfg)] } := by
  unfold continueCommand
  cases p with
  | hung op => exact absurd rfl (ends op)
  | _ => simp only [hp, ha, drawAnswer, hd]

theorem continueCommand_waits (hp : s.running = some p) (ends : ∀ op, p ≠ .hung op) (ha : s.answers = [])
    (hd : Config.transportDraw s.draws = none) : continueCommand s = .next { s with draws := s.draws + 1 } := by
  unfold continueCommand
  cases p with
  | hung op => exact absurd rfl (ends op)
  | _ => simp only [hp, ha, drawAnswer, hd]

end waiting

/-- Settles O51: where the call returns, the drawn answer is the one scripted answer of the state behind the draw. -/
theorem waitingCommandDrawsAnAnswer : Obligations.WaitingCommandDrawsAnAnswer := by
  intro s p hb hp ends ha hr
  refine ⟨fun a hd => ?_, fun hd => (step_busy hr hb).trans (continueCommand_waits hp ends ha hd)⟩
  let u : State := { s with draws := s.draws + 1, answers := [a.take (p.maxBytes s.cfg)] }
  calc step s = continueCommand s := step_busy hr hb
    _ = resume p u := continueCommand_drawn hp ends ha hd
    _ = continueCommand u := (continueCommand_answered (s := u) hp ends (List.cons_ne_nil _ _)).symm
    _ = step u := (step_busy (s := u) hr hb).symm

end Sys2Proof.Machine
end

section
/-! Faults (spec/20_memory.md R50 to R53): where both buffers are in order, no operation of a command leaves a buffer or
the image, and each leaves both in order for the next. -/

namespace Sys2Proof.Machine

open Sys2Proof

/-- Both buffers are in order. -/
structure InOrder (s : State) : Prop where
  tx : TxOk s
  rx : RxOk s

section inOrder

variable {s t : State}

/-- Being in order speaks of the two buffers, their cursors and the parameters alone. -/
theorem InOrder.of_same (h : InOrder s)
    (hf : t = { s with
      lfsr := t.lfsr, version := t.version, hsState := t.hsState, sess := t.sess, lastStatus := t.lastStatus,
      busy := t.busy, running := t.running, host := t.host, image := t.image, imageHeld := t.imageHeld,
      answers := t.answers, returns := t.returns, draws := t.draws, trace := t.trace }) : InOrder t := by
  rw [hf]
  exact ⟨h.tx.of_same rfl rfl rfl, h.rx.of_same rfl rfl rfl rfl⟩

theorem Grown.inOrder (hg : Grown s t) (h : InOrder s) : InOrder t := by
  refine ⟨hg.ok, ?_⟩
  rw [hg.frame]
  exact h.rx.of_same rfl rfl rfl rfl

theorem Refilled.inOrder {w : Word} (hr : Refilled w s t) (h : InOrder s) : InOrder t := by
  refine ⟨?_, hr.ok⟩
  rw [hr.frame]
  exact h.tx.of_same rfl rfl rfl

theorem Connected.inOrder {ps : List (List Byte)} (hc : Connected s t ps) (h : InOrder s) : InOrder t :=
  ⟨hc.ok, hc.rxOk h.rx⟩

theorem Sound.inOrder (h : Sound s) : InOrder s := ⟨h.tx, h.rx⟩

end inOrder

/-- The flow does not fault, and where it runs to its end both buffers are in order. -/
def Flow.safe {α : Type} (x : Flow α) : Prop :=
  match x with
  | .done _ s => InOrder s
  | .fail _ _ => True
  | .wait _ => True
  | .hung _ => True
  | .fault _ => False
  | .refused _ => True

theorem Flow.safe_bind {α β : Type} {x : Flow α} {f : α → State → Flow β} (hx : x.safe)
    (hf : ∀ a t, InOrder t → (f a t).safe) : (x.bind f).safe := by
  cases x with
  | done a t => exact hf a t hx
  | fault e => exact hx
  | _ => trivial

/-- A part that sends. -/
theorem Flow.sends.safe {x : Flow Unit} {s : State} {P : State → Prop} (hx : x.sends s P) (h : InOrder s)
    (hp : ∀ t, P t → Grown s t) : x.safe := by
  rcases hx with ⟨t, rfl, ht⟩ | ⟨t, rfl, _⟩
  · exact (hp t ht).inOrder h
  · trivial

section rules

variable {s : State}

theorem flush_safe (h : InOrder s) : (flush s).safe :=
  (flush_sends h.tx).safe h fun _ ht => ht.appended.grown

theorem appendByte_safe (b : Byte) (h : InOrder s) : (appendByte b s).safe :=
  (appendByte_sends b h.tx).safe h fun _ ht => ht.1.grown

theorem appendWord_safe (v : Word) (h : InOrder s) : (appendWord v s).safe :=
  (appendWord_sends v h.tx).safe h fun _ ht => ht.1.grown

theorem shutdownRule_safe (h : InOrder s) : (shutdownRule s).safe :=
  Flow.safe_bind (appendWord_safe _ h) fun _ _ ht =>
    Flow.safe_bind (flush_safe ht) fun _ _ hu => hu.of_same rfl

theorem receiveBitRule_safe (w : Word) (h : InOrder s) : (receiveBitRule w s).safe := by
  unfold receiveBitRule
  rcases receiveBit_cases w h.rx with ⟨b, u, hx, hu⟩ | ⟨u, hx, _⟩ | ⟨u, hx, _⟩ | ⟨n, l, hx⟩
  all_goals rw [hx]
  · exact hu.inOrder h
  all_goals trivial

/-! ## Acknowledgements -/

theorem awaitAck_safe (at_ : Nat → Pending) {k : Nat} (h : InOrder s) (h0 : s.txcur = 0) (hk : 1 ≤ k) :
    (awaitAck at_ s.answers k s).safe := by
  rcases awaitAck_cases at_ s.answers h.tx h0 hk rfl with
    ⟨t, hx, ht⟩ | ⟨st, t, hx, _⟩ | ⟨t, m, hx, _⟩ | ⟨t, hx, _⟩ | ⟨n, l, hx⟩
  all_goals rw [hx]
  · exact ht.grown.inOrder h
  all_goals trivial

theorem waitForAck_safe (at_ : Nat → Pending) (n : Nat) (h : InOrder s) : (waitForAck at_ n s).safe := by
  by_cases hn : n = 0
  · rw [waitForAck, if_pos hn]
    trivial
  · rcases waitForAck_cases at_ hn h.tx with ⟨u, hx, hu, h0, _⟩ | ⟨u, hx, _⟩
    all_goals rw [hx]
    · exact awaitAck_safe at_ (hu.grown.inOrder h) h0 (Nat.one_le_iff_ne_zero.2 hn)
    · trivial

/-! ## HANDSHAKE -/

theorem handshakeFromVersion_safe (n : Nat) (acc : Byte) (h : InOrder s) : (handshakeFromVersion n acc s).safe := by
  unfold handshakeFromVersion
  rcases receiveVersion_cases n acc h.rx with ⟨u, v, hx, hu⟩ | ⟨u, hx, _⟩ | ⟨u, m, v, hx, _⟩ | ⟨k, l, hx⟩
  all_goals rw [hx]
  · exact (hu.inOrder h).of_same rfl
  all_goals trivial

theorem handshakeFromResponse_safe (n : Nat) (h : InOrder s) : (handshakeFromResponse n s).safe := by
  unfold handshakeFromResponse
  rcases verifyResponse_cases n h.rx with ⟨u, hx, hu⟩ | ⟨u, st, x, y, hx, _⟩ | ⟨u, m, hx, _⟩ | ⟨k, l, hx⟩
  all_goals rw [hx]
  · have hl : InOrder { s with lfsr := lfsrAfter n s.lfsr } := h.of_same rfl
    exact handshakeFromVersion_safe 8 0x00#8 ((hu.inOrder hl).of_same rfl)
  all_goals trivial

theorem handshakeRule_safe (h : InOrder s) : (handshakeRule s).safe := by
  unfold handshakeRule
  rcases sendConnect_cases h.tx with ⟨t, ps, hx, ht⟩ | ⟨t, hx, _⟩
  all_goals rw [hx]
  · exact handshakeFromResponse_safe 250 (ht.inOrder h)
  · trivial

/-! ## LOAD_IMAGE -/

variable (phase : AckPhase) (kind : LoadKind) (size : Word)

theorem finishLoad_safe (h : InOrder s) : (finishLoad size s).safe := h.of_same rfl

theorem loadVerify_safe (h : InOrder s) : (loadVerify kind size s).safe :=
  Flow.safe_bind (waitForAck_safe _ _ (h.of_same rfl)) fun _ _ ht => finishLoad_safe size ht

theorem loadWrite_safe (h : InOrder s) : (loadWrite kind size s).safe :=
  Flow.safe_bind (waitForAck_safe _ _ (h.of_same rfl)) fun _ _ ht => loadVerify_safe kind size ht

theorem afterAck_safe (h : InOrder s) : (afterAck phase kind size s).safe := by
  cases phase with
  | program =>
    rw [afterAck_program]
    split
    · exact loadWrite_safe kind size h
    · exact finishLoad_safe size h
  | eepromWrite => exact loadVerify_safe kind size h
  | eepromVerify => exact finishLoad_safe size h

/-- The checks on the size keep the reads of IMAGE inside it. -/
theorem loadRule_safe (h : InOrder s) : (loadRule kind size s).safe := by
  unfold loadRule
  split
  · trivial
  · split
    · trivial
    · split
      · trivial
      · have hsend := sendImage_sends (size := size) kind h.tx (by omega) fun _ => by omega
        refine Flow.safe_bind (hsend.safe h fun _ ht => ht.grown) fun _ t ht => ?_
        exact Flow.safe_bind (waitForAck_safe _ _ ht) fun _ _ hu => afterAck_safe _ kind size hu

/-! ## The commands -/

theorem ruleOf_safe (i : Instr) (h : InOrder s) : (ruleOf i s).safe := by
  cases i with
  | init => exact ⟨⟨h.tx.cap, Nat.zero_le _, rfl, rfl⟩, h.rx.cap, Nat.le_refl _, Nat.zero_le _, rfl, rfl⟩
  | readReg index =>
    unfold ruleOf
    dsimp only
    split
    · exact h
    · trivial
  | lfsrSeed seed => exact h.of_same rfl
  | lfsrStep => exact h.of_same rfl
  | appendByte byte => exact Flow.safe_bind (appendByte_safe byte h) fun _ _ ht => ht
  | appendWord value => exact Flow.safe_bind (appendWord_safe value h) fun _ _ ht => ht
  | flush => exact Flow.safe_bind (flush_safe h) fun _ _ ht => ht
  | receiveBit w => exact receiveBitRule_safe w h
  | handshake => exact handshakeRule_safe h
  | waitForAck n => exact Flow.safe_bind (waitForAck_safe _ _ h) fun _ _ ht => ht
  | loadImage kind size => exact loadRule_safe kind size h
  | shutdown => exact shutdownRule_safe h

theorem resumeRule_safe {p : Pending} (h : InOrder s) (hp : pendingSound s p) : (resumeRule p s).safe := by
  cases p with
  | receiveBit w => exact receiveBitRule_safe w h
  | response n => exact handshakeFromResponse_safe n h
  | version n acc => exact handshakeFromVersion_safe n acc h
  | waitForAck k =>
    obtain ⟨hk, _, h0, _⟩ := hp
    exact Flow.safe_bind (awaitAck_safe _ h h0 hk) fun _ _ ht => ht
  | load phase kind size k =>
    obtain ⟨hk, _, h0, _⟩ := hp
    exact Flow.safe_bind (awaitAck_safe _ h h0 hk) fun _ _ ht => afterAck_safe phase kind size ht
  | hung op => trivial

end rules

/-! ## The step -/

/-- The outcome is no fault. -/
def NoFault (o : Host.Outcome State Fault Refusal) : Prop := ∀ f, o ≠ .fault f

theorem noFault_next (t : State) : NoFault (.next t) := nofun

theorem settle_noFault {x : Flow Word} (hx : x.safe) (op : Opcode) : NoFault (settle op x) := by
  cases x with
  | fault e => exact absurd hx id
  | _ => exact nofun

theorem dispatch_noFault (op : Opcode) {rule : State → Flow Word} {s : State} (h : (rule (accept s)).safe) :
    NoFault (dispatch op rule s) := by
  rcases dispatch_cases op rule s with ⟨_, hx⟩ | ⟨_, _, hx⟩ | ⟨_, hx⟩
  all_goals rw [hx]
  · exact nofun
  · exact noFault_next _
  · exact settle_noFault h op

theorem runWord_noFault (word : Command) {s : State} (h : InOrder s) : NoFault (runWord word s) := by
  unfold runWord
  split
  · next i _ =>
    rw [exec_eq_dispatch]
    exact dispatch_noFault _ (ruleOf_safe i (h.of_same rfl))
  · unfold dispatchIllegal
    split
    · exact nofun
    · exact noFault_next _

/-- Where a command stands, the answers still to come and the draws made do not matter to its wait. -/
theorem pendingSound_outside {p : Pending} {s : State} (h : pendingSound s p) (r : Option Pending) (n : Nat)
    (answers : List (List Byte)) : pendingSound { s with running := r, draws := n, answers := answers } p := by
  cases p <;> exact h

theorem resume_noFault {p : Pending} {s : State} (h : InOrder s) (hp : pendingSound s p) : NoFault (resume p s) :=
  settle_noFault (resumeRule_safe (h.of_same rfl) (pendingSound_outside hp none s.draws s.answers)) _

/-- With BUSY = 1 a sound state has a command in progress, and its wait is sound. -/
theorem continueCommand_noFault {s : State} (h : Sound s) (hb : s.busy = true) : NoFault (continueCommand s) := by
  obtain ⟨p, hp⟩ := Option.isSome_iff_exists.1 (h.busyRunning.symm.trans hb)
  have hsound := h.waits p hp
  by_cases ends : ∃ op, p = .hung op
  · obtain ⟨op, rfl⟩ := ends
    unfold continueCommand
    rw [hp]
    exact noFault_next s
  · have ends : ∀ op, p ≠ .hung op := fun op heq => ends ⟨op, heq⟩
    by_cases ha : s.answers = []
    · cases hd : Config.transportDraw s.draws with
      | none =>
        rw [continueCommand_waits hp ends ha hd]
        exact noFault_next _
      | some a =>
        rw [continueCommand_drawn hp ends ha hd]
        exact resume_noFault (h.inOrder.of_same rfl) (pendingSound_outside hsound s.running _ _)
    · rw [continueCommand_answered hp ends ha]
      exact resume_noFault h.inOrder hsound

/-- Settles O54, for each kind of move: a command is safe from its acceptance and from the call it waits in. -/
theorem soundStatesDoNotFault : Obligations.SoundStatesDoNotFault := by
  intro s f h
  suffices hs : NoFault (step s) from hs f
  unfold step stepBlock
  split
  · exact noFault_next _
  · split
    · next hb => exact continueCommand_noFault h hb
    · exact runWord_noFault _ (h.inOrder.of_same rfl)
  · split
    · next hb => exact continueCommand_noFault h hb
    · exact noFault_next s

end Sys2Proof.Machine
end

section
/-! LOAD_IMAGE from its acceptance to its end (spec/46_load.md R240 to R242), whether the image is held or not: the words
sent are those of `wordsFrom`. -/

namespace Sys2Proof.Machine

open Sys2Proof

variable {s t u : State} {kind : LoadKind} {size : Word} {later : List Event} {answers rest : List (List Byte)}

theorem draws_of_words (s : State) (size : Word) : size.toNat / 4 * wordDraws s = imageDraws s size := by
  unfold wordDraws imageDraws
  split
  · exact Nat.mul_zero _
  · exact Nat.mul_one _

/-- `t` is `s` inside a LOAD_IMAGE that has sent its image and then made the events `later`, the answers `rest` not
taken. -/
structure LoadSoFar (s t : State) (kind : LoadKind) (size : Word) (later : List Event) (rest : List (List Byte)) :
    Prop where
  shown : ∃ sent : List Event,
    t = { s with
      txbuf := t.txbuf, txcur := 0, answers := rest, draws := s.draws + imageDraws s size,
      trace := s.trace ++ sent ++ later } ∧
    LoadSent s t size (loadBytes s.cfg kind size (wordsFrom s (size.toNat / 4) 0)) sent
  ok : TxOk t

namespace LoadSoFar

theorem txcur_eq (h : LoadSoFar s t kind size later rest) : t.txcur = 0 := by
  obtain ⟨_, hf, _⟩ := h.shown
  rw [hf]

theorem answers_eq (h : LoadSoFar s t kind size later rest) : t.answers = rest := by
  obtain ⟨_, hf, _⟩ := h.shown
  rw [hf]

theorem returns_eq (h : LoadSoFar s t kind size later rest) : t.returns = s.returns := by
  obtain ⟨_, hf, _⟩ := h.shown
  rw [hf]

/-- A report. -/
theorem report (h : LoadSoFar s t kind size later rest) (p : Phase) :
    LoadSoFar s (progress p 0#32 size t) kind size (later ++ [.progress p 0#32 size]) rest := by
  obtain ⟨sent, hf, hs⟩ := h.shown
  refine ⟨⟨sent, ?_, hs.of_stored fun _ _ => rfl⟩, h.ok.of_same rfl rfl rfl⟩
  rw [hf]
  simp [progress, State.emit]

/-- The attempts of an acknowledgement. -/
theorem phase (h : LoadSoFar s t kind size later answers) {attempts : List (List Byte)}
    (hp : PhaseEnded t u attempts rest) : LoadSoFar s u kind size (later ++ attemptEvents attempts) rest := by
  obtain ⟨sent, hf, hs⟩ := h.shown
  refine ⟨⟨sent, ?_, hs.of_stored hp.stored⟩, hp.ok⟩
  rw [hp.frame, hf]
  simp

/-- An acknowledged phase, where every call returns. -/
theorem acked {silent : Nat} (h : LoadSoFar s t kind size later (ackAnswers silent ++ rest)) (hr : CallsReturn s)
    (phase : AckPhase) (hk : silent < ackBudget phase) :
    ∃ u, loadAck phase kind size t = .done () u ∧
      LoadSoFar s u kind size (later ++ attemptEvents (ackAnswers silent)) rest := by
  obtain ⟨u, hu, hp⟩ := loadAck_ack phase kind size silent rest h.ok h.txcur_eq (h.returns_eq.trans hr) hk h.answers_eq
  exact ⟨u, hu, h.phase hp⟩

/-- The end of the command: what acceptance wrote does not show. -/
theorem ended (h : LoadSoFar (accept s) t kind size later rest) (st : Status) (sess : Sess) :
    LoadEnded s (answered st 0#32 { t with sess := sess }) kind size (wordsFrom s (size.toNat / 4) 0) later sess st
      rest := by
  obtain ⟨sent, hf, hs⟩ := h.shown
  refine ⟨sent, ?_, hs.wire, hs.reports, hs.only, hs.places, hs.stored⟩
  rw [hf]
  rfl

end LoadSoFar

/-- Steps 2 to 4 of a load whose size is in order, where every call returns. -/
theorem loadRule_starts (h : TxOk s) (hr : CallsReturn s) (hsize : size.toNat % 4 = 0)
    (hmax : size.toNat ≤ s.cfg.maxImage) (himage : size.toNat ≤ s.image.length) :
    ∃ t, loadRule kind size s =
        ((loadAck .program kind size t).bind fun _ t => afterAck .program kind size t) ∧
      LoadSoFar s t kind size [] s.answers := by
  obtain ⟨t, ht, hs⟩ := sendImage_spec kind h hr hsize fun _ => himage
  obtain ⟨sent, htrace, hsent⟩ := hs.shown
  refine ⟨t, ?_, ⟨sent, ?_, hsent⟩, hs.ok⟩
  · rw [loadRule_checked hsize hmax himage, loadSequence, ht, Flow.bind_done]
  · have hret : t.returns = s.returns := (hs.calls hr).trans hr.symm
    have hf := hs.frame
    rw [htrace, hret, draws_of_words] at hf
    rw [List.append_nil]
    exact hf

theorem settle_finishLoad (h : LoadSoFar (accept s) t kind size later rest) :
    ∃ u, settle .loadImage (finishLoad size t) = .next u ∧
      LoadEnded s u kind size (wordsFrom s (size.toNat / 4) 0) (later ++ [.progress .done 0#32 size]) .done .ok rest :=
  ⟨_, rfl, (h.report .done).ended .ok .done⟩

/-- A load without EEPROM that is acknowledged. -/
theorem loadImage_one_ack {silent : Nat} (hready : Ready .loadImage s) (h : TxOk s) (hr : CallsReturn s)
    (hkind : hasEeprom kind = false) (hsize : size.toNat % 4 = 0) (hmax : size.toNat ≤ s.cfg.maxImage)
    (himage : size.toNat ≤ s.image.length) (hk : silent < 400) (ha : s.answers = ackAnswers silent ++ rest) :
    ∃ t, exec (.loadImage kind size) s = .next t ∧
      LoadEnded s t kind size (wordsFrom s (size.toNat / 4) 0)
        (attemptEvents (ackAnswers silent) ++ [.progress .done 0#32 size]) .done .ok rest := by
  obtain ⟨t, hrun, ht⟩ := loadRule_starts (kind := kind) (s := accept s) (h.of_same rfl rfl rfl) hr hsize hmax himage
  rw [accept_answers, ha] at ht
  obtain ⟨u, hu, hpu⟩ := ht.acked hr .program hk
  obtain ⟨v, hv, hend⟩ := settle_finishLoad hpu
  refine ⟨v, ?_, hend⟩
  calc exec (.loadImage kind size) s = settle .loadImage (loadRule kind size (accept s)) := dispatch_ready hready _
    _ = settle .loadImage (finishLoad size u) := by rw [hrun, hu, Flow.bind_done, afterAck_program, hkind]; rfl
    _ = .next v := hv

/-- A load with EEPROM whose three phases are acknowledged. -/
theorem loadImage_three_acks {silent₁ silent₂ silent₃ : Nat} (hready : Ready .loadImage s) (h : TxOk s)
    (hr : CallsReturn s) (hkind : hasEeprom kind = true) (hsize : size.toNat % 4 = 0)
    (hmax : size.toNat ≤ s.cfg.maxImage) (himage : size.toNat ≤ s.image.length) (hk₁ : silent₁ < 400)
    (hk₂ : silent₂ < 200) (hk₃ : silent₃ < 80)
    (ha : s.answers = ackAnswers silent₁ ++ ackAnswers silent₂ ++ ackAnswers silent₃ ++ rest) :
    ∃ t, exec (.loadImage kind size) s = .next t ∧
      LoadEnded s t kind size (wordsFrom s (size.toNat / 4) 0)
        (attemptEvents (ackAnswers silent₁) ++ [.progress .eepromWrite 0#32 size] ++
          attemptEvents (ackAnswers silent₂) ++ [.progress .eepromVerify 0#32 size] ++
          attemptEvents (ackAnswers silent₃) ++ [.progress .done 0#32 size]) .done .ok rest := by
  obtain ⟨t, hrun, ht⟩ := loadRule_starts (kind := kind) (s := accept s) (h.of_same rfl rfl rfl) hr hsize hmax himage
  rw [accept_answers, ha, List.append_assoc, List.append_assoc] at ht
  obtain ⟨u, hu, hpu⟩ := ht.acked hr .program hk₁
  obtain ⟨v, hv, hpv⟩ := (hpu.report .eepromWrite).acked hr .eepromWrite hk₂
  obtain ⟨w, hw, hpw⟩ := (hpv.report .eepromVerify).acked hr .eepromVerify hk₃
  obtain ⟨x, hx, hend⟩ := settle_finishLoad hpw
  refine ⟨x, ?_, hend⟩
  have hverify : loadVerify kind size v = finishLoad size w := by rw [loadVerify, hw, Flow.bind_done]
  have hwrite : loadWrite kind size u = loadVerify kind size v := by rw [loadWrite, hv, Flow.bind_done]
  calc exec (.loadImage kind size) s = settle .loadImage (loadRule kind size (accept s)) := dispatch_ready hready _
    _ = settle .loadImage (loadWrite kind size u) := by rw [hrun, hu, Flow.bind_done, afterAck_program, hkind]; rfl
    _ = settle .loadImage (finishLoad size w) := by rw [hwrite, hverify]
    _ = .next x := hx

theorem hasEeprom_false (h : kind = .run ∨ kind = .shutdown) : hasEeprom kind = false := by
  rcases h with rfl | rfl <;> rfl

theorem hasEeprom_true (h : kind = .eeprom ∨ kind = .eepromRun) : hasEeprom kind = true := by
  rcases h with rfl | rfl <;> rfl

/-- Settles O43: the free words are as many as the size asks for. -/
theorem loadImageWithChangingImage : Obligations.LoadImageWithChangingImage := by
  intro s kind size silent₁ silent₂ silent₃ rest hready h hr hsize hmax himage _ hk₁ hk₂ hk₃
  refine ⟨fun hkind ha => ?_, fun hkind ha => ?_⟩
  · obtain ⟨t, hexec, hend⟩ :=
      loadImage_one_ack hready h hr (hasEeprom_false hkind) hsize hmax himage hk₁ ha
    exact ⟨t, _, hexec, wordsFrom_length _ _ _, hend⟩
  · obtain ⟨t, hexec, hend⟩ :=
      loadImage_three_acks hready h hr (hasEeprom_true hkind) hsize hmax himage hk₁ hk₂ hk₃ ha
    exact ⟨t, _, hexec, wordsFrom_length _ _ _, hend⟩

end Sys2Proof.Machine
end

section
/-! Command words (spec/30_encoding.md R90 to R93): a word decodes exactly if it is the word of a well-formed command,
and the words that do not end ILLEGAL. -/

namespace Sys2Proof

open Sys2Proof.Laws

theorem argsFit (i : Instr) : ArgsFit.Statement i := by
  cases i with
  | init => exact ArgsFit.init
  | readReg index => exact ArgsFit.readReg index
  | lfsrSeed seed => exact ArgsFit.lfsrSeed seed
  | lfsrStep => exact ArgsFit.lfsrStep
  | appendByte byte => exact ArgsFit.appendByte byte
  | appendWord value => exact ArgsFit.appendWord value
  | flush => exact ArgsFit.flush
  | receiveBit timeoutMs => exact ArgsFit.receiveBit timeoutMs
  | handshake => exact ArgsFit.handshake
  | waitForAck maxRetries => exact ArgsFit.waitForAck maxRetries
  | loadImage kind size => exact ArgsFit.loadImage kind size
  | shutdown => exact ArgsFit.shutdown

@[simp] theorem cmdOp_encode (i : Instr) : cmdOp (encode i) = i.opcode.code := cmdOp_mkCommand _ _ _
@[simp] theorem cmdArg0_encode (i : Instr) : cmdArg0 (encode i) = i.arg0 := cmdArg0_mkCommand _ _ _
@[simp] theorem cmdArg1_encode (i : Instr) : cmdArg1 (encode i) = i.arg1 := cmdArg1_mkCommand _ _ _

/-- Two words are equal exactly if their three fields are (R90). -/
theorem command_ext_iff {c d : Command} :
    c = d ↔ cmdOp c = cmdOp d ∧ cmdArg0 c = cmdArg0 d ∧ cmdArg1 c = cmdArg1 d := by
  refine ⟨fun h => by simp [h], fun ⟨hop, ha, hb⟩ => ?_⟩
  rw [← mkCommand_fields c, ← mkCommand_fields d, hop, ha, hb]

/-- The word has the operation code `op` and sets no bit that must be zero under it (R91, R92). -/
def FitsOpcode (op : Opcode) (c : Command) : Prop :=
  cmdOp c = op.code ∧ cmdArg0 c >>> op.arg0Bits = 0#32 ∧ cmdArg1 c >>> op.arg1Bits = 0#32

theorem fitsOpcode_encode (i : Instr) : FitsOpcode i.opcode (encode i) := by
  obtain ⟨h0, h1, _⟩ := argsFit i
  simp [FitsOpcode, h0, h1]

/-- What `decode` checks: the opcode map, the must-be-zero bits and the register index (spec/40_control.md R111). -/
theorem decode_eq_ok_iff {c : Command} {i : Instr} :
    decode c = .ok i ↔
      ∃ op, FitsOpcode op c ∧ op.withArgs (cmdArg0 c) (cmdArg1 c) = i ∧ i.wellFormed = true := by
  constructor
  · intro h
    unfold decode at h
    split at h
    · cases h
    · next op hop =>
      split at h
      · cases h
      · next hfit =>
        simp only [ne_eq, not_or, not_not] at hfit
        dsimp only at h
        split at h
        · next hwf =>
          cases h
          exact ⟨op, ⟨(code_of_opcodeOf hop).symm, hfit⟩, rfl, hwf⟩
        · cases h
  · rintro ⟨op, ⟨hop, h0, h1⟩, rfl, hwf⟩
    simp [decode, hop, h0, h1, hwf]

theorem opcode_withArgs (op : Opcode) (a b : Word) : (op.withArgs a b).opcode = op := by cases op <;> rfl

/-- A byte operand read from an argument with no bit from bit 8 up is the whole argument. -/
theorem arg_of_byte {a : Word} (h : a >>> 8 = 0#32) : (a.setWidth 8).setWidth 32 = a := by
  bv_omega

/-- A load kind read from an argument with no bit from bit 2 up has the argument as its code. -/
theorem arg_of_kind {a : Word} (h : a >>> 2 = 0#32) : (kindOf (a.setWidth 2)).code.setWidth 32 = a := by
  rw [code_kindOf]
  bv_omega

theorem arg_of_unused {a : Word} (h : a >>> 0 = 0#32) : 0#32 = a := h.symm

/-- Operands read from fields that fit give the fields back (R92). -/
theorem withArgs_args {op : Opcode} {a b : Word} (ha : a >>> op.arg0Bits = 0#32) (hb : b >>> op.arg1Bits = 0#32) :
    (op.withArgs a b).arg0 = a ∧ (op.withArgs a b).arg1 = b := by
  cases op with
  | readReg | lfsrSeed | appendByte => exact ⟨arg_of_byte ha, arg_of_unused hb⟩
  | appendWord | receiveBit | waitForAck => exact ⟨rfl, arg_of_unused hb⟩
  | loadImage => exact ⟨arg_of_kind ha, rfl⟩
  | init | lfsrStep | flush | handshake | shutdown => exact ⟨arg_of_unused ha, arg_of_unused hb⟩

/-- A word that fits an operation code is the word of the command read from it. -/
theorem encode_withArgs {op : Opcode} {c : Command} (h : FitsOpcode op c) :
    encode (op.withArgs (cmdArg0 c) (cmdArg1 c)) = c := by
  obtain ⟨hop, h0, h1⟩ := h
  obtain ⟨ha, hb⟩ := withArgs_args h0 h1
  rw [encode, opcode_withArgs, ha, hb, ← hop, mkCommand_fields]

/-- A word decodes to a command exactly if it is the command's word and the command is well-formed. -/
theorem decode_eq_ok_iff_encode {c : Command} {i : Instr} :
    decode c = .ok i ↔ encode i = c ∧ i.wellFormed = true := by
  rw [decode_eq_ok_iff]
  constructor
  · rintro ⟨op, hfit, rfl, hwf⟩
    exact ⟨encode_withArgs hfit, hwf⟩
  · rintro ⟨rfl, hwf⟩
    obtain ⟨_, _, hread⟩ := argsFit i
    exact ⟨i.opcode, fitsOpcode_encode i, by simpa using hread, hwf⟩

/-- Settles O1: the arguments of a command fit its fields and read back as its operands. -/
theorem decodeOfEncode : Obligations.DecodeOfEncode := fun _ hwf => decode_eq_ok_iff_encode.2 ⟨rfl, hwf⟩

/-- Settles O2: operands read from fields that fit give the whole word back. -/
theorem encodeOfDecode : Obligations.EncodeOfDecode := fun _ _ h => decode_eq_ok_iff_encode.1 h

/-! ## The table of legal words -/

/-- The twelve operation codes, in the order of the opcode map (R91). -/
def opcodes : List Opcode :=
  [.init, .readReg, .lfsrSeed, .lfsrStep, .appendByte, .appendWord, .flush, .receiveBit, .handshake, .waitForAck,
    .loadImage, .shutdown]

theorem mem_opcodes (op : Opcode) : op ∈ opcodes := by cases op <;> decide

/-- The bits of a word that an operation code fixes: OP, and the arguments from the used bits up (R91). -/
def Opcode.fixedBits (op : Opcode) : Command :=
  mkCommand (BitVec.allOnes 8) (BitVec.allOnes 32 <<< op.arg0Bits) (BitVec.allOnes 32 <<< op.arg1Bits)

/-- The mask and the value of an operation code's row of the table. -/
def Opcode.row (op : Opcode) : Command × Command := (op.fixedBits, mkCommand op.code 0#32 0#32)

theorem exists_mem_rows_iff (P : Command × Command → Prop) :
    (∃ row ∈ opcodes.map Opcode.row, P row) ↔ ∃ op : Opcode, P op.row := by
  simp [mem_opcodes]

@[simp] theorem cmdOp_and (c d : Command) : cmdOp (c &&& d) = cmdOp c &&& cmdOp d := BitVec.extractLsb'_and
@[simp] theorem cmdArg0_and (c d : Command) : cmdArg0 (c &&& d) = cmdArg0 c &&& cmdArg0 d := BitVec.extractLsb'_and
@[simp] theorem cmdArg1_and (c d : Command) : cmdArg1 (c &&& d) = cmdArg1 c &&& cmdArg1 d := BitVec.extractLsb'_and

/-- No bit is set from bit `n` up: said with a mask and with a shift. -/
theorem and_highMask_eq_zero_iff {w : Nat} (a : BitVec w) (n : Nat) :
    a &&& BitVec.allOnes w <<< n = 0#w ↔ a >>> n = 0#w := by
  constructor
  · intro h
    ext k hk
    have hbit := congrArg (BitVec.getLsbD · (n + k)) h
    by_cases hlt : n + k < w
    · simpa [hlt, hk] using hbit
    · simpa using BitVec.getLsbD_of_ge a (n + k) (by omega)
  · intro h
    ext k hk
    by_cases hlt : k < n
    · simp [hlt]
    · have hbit := congrArg (BitVec.getLsbD · (k - n)) h
      have hsum : n + (k - n) = k := by omega
      simpa [hlt, hsum, hk] using hbit

/-- A word fits an operation code exactly if it has the code in the bits that the operation code fixes. -/
theorem matches_row_iff (op : Opcode) (c : Command) : c &&& op.row.1 = op.row.2 ↔ FitsOpcode op c := by
  simp only [command_ext_iff, Opcode.row, Opcode.fixedBits, FitsOpcode, cmdOp_and, cmdArg0_and, cmdArg1_and,
    cmdOp_mkCommand, cmdArg0_mkCommand, cmdArg1_mkCommand, BitVec.and_allOnes, and_highMask_eq_zero_iff]

theorem wellFormed_withArgs (op : Opcode) (a b : Word) :
    (op.withArgs a b).wellFormed = true ↔ (op = .readReg → a.setWidth 8 ≤ 0x08#8) := by
  cases op with
  | readReg => exact decide_eq_true_iff.trans ⟨fun h _ => h, fun h => h rfl⟩
  | _ => exact ⟨fun _ => nofun, fun _ => rfl⟩

/-- A word is legal exactly if it fits an operation code and is no READ_REG with an index above 0x08 (R93). -/
theorem decodes_iff {c : Command} :
    (∃ i, decode c = .ok i) ↔ ∃ op, FitsOpcode op c ∧ (op = .readReg → (cmdArg0 c).setWidth 8 ≤ 0x08#8) := by
  simp only [decode_eq_ok_iff]
  constructor
  · rintro ⟨_, op, hfit, rfl, hwf⟩
    exact ⟨op, hfit, (wellFormed_withArgs _ _ _).1 hwf⟩
  · rintro ⟨op, hfit, hindex⟩
    exact ⟨_, op, hfit, rfl, (wellFormed_withArgs _ _ _).2 hindex⟩

theorem code_inj {op op' : Opcode} (h : op.code = op'.code) : op = op' := by
  simpa using congrArg opcodeOf h

/-- In a word that fits, the register index is ARG0 as a whole. -/
theorem index_le_iff {op : Opcode} {c : Command} (h : FitsOpcode op c) :
    (op = .readReg → (cmdArg0 c).setWidth 8 ≤ 0x08#8) ↔ (cmdOp c = 0x02#8 → cmdArg0 c ≤ 0x08#32) := by
  obtain ⟨hop, h0, _⟩ := h
  have hread : cmdOp c = 0x02#8 ↔ op = .readReg := by
    rw [hop]
    exact ⟨fun heq => code_inj (op' := .readReg) heq, fun heq => by rw [heq]; rfl⟩
  rw [hread]
  refine forall_congr' fun heq => ?_
  subst heq
  have h0 : cmdArg0 c >>> 8 = 0#32 := h0
  bv_omega

/-- Settles O3: the rows of the table are the fixed bits and the codes of the twelve operation codes. -/
theorem legalWordsAreTheTableRows : Obligations.LegalWordsAreTheTableRows := by
  intro c
  rw [decodes_iff]
  refine Iff.trans ?_ (and_congr_left' (exists_mem_rows_iff fun row => c &&& row.1 = row.2)).symm
  simp only [matches_row_iff]
  constructor
  · rintro ⟨op, hfit, hindex⟩
    exact ⟨⟨op, hfit⟩, (index_le_iff hfit).1 hindex⟩
  · rintro ⟨⟨op, hfit⟩, hindex⟩
    exact ⟨op, hfit, (index_le_iff hfit).2 hindex⟩

/-- Settles O4: each word is the word of its command, written out. -/
theorem sampleWordsDecode : Obligations.SampleWordsDecode :=
  ⟨decodeOfEncode .init rfl, decodeOfEncode (.readReg 0x08#8) rfl, decodeOfEncode (.lfsrSeed 0x50#8) rfl,
    decodeOfEncode (.appendByte 0xF9#8) rfl, decodeOfEncode (.appendWord 0x12345678#32) rfl,
    decodeOfEncode (.receiveBit 100#32) rfl, decodeOfEncode .handshake rfl, decodeOfEncode (.waitForAck 400#32) rfl,
    decodeOfEncode (.loadImage .run 8#32) rfl⟩

end Sys2Proof

namespace Sys2Proof.Machine

open Sys2Proof

/-! ## Illegal words in a step -/

theorem code_range (op : Opcode) : op.code ≠ 0x00#8 ∧ op.code < 0x0D#8 := by cases op <;> decide

/-- The forms of R93 are illegal: no command has such a word. -/
theorem not_decodes_of_illegal {word : Command}
    (h : cmdOp word = 0x00#8 ∨ 0x0D#8 ≤ cmdOp word ∨
      (∃ op : Opcode, op.code = cmdOp word ∧
        (cmdArg0 word >>> op.arg0Bits ≠ 0#32 ∨ cmdArg1 word >>> op.arg1Bits ≠ 0#32)) ∨
      (cmdOp word = 0x02#8 ∧ 0x08#8 < (cmdArg0 word).setWidth 8)) : ¬ ∃ i, decode word = .ok i := by
  rw [decodes_iff]
  rintro ⟨op, ⟨hop, h0, h1⟩, hindex⟩
  rw [hop] at h
  obtain ⟨hne, hlt⟩ := code_range op
  rcases h with hzero | hge | ⟨op', hsame, hset⟩ | ⟨hread, habove⟩
  · exact hne hzero
  · exact BitVec.not_lt.2 hge hlt
  · cases code_inj hsame
    simp [h0, h1] at hset
  · exact BitVec.not_lt.2 (hindex (code_inj (op' := .readReg) hread)) habove

/-- A ready block ends an illegal word ILLEGAL, whatever its session (spec/40_control.md R111). -/
theorem step_illegal {s : State} {word : Command} {image : List Byte} {held : Bool} {rest : List HostMove}
    (hh : s.host = .command word image held :: rest) (hb : s.busy = false) (h : ¬ ∃ i, decode word = .ok i) :
    step s = .next (answered .illegal 0#32 (presented image held rest s)) := by
  cases hd : decode word with
  | ok i => exact absurd ⟨i, hd⟩ h
  | error e => simp [step, stepBlock, hh, hb, runWord, hd, dispatchIllegal, complete_illegal, answered_accept]

/-- Settles O46: no command has such a word, and dispatch ends a word of no command ILLEGAL. -/
theorem illegalWordEndsIllegal : Obligations.IllegalWordEndsIllegal :=
  fun _ _ _ _ _ hh hb hill => step_illegal hh hb (not_decodes_of_illegal hill)

end Sys2Proof.Machine
end

section
/-! The wire encoding of words (spec/30_encoding.md R82 to R85, R87): each encoded byte by its data bits. -/

namespace Sys2Proof.Machine

open Sys2Proof

/-- The layout of an encoded byte 0..9 around its three data bits, lowest first (R83). -/
def dataByte (b0 b1 b2 : Bool) : Byte :=
  BitVec.ofBool true ++ BitVec.ofBool b2 ++ BitVec.ofBool false ++ BitVec.ofBool true ++ BitVec.ofBool b1 ++
    BitVec.ofBool false ++ BitVec.ofBool true ++ BitVec.ofBool b0

/-- The layout of the encoded byte 10 around its two data bits, lowest first (R83). -/
def lastByte (b0 b1 : Bool) : Byte :=
  BitVec.ofBool true ++ BitVec.ofBool true ++ BitVec.ofBool true ++ BitVec.ofBool true ++ BitVec.ofBool b1 ++
    BitVec.ofBool false ++ BitVec.ofBool true ++ BitVec.ofBool b0

theorem encodeGroup_of_ne {i : Nat} (h : i ≠ 10) (r : Word) :
    encodeGroup i r = dataByte (r.getLsbD 0) (r.getLsbD 1) (r.getLsbD 2) := by
  have hbits : ∀ b0 b1 b2 : Bool, 0x92#8 ||| bit8 b0 ||| bit8 b1 <<< 3 ||| bit8 b2 <<< 6 = dataByte b0 b1 b2 := by
    decide
  simp only [encodeGroup, h, if_false, hbits]

/-- The end-of-word marker hides bit 2 of the last group. -/
theorem encodeGroup_ten (r : Word) : encodeGroup 10 r = lastByte (r.getLsbD 0) (r.getLsbD 1) := by
  have hbits : ∀ b0 b1 b2 : Bool,
      0x92#8 ||| bit8 b0 ||| bit8 b1 <<< 3 ||| bit8 b2 <<< 6 ||| 0x60#8 = lastByte b0 b1 := by decide
  simp only [encodeGroup, if_true, hbits]

theorem encodeWord_data (v : Word) {i : Nat} (h : i < 10) : (encodeWord v)[i]? =
    some (dataByte (v.getLsbD (3 * i)) (v.getLsbD (3 * i + 1)) (v.getLsbD (3 * i + 2))) := by
  have h11 : i < 11 := by omega
  simp [encodeWord, h11, encodeGroup_of_ne (Nat.ne_of_lt h)]

theorem encodeWord_last (v : Word) : (encodeWord v)[10]? = some (lastByte (v.getLsbD 30) (v.getLsbD 31)) := by
  simp [encodeWord, encodeGroup_ten]

/-- Ten bytes of data and the last byte. -/
theorem encodeWord_eq (v : Word) : encodeWord v =
    (List.range 10).map (fun i => dataByte (v.getLsbD (3 * i)) (v.getLsbD (3 * i + 1)) (v.getLsbD (3 * i + 2))) ++
      [lastByte (v.getLsbD 30) (v.getLsbD 31)] := by
  rw [encodeWord, List.range_succ, List.map_append]
  congr 1
  · refine List.map_congr_left fun i hi => ?_
    simp [encodeGroup_of_ne (Nat.ne_of_lt (List.mem_range.1 hi))]
  · simp [encodeGroup_ten]

theorem mem_encodeWord {v : Word} {b : Byte} (h : b ∈ encodeWord v) :
    (∃ b0 b1 b2, b = dataByte b0 b1 b2) ∨ ∃ b0 b1, b = lastByte b0 b1 := by
  rw [encodeWord_eq, List.mem_append, List.mem_map, List.mem_singleton] at h
  rcases h with ⟨i, _, rfl⟩ | rfl
  · exact .inl ⟨_, _, _, rfl⟩
  · exact .inr ⟨_, _, rfl⟩

/-! ## The tables of values -/

theorem dataByte_table : ∀ b0 b1 b2 : Bool, some (dataByte b0 b1 b2) =
    [0x92#8, 0x93#8, 0x9A#8, 0x9B#8, 0xD2#8, 0xD3#8, 0xDA#8, 0xDB#8][
      b0.toNat + 2 * b1.toNat + 4 * b2.toNat]? := by decide

theorem lastByte_table : ∀ b0 b1 : Bool, some (lastByte b0 b1) =
    [0xF2#8, 0xF3#8, 0xFA#8, 0xFB#8][b0.toNat + 2 * b1.toNat]? := by decide

theorem extractLsb'_succ_toNat (v : Word) (k n : Nat) : (v.extractLsb' k (n + 1)).toNat =
    (v.extractLsb' k n).toNat + 2 ^ n * (v.getLsbD (k + n)).toNat := by
  rw [BitVec.extractLsb'_toNat, BitVec.extractLsb'_toNat, Nat.mod_pow_succ, ← Nat.toNat_testBit,
    Nat.testBit_shiftRight, BitVec.testBit_toNat]

theorem extractLsb'_two_toNat (v : Word) (k : Nat) :
    (v.extractLsb' k 2).toNat = (v.getLsbD k).toNat + 2 * (v.getLsbD (k + 1)).toNat := by
  rw [extractLsb'_succ_toNat, extractLsb'_succ_toNat]
  simp

theorem extractLsb'_three_toNat (v : Word) (k : Nat) : (v.extractLsb' k 3).toNat =
    (v.getLsbD k).toNat + 2 * (v.getLsbD (k + 1)).toNat + 4 * (v.getLsbD (k + 2)).toNat := by
  rw [extractLsb'_succ_toNat, extractLsb'_two_toNat]
  rfl

/-- Settles O5, by the layouts of the bytes and the values of their groups. -/
theorem encodedWordLayout : Obligations.EncodedWordLayout := by
  refine ⟨encodeWord_length, fun v i h => encodeWord_data v h, encodeWord_last, fun v i h => ?_, fun v => ?_⟩
  · rw [encodeWord_data v h, extractLsb'_three_toNat, dataByte_table]
  · rw [encodeWord_last, extractLsb'_two_toNat, lastByte_table]

/-! ## The framing bits -/

theorem dataByte_framing : ∀ b0 b1 b2 : Bool, (dataByte b0 b1 b2).getLsbD 7 = true ∧
    (dataByte b0 b1 b2).getLsbD 4 = true ∧ (dataByte b0 b1 b2).getLsbD 1 = true ∧
    (dataByte b0 b1 b2).getLsbD 2 = false := by decide

theorem lastByte_framing : ∀ b0 b1 : Bool, (lastByte b0 b1).getLsbD 7 = true ∧ (lastByte b0 b1).getLsbD 4 = true ∧
    (lastByte b0 b1).getLsbD 1 = true ∧ (lastByte b0 b1).getLsbD 2 = false := by decide

theorem dataByte_bits : ∀ b0 b1 b2 : Bool, (dataByte b0 b1 b2).getLsbD 0 = b0 ∧ (dataByte b0 b1 b2).getLsbD 3 = b1 ∧
    (dataByte b0 b1 b2).getLsbD 5 = false ∧ (dataByte b0 b1 b2).getLsbD 6 = b2 := by decide

theorem lastByte_bits : ∀ b0 b1 : Bool, (lastByte b0 b1).getLsbD 0 = b0 ∧ (lastByte b0 b1).getLsbD 3 = b1 ∧
    (lastByte b0 b1).getLsbD 5 = true ∧ (lastByte b0 b1).getLsbD 6 = true := by decide

/-- R84 (a). -/
theorem encodeWord_framing {v : Word} {b : Byte} (h : b ∈ encodeWord v) :
    b.getLsbD 7 = true ∧ b.getLsbD 4 = true ∧ b.getLsbD 1 = true ∧ b.getLsbD 2 = false := by
  rcases mem_encodeWord h with ⟨b0, b1, b2, rfl⟩ | ⟨b0, b1, rfl⟩
  · exact dataByte_framing b0 b1 b2
  · exact lastByte_framing b0 b1

/-- Settles O7: 0xF9 has bit 1 clear, 0xFE and 0xFF have bit 2 set. -/
theorem encodedBytesAreFramed : Obligations.EncodedBytesAreFramed := by
  refine fun v => ⟨fun b => encodeWord_framing, fun i hi b hb => ?_, fun b hb => ?_, fun b hb => ?_⟩
  · rw [encodeWord_data v hi] at hb
    cases hb
    obtain ⟨_, _, h5, h6⟩ := dataByte_bits (v.getLsbD (3 * i)) (v.getLsbD (3 * i + 1)) (v.getLsbD (3 * i + 2))
    exact ⟨h5, h6⟩
  · rw [encodeWord_last] at hb
    cases hb
    obtain ⟨_, _, h5, h6⟩ := lastByte_bits (v.getLsbD 30) (v.getLsbD 31)
    exact ⟨h5, h6⟩
  · obtain ⟨_, _, h1, h2⟩ := encodeWord_framing hb
    exact ⟨by rintro rfl; exact absurd h1 (by decide), by rintro rfl; exact absurd h2 (by decide),
      by rintro rfl; exact absurd h2 (by decide)⟩

/-! ## The reference decoder -/

theorem dataByte_framed : ∀ b0 b1 b2 : Bool, dataByte b0 b1 b2 &&& 0xB6#8 = 0x92#8 := by decide

theorem lastByte_framed : ∀ b0 b1 : Bool, lastByte b0 b1 &&& 0xF6#8 = 0xF2#8 := by decide

theorem wordFramed_encodeWord (v : Word) : wordFramed (encodeWord v) = true := by
  rw [encodeWord_eq]
  simp [wordFramed, dataByte_framed, lastByte_framed]

theorem getLsbD_bit32 (b : Bool) (k : Nat) : (bit32 b).getLsbD k = (decide (k = 0) && b) := by
  cases b <;> simp [bit32, BitVec.getLsbD_one]

/-- The bits that byte `j` carries are those of the group it encodes: two in byte 10, three in the others. -/
theorem getLsbD_decodeGroup_encodeGroup {j : Nat} (hj : j ≤ 10) (r : Word) (k : Nat) :
    (decodeGroup j (encodeGroup j r)).getLsbD k = (decide (k < if j < 10 then 3 else 2) && r.getLsbD k) := by
  by_cases h : j < 10
  · obtain ⟨h0, h3, _, h6⟩ := dataByte_bits (r.getLsbD 0) (r.getLsbD 1) (r.getLsbD 2)
    rw [encodeGroup_of_ne (Nat.ne_of_lt h), decodeGroup, h0, h3, h6]
    match k with
    | 0 | 1 | 2 | k + 3 => simp [h, getLsbD_bit32, -BitVec.getLsbD_eq_getElem]
  · obtain rfl : j = 10 := by omega
    obtain ⟨h0, h3, _, _⟩ := lastByte_bits (r.getLsbD 0) (r.getLsbD 1)
    rw [encodeGroup_ten, decodeGroup, h0, h3]
    match k with
    | 0 | 1 | k + 2 => simp [getLsbD_bit32, -BitVec.getLsbD_eq_getElem]

/-- A byte's bits, put below the bits from the next byte up, are the bits from this byte up. -/
theorem decodeGroup_or_rest (v : Word) {j : Nat} (hj : j ≤ 10) :
    decodeGroup j (encodeGroup j (v >>> (3 * j))) <<< (3 * j) ||| v >>> (3 * (j + 1)) <<< (3 * (j + 1)) =
      v >>> (3 * j) <<< (3 * j) := by
  refine BitVec.eq_of_getLsbD_eq fun k hk => ?_
  by_cases hlow : k < 3 * j
  · have hnext : k < 3 * (j + 1) := by omega
    simp [hlow, hnext]
  · obtain ⟨m, rfl⟩ := Nat.exists_eq_add_of_le (Nat.not_lt.1 hlow)
    have hcarried : (m < if j < 10 then 3 else 2) ↔ m < 3 := by split <;> omega
    by_cases hm : m < 3
    · have hnext : 3 * j + m < 3 * (j + 1) := by omega
      simp [hk, hnext, getLsbD_decodeGroup_encodeGroup hj, hcarried, hm, -BitVec.getLsbD_eq_getElem]
    · have hnext : ¬ 3 * j + m < 3 * (j + 1) := by omega
      have hsame : 3 * (j + 1) + (3 * j + m - 3 * (j + 1)) = 3 * j + m := by omega
      simp [hk, hnext, hsame, getLsbD_decodeGroup_encodeGroup hj, hcarried, hm, -BitVec.getLsbD_eq_getElem]

/-- From byte `j` up, the decoder reads the bits of the value from bit `3 * j` up. -/
theorem decodeWordFrom_encodeGroups (v : Word) {n j : Nat} (h : j + n = 11) :
    decodeWordFrom j ((List.range' j n).map fun i => encodeGroup i (v >>> (3 * i))) =
      v >>> (3 * j) <<< (3 * j) := by
  induction n generalizing j with
  | zero =>
    obtain rfl : j = 11 := h
    simp [decodeWordFrom]
  | succ n ih =>
    rw [List.range'_succ, List.map_cons, decodeWordFrom, ih (by omega), decodeGroup_or_rest v (by omega)]

theorem decodeWord_encodeWord (v : Word) : decodeWord (encodeWord v) = v := by
  have h := decodeWordFrom_encodeGroups v (n := 11) (j := 0) rfl
  rw [← List.range_eq_range'] at h
  simpa [decodeWord, encodeWord] using h

/-- Settles O6: the framing masks hold of both layouts, and the groups put together are the value. -/
theorem encodedWordRoundTrip : Obligations.EncodedWordRoundTrip :=
  fun v => ⟨wordFramed_encodeWord v, decodeWord_encodeWord v⟩

/-! ## Received bytes -/

/-- A received byte is a bit exactly if it is the byte that stands for the bit (R81, R87). -/
theorem classify_eq_some_iff {x : Byte} {b : Bool} : classify x = some b ↔ x = patternByte b := by
  unfold classify
  split
  · next h => subst h; cases b <;> decide
  · next h =>
    split
    · next h => subst h; cases b <;> decide
    · next h' => cases b <;> simp [patternByte, bit8, h, h']

/-- Settles O8: both subtractions ask whether the byte is the bit's own, `0xFE + b`. -/
theorem receivedByteClassification : Obligations.ReceivedByteClassification := by
  have hsum : ∀ b, patternByte b = bit8 b + 0xFE#8 := by decide
  have hnat : ∀ b, ((patternByte b).toNat : Int) = (if b then 1 else 0) + 0xFE := by decide
  refine ⟨rfl, rfl, fun x h0 h1 => by simp [classify, h0, h1], fun x b => ?_, fun x b => ?_⟩
  · rw [classify_eq_some_iff, hsum, sub_eq_iff_eq_add]
  · rw [classify_eq_some_iff, sub_eq_iff_eq_add, ← hnat, Int.ofNat_inj, BitVec.toNat_inj]

end Sys2Proof.Machine
end

section
/-! Lines of text (spec/30_encoding.md R95): the mnemonic, then the operands, then the command word they make. -/

namespace Sys2Proof.Machine

open Sys2Proof

theorem assemble_none (op : Opcode) : assemble op [] = some (mkCommand op.code 0#32 0#32) := rfl

theorem assemble_one {op : Opcode} {a : List Char} {x : Word} (ha : op.arg0Bits ≠ 0)
    (hx : operandOf (operandNames op) a = some x) : assemble op [a] = some (mkCommand op.code x 0#32) := by
  simp [assemble, ha, hx]

theorem assemble_two {op : Opcode} {a b : List Char} {x y : Word} (hb : op.arg1Bits ≠ 0)
    (hx : operandOf (operandNames op) a = some x) (hy : operandOf [] b = some y) :
    assemble op [a, b] = some (mkCommand op.code x y) := by
  simp [assemble, hb, hx, hy]

/-- Settles O9: what each line is cut into, and the word that this makes; `JUMP` is no mnemonic. -/
theorem textLinesNameTheirCommands : Obligations.TextLinesNameTheirCommands := by
  refine ⟨?_, ?_, ?_, ?_, ?_, ?_, ?_, ?_⟩
  · calc parseLine "LFSR_SEED 0x50" = assemble .lfsrSeed ["0x50".toList] := rfl
      _ = some (encode (.lfsrSeed 0x50#8)) := assemble_one (x := 0x50#32) (by decide) rfl
  · calc parseLine "APPEND_WORD 0x12345678" = assemble .appendWord ["0x12345678".toList] := rfl
      _ = some (encode (.appendWord 0x12345678#32)) := assemble_one (x := 0x12345678#32) (by decide) rfl
  · calc parseLine "RECEIVE_BIT 100" = assemble .receiveBit ["100".toList] := rfl
      _ = some (encode (.receiveBit 100#32)) := assemble_one (x := 100#32) (by decide) rfl
  · calc parseLine "WAIT_FOR_ACK 400" = assemble .waitForAck ["400".toList] := rfl
      _ = some (encode (.waitForAck 400#32)) := assemble_one (x := 400#32) (by decide) rfl
  · calc parseLine "READ_REG STATUS" = assemble .readReg ["STATUS".toList] := rfl
      _ = some (encode (.readReg 0#8)) := assemble_one (x := 0#32) (by decide) rfl
  · calc parseLine "LOAD_IMAGE RUN, 8 ; the image stands beside" =
        assemble .loadImage ["RUN".toList, "8".toList] := rfl
      _ = some (encode (.loadImage .run 8#32)) := assemble_two (x := 1#32) (y := 8#32) (by decide) rfl rfl
  · calc parseLine "READ_REG" = assemble .readReg [] := rfl
      _ = some (encode (.readReg 0#8)) := assemble_none .readReg
  · rfl

end Sys2Proof.Machine
end

section
/-! The command port (spec/40_control.md R110 to R115): which commands run, INIT, READ_REG, one response a command. -/

namespace Sys2Proof.Machine

open Sys2Proof

/-! ## Admission and gating -/

/-- Settles O49: `exec` is dispatch, which admits no command while BUSY = 1. -/
theorem commandWhileBusyIsRefused : Obligations.CommandWhileBusyIsRefused := by
  intro i s hb
  rw [exec_eq_dispatch]
  exact dispatch_busy hb _ _

/-- A ready block runs a command that its session allows (spec/40_control.md R111). -/
theorem exec_ready {i : Instr} {s : State} (h : Ready i.opcode s) :
    exec i s = settle i.opcode (ruleOf i (accept s)) := by
  rw [exec_eq_dispatch, dispatch_ready h]

/-- A ready block ends a command that its session does not allow PRECOND (spec/40_control.md R112). -/
theorem exec_gated {i : Instr} {s : State} (hb : s.busy = false) (h : allowed i.opcode s.sess = false) :
    exec i s = .next (answered .precond 0#32 s) := by
  rw [exec_eq_dispatch, dispatch_gated hb h, complete_precond, answered_accept]

/-- Settles O44: the table is checked entry by entry, and a "no" of it is dispatch's. -/
theorem sessionGating : Obligations.SessionGating :=
  ⟨fun _ => ⟨rfl, rfl⟩, by decide, by decide, by decide, fun _ _ hb h => exec_gated hb h⟩

/-- Settles O47: with BUSY = 0 the step dispatches the word, and a legal word is its command. -/
theorem stepRunsTheDecodedCommand : Obligations.StepRunsTheDecodedCommand := by
  intro s word image held rest i hh hb hi
  calc step s = runWord word (presented image held rest s) := by simp [step, stepBlock, hh, hb]
    _ = exec i (presented image held rest s) := by simp [runWord, hi]

/-! ## INIT and READ_REG -/

/-- Settles O15: every session allows INIT, whose rule is `reinit` with the answer 0. -/
theorem initResetsTheSession : Obligations.InitResetsTheSession := by
  intro s hb
  refine ⟨?_, fun a => rfl⟩
  calc exec .init s = settle .init (ruleOf .init (accept s)) := exec_ready ⟨hb, rfl⟩
    _ = .next (complete .ok 0#32 (reinit (accept s))) := rfl
    _ = .next (answered .ok 0#32 (reinit s)) := rfl

section readReg

variable {s : State} {index : Byte}

/-- Acceptance writes BUSY alone, which no register shows (spec/10_state.md R34). -/
theorem regValue_accept (s : State) (index : Byte) : regValue (accept s) index = regValue s index := rfl

/-- READ_REG of a register of the map answers its value before the command (spec/40_control.md R115). -/
theorem exec_readReg_of_some {data : Word} (hb : s.busy = false) (h : regValue s index = some data) :
    exec (.readReg index) s = .next (answered .ok data s) := by
  have hrule : ruleOf (.readReg index) (accept s) = .done data (accept s) := by simp [ruleOf, regValue_accept, h]
  rw [exec_ready ⟨hb, rfl⟩, hrule, settle_done, complete_ok, answered_accept]

/-- READ_REG outside the map ends ILLEGAL (spec/40_control.md R115). -/
theorem exec_readReg_of_none (hb : s.busy = false) (h : regValue s index = none) :
    exec (.readReg index) s = .next (answered .illegal 0#32 s) := by
  have hrule : ruleOf (.readReg index) (accept s) = .fail .illegal (accept s) := by simp [ruleOf, regValue_accept, h]
  rw [exec_ready ⟨hb, rfl⟩, hrule, settle_fail, complete_illegal, answered_accept]

theorem regNumber_of_lt {n : Nat} (h : n < 2 ^ 32) : regNumber n = BitVec.ofNat 32 n := if_pos h

/-- The map ends at 0x08 (spec/10_state.md R34). -/
theorem regValue_above (s : State) (h : 0x08#8 < index) : regValue s index = none := by
  have h8 : 8 < index.toNat := h
  unfold regValue
  split
  case h_10 => rfl
  all_goals omega

/-- READ_REG of a register that holds a number which fits in a u32. -/
theorem exec_readReg_number {n : Nat} (hb : s.busy = false) (h : regValue s index = some (regNumber n))
    (hn : n < 2 ^ 32) : exec (.readReg index) s = .next (answered .ok (BitVec.ofNat 32 n) s) :=
  exec_readReg_of_some hb (h.trans (congrArg some (regNumber_of_lt hn)))

end readReg

/-- Settles O16: the value of each of the nine registers, and the numbers among them where they fit. -/
theorem readRegAnswersTheRegister : Obligations.ReadRegAnswersTheRegister := fun _ hb =>
  ⟨exec_readReg_of_some hb rfl, exec_readReg_of_some hb rfl, exec_readReg_of_some hb rfl,
    exec_readReg_number hb rfl, exec_readReg_number hb rfl, exec_readReg_number hb rfl,
    exec_readReg_number hb rfl, exec_readReg_number hb rfl, exec_readReg_number hb rfl⟩

/-- Settles O17: the map has no such register. -/
theorem readRegAboveTheMapIsIllegal : Obligations.ReadRegAboveTheMapIsIllegal :=
  fun s _ hb h => exec_readReg_of_none hb (regValue_above s h)

/-! ## One response a command -/

/-- The commands accepted by now, as the ports show it: those answered and the one in progress (spec/40_control.md
R110). -/
def commandsBegun (s : State) : Nat := responseCount s.trace + if s.busy then 1 else 0

theorem commandsBegun_busy {s : State} (hb : s.busy = true) : commandsBegun s = responseCount s.trace + 1 := by
  simp [commandsBegun, hb]

theorem commandsBegun_ready {s : State} (hb : s.busy = false) : commandsBegun s = responseCount s.trace := by
  simp [commandsBegun, hb]

/-- The end of a command turns it from one in progress into one answered. -/
theorem commandsBegun_complete (st : Status) (data : Word) (s : State) :
    commandsBegun (complete st data s) = responseCount s.trace + 1 := by
  rw [commandsBegun_ready (complete_busy _ _ _), complete_trace, responseCount_append]
  rfl

/-- A stretch of a command ends with its response or leaves the command in progress. -/
theorem settle_commandsBegun {op : Opcode} {x : Flow Word} {s t : State} (hx : x.writes op s)
    (h : settle op x = .next t) : commandsBegun t = responseCount s.trace + 1 := by
  rcases settle_next h with ⟨data, u, rfl, rfl⟩ | ⟨st, u, rfl, rfl⟩ | rfl | ⟨u, rfl, rfl⟩
  · have hu : Ended op s u := hx
    rw [commandsBegun_complete, hu.shows.responseCount_eq]
  · have hu : Midway op s u := hx
    rw [commandsBegun_complete, hu.shows.responseCount_eq]
  · have ht : Midway op s t := hx
    rw [commandsBegun_busy ht.busy, ht.shows.responseCount_eq]
  · have hu : Midway op s u := hx
    rw [commandsBegun_busy (s := { u with running := some (.hung op) }) hu.busy, hu.shows.responseCount_eq]

theorem acceptsNext_busy {s : State} (hb : s.busy = true) : acceptsNext s = false := by
  unfold acceptsNext
  split <;> simp [hb]

theorem acceptsNext_command {s : State} {word : Command} {image : List Byte} {held : Bool} {rest : List HostMove}
    (h : s.host = .command word image held :: rest) (hb : s.busy = false) : acceptsNext s = true := by
  simp [acceptsNext, h, hb]

/-- A step but a block reset adds to the commands begun the one it accepts, if it accepts one. -/
theorem step_commandsBegun {s t : State} (hr : resetsNext s = false) (h : step s = .next t) :
    commandsBegun t = commandsBegun s + if acceptsNext s then 1 else 0 := by
  cases step_next h with
  | reset next => exact absurd ((resetsNext_blockReset next).symm.trans hr) (by decide)
  | idle next ready => simp [acceptsNext, next]
  | hangs next busy stands => simp [acceptsNext_busy busy]
  | waits next busy stands => simp [acceptsNext_busy busy, commandsBegun]
  | @goesOn p n answers _ next busy stands ends settles =>
    let u : State := { s with draws := n, answers := answers, running := none }
    rw [commandsBegun_busy busy, acceptsNext_busy busy]
    exact settle_commandsBegun (s := u) (resumeRule_writes ends busy) settles
  | turnsDown next ready reason =>
    rw [commandsBegun_complete, commandsBegun_ready ready, acceptsNext_command next ready]
    rfl
  | @runs word image held rest i _ next ready decodes allows settles =>
    rw [commandsBegun_ready ready, acceptsNext_command next ready]
    by_cases hi : i = .init
    · subst hi
      cases settles
      exact commandsBegun_complete _ _ _
    · exact settle_commandsBegun (s := accept (presented image held rest s)) (ruleOf_writes hi rfl) settles

/-- A block reset takes effect at once (spec/70_reset_and_hazards.md R301). -/
theorem step_blockReset {s : State} (hr : resetsNext s = true) :
    ∃ rest, step s = .next (blockReset { s with host := rest }) := by
  unfold resetsNext at hr
  split at hr
  · next rest hh => exact ⟨rest, by simp [step, stepBlock, hh]⟩
  · cases hr
  · cases hr

/-- Settles O59: a stretch of a command ends with its one response or leaves it in progress; a block reset drops it. -/
theorem oneResponsePerCommand : Obligations.OneResponsePerCommand := by
  refine fun s t h => ⟨fun hr => step_commandsBegun hr h, fun hr => ?_⟩
  obtain ⟨rest, hreset⟩ := step_blockReset hr
  cases hreset.symm.trans h
  exact ⟨rfl, rfl⟩

end Sys2Proof.Machine
end

section
/-! A command that waits (spec/20_memory.md R59; spec/40_control.md R110): each operation, run with further answers
behind those it was given, runs as before up to where it would have waited, and from there as the rest of its rule. -/

namespace Sys2Proof.Machine

open Sys2Proof

/-- The state with further answers of the transport behind those it has. -/
abbrev State.withMore (s : State) (more : List (List Byte)) : State := { s with answers := s.answers ++ more }

/-- Inside a step of a command: it stands in no wait, and the host's next move is no block reset. -/
structure Underway (s : State) : Prop where
  running : s.running = none
  stays : resetsNext s = false

theorem Underway.of_same {s t : State} (h : Underway s) (hr : t.running = s.running) (hh : t.host = s.host) :
    Underway t :=
  ⟨hr.trans h.running, by unfold resetsNext; rw [hh]; exact h.stays⟩

section continues

variable {α β : Type} {more : List (List Byte)}

/-- `y` is the flow `x` with the answers `more` behind those it was run with: it ends as `x` does, those answers left,
and where `x` waits in a state, `waits` says of that state and `y` that `y` goes on from there. Where `x` leaves no state,
by a fault or a refusal, there is nothing to go on from. -/
inductive Continues (more : List (List Byte)) (waits : State → Flow α → Prop) : Flow α → Flow α → Prop where
  | done {a : α} {t : State} (h : Underway t) : Continues more waits (.done a t) (.done a (t.withMore more))
  | fail {st : Status} {t : State} : Continues more waits (.fail st t) (.fail st (t.withMore more))
  | wait {t : State} {y : Flow α} (h : waits t y) : Continues more waits (.wait t) y
  | hung {t : State} (h : Underway t) : Continues more waits (.hung t) (.hung (t.withMore more))
  | fault {e : Fault} {y : Flow α} : Continues more waits (.fault e) y
  | refused {r : Refusal} {y : Flow α} : Continues more waits (.refused r) y

/-- A sequence goes on where its first part does, and then its second. -/
theorem Continues.bind {waits : State → Flow β → Prop} {x y : Flow α} {f g : α → State → Flow β}
    (hx : Continues more (fun t y => waits t (y.bind g)) x y)
    (hf : ∀ a t, x = .done a t → Underway t → Continues more waits (f a t) (g a (t.withMore more))) :
    Continues more waits (x.bind f) (y.bind g) := by
  cases hx with
  | done h => exact hf _ _ rfl h
  | fail => exact .fail
  | wait h => exact .wait h
  | hung h => exact .hung h
  | fault => exact .fault
  | refused => exact .refused

theorem Continues.waitingAs {waits : State → Flow α → Prop} {p : Pending} {x y : Flow α}
    (hx : Continues more (fun t y => waits { t with running := some p } (y.waitingAs p)) x y) :
    Continues more waits (x.waitingAs p) (y.waitingAs p) := by
  cases hx with
  | done h => exact .done h
  | fail => exact .fail
  | wait h => exact .wait h
  | hung h => exact .hung h
  | fault => exact .fault
  | refused => exact .refused

theorem Continues.handshakeTimeout {waits : State → Flow α → Prop} {x y : Flow α}
    (hx : Continues more (fun t y => waits t (y.onFail Machine.handshakeTimeout)) x y) :
    Continues more waits (x.onFail Machine.handshakeTimeout) (y.onFail Machine.handshakeTimeout) := by
  cases hx with
  | done h => exact .done h
  | fail => exact .fail (t := Machine.handshakeTimeout _)
  | wait h => exact .wait h
  | hung h => exact .hung h
  | fault => exact .fault
  | refused => exact .refused

end continues

section operations

variable {more : List (List Byte)} {s : State}

/-! ## The transmit side, which never waits -/

section transmit

variable {waits : State → Flow Unit → Prop}

theorem callTransport_continues (e : Event) (h : Underway s) :
    Continues more waits (callTransport e s) (callTransport e (s.withMore more)) := by
  unfold callTransport
  simp only
  split
  · exact .done (h.of_same rfl rfl)
  · exact .hung (h.of_same rfl rfl)

theorem flush_continues (h : Underway s) : Continues more waits (flush s) (flush (s.withMore more)) := by
  unfold flush
  simp only
  split
  · exact .done h
  · split
    · exact (callTransport_continues _ h).bind fun _ t _ ht => .done (ht.of_same rfl rfl)
    · exact .fault

theorem writeTx_continues (a : Nat) (b : Byte) (h : Underway s) :
    Continues more waits (writeTx a b s) (writeTx a b (s.withMore more)) := by
  unfold writeTx
  simp only
  split
  · exact .done (h.of_same rfl rfl)
  · exact .fault

theorem appendByte_continues (b : Byte) (h : Underway s) :
    Continues more waits (appendByte b s) (appendByte b (s.withMore more)) := by
  refine Continues.bind (x := if s.txcur = s.cfg.txCap then flush s else .done () s) ?_ fun _ t _ ht => ?_
  · simp only
    split
    · exact flush_continues h
    · exact .done h
  · exact (writeTx_continues _ b ht).bind fun _ u _ hu => .done (hu.of_same rfl rfl)

theorem appendBytes_continues (bs : List Byte) (h : Underway s) :
    Continues more waits (appendBytes bs s) (appendBytes bs (s.withMore more)) := by
  induction bs generalizing s with
  | nil => exact .done h
  | cons b bs ih => exact (appendByte_continues b h).bind fun _ t _ ht => ih ht

theorem appendWord_continues (v : Word) (h : Underway s) :
    Continues more waits (appendWord v s) (appendWord v (s.withMore more)) := appendBytes_continues _ h

theorem sendProbe_continues (h : Underway s) : Continues more waits (sendProbe s) (sendProbe (s.withMore more)) :=
  (appendByte_continues _ h).bind fun _ _ _ ht => flush_continues ht

/-- A probe takes no answer. -/
theorem sendProbe_answers {t : State} (h : sendProbe s = .done () t) : t.answers = s.answers := by
  have hk := sendProbe_keeps s
  rw [h] at hk
  rw [TxFrame.frame hk]

end transmit

/-! ## The receive side -/

/-- ReceiveBit's loop behind the scan of the window: the bit that was found, else the refill. -/
def afterScan (w : Word) (answers : List (List Byte)) (found : Option Bool) (s : State) : Flow Bool :=
  match found, answers with
  | some b, _ => .done b s
  | none, [] => .wait s
  | none, a :: rest =>
    (tReceive s.cfg.rxCap w a rest s).bind fun _ s =>
      if a = [] then .fail .timeout (fillWindow a s) else receiveBitOver w rest (fillWindow a s)

theorem receiveBitOver_eq_scan (w : Word) (answers : List (List Byte)) (s : State) :
    receiveBitOver w answers s = (scanWindow (s.rxlen - s.rxcur) s).bind (afterScan w answers) := by
  cases answers <;> exact congrArg (Flow.bind _) (funext fun found => by cases found <;> rfl)

/-- What the scan of the window does, whatever answers are ready: it moves RXCUR, past the whole stretch where it finds
no bit, or it faults. -/
theorem scanWindow_cases (n : Nat) (s : State) :
    (∃ found c, (found = none → c = s.rxcur + n) ∧ ∀ answers,
      scanWindow n { s with answers := answers } = .done found { s with answers := answers, rxcur := c }) ∨
    ∃ e, ∀ answers, scanWindow n { s with answers := answers } = .fault e := by
  induction n generalizing s with
  | zero => exact .inl ⟨none, s.rxcur, fun _ => rfl, fun _ => rfl⟩
  | succ n ih =>
    by_cases hcap : s.rxcur < s.cfg.rxCap
    · cases hc : classify (readByte s.rxbuf s.rxcur) with
      | some b => exact .inl ⟨some b, s.rxcur + 1, nofun, fun _ => by simp [scanWindow, readRx, hcap, hc]⟩
      | none =>
        have hstep : ∀ answers, scanWindow (n + 1) { s with answers := answers } =
            scanWindow n { s with rxcur := s.rxcur + 1, answers := answers } := fun _ => by
          simp [scanWindow, readRx, hcap, hc]
        rcases ih { s with rxcur := s.rxcur + 1 } with ⟨found, c, hend, hscan⟩ | ⟨e, hscan⟩
        · refine .inl ⟨found, c, fun hf => ?_, fun as => (hstep as).trans (hscan as)⟩
          rw [hend hf, Nat.add_assoc, Nat.add_comm 1]
        · exact .inr ⟨e, fun as => (hstep as).trans (hscan as)⟩
    · exact .inr ⟨.noSuchAddress .rxbuf s.rxcur, fun _ => by simp [scanWindow, readRx, hcap]⟩

/-- Where the window is exhausted the loop is at its refill. -/
theorem receiveBitOver_exhausted (w : Word) (answers : List (List Byte)) (h : s.rxlen ≤ s.rxcur) :
    receiveBitOver w answers s = afterScan w answers none s := by
  rw [receiveBitOver_eq_scan, Nat.sub_eq_zero_of_le h]
  rfl

section receive

variable {waits : State → Flow Bool → Prop}

/-- The loop goes on as it did where it does from its refill. -/
theorem receiveBitOver_continues_of_refill (w : Word) (answers : List (List Byte)) (h : Underway s)
    (hrefill : ∀ c, s.rxlen ≤ c → Continues more waits (afterScan w answers none { s with rxcur := c })
      (afterScan w (answers ++ more) none (({ s with rxcur := c } : State).withMore more))) :
    Continues more waits (receiveBitOver w answers s) (receiveBitOver w (answers ++ more) (s.withMore more)) := by
  rw [receiveBitOver_eq_scan, receiveBitOver_eq_scan]
  rcases scanWindow_cases (s.rxlen - s.rxcur) s with ⟨found, c, hend, hscan⟩ | ⟨e, hscan⟩
  · rw [show scanWindow _ s = _ from hscan s.answers,
      show scanWindow _ (s.withMore more) = _ from hscan (s.answers ++ more)]
    cases found with
    | some b => exact .done (t := { s with rxcur := c }) (h.of_same rfl rfl)
    | none => exact hrefill c (by have := hend rfl; omega)
  · rw [show scanWindow _ s = _ from hscan s.answers]
    exact .fault

theorem receiveBitOver_continues (w : Word) {answers : List (List Byte)} (ha : s.answers = answers) (h : Underway s)
    (hw : ∀ t, Underway t → waits t (receiveBit w (t.withMore more))) :
    Continues more waits (receiveBitOver w answers s) (receiveBitOver w (answers ++ more) (s.withMore more)) := by
  induction answers generalizing s with
  | nil =>
    refine receiveBitOver_continues_of_refill w [] h fun c hc => ?_
    let t : State := { s with rxcur := c }
    have hmore : receiveBit w (t.withMore more) = afterScan w more none (t.withMore more) := by
      rw [receiveBit, receiveBitOver_exhausted w _ hc]
      exact congrArg (fun as => afterScan w (as ++ more) none (t.withMore more)) ha
    exact .wait (hmore ▸ hw t (h.of_same rfl rfl))
  | cons a rest ih =>
    refine receiveBitOver_continues_of_refill w (a :: rest) h fun c _ => ?_
    simp only [afterScan, List.cons_append, tReceive]
    split
    · simp only [Flow.bind_done]
      split
      · exact .fail
      · exact ih (s := fillWindow a { ({ s with rxcur := c } : State).emit (.treceive s.cfg.rxCap w a) with
          answers := rest }) rfl (h.of_same rfl rfl)
    · exact .refused

theorem receiveBit_continues (w : Word) (h : Underway s)
    (hw : ∀ t, Underway t → waits t (receiveBit w (t.withMore more))) :
    Continues more waits (receiveBit w s) (receiveBit w (s.withMore more)) := receiveBitOver_continues w rfl h hw

/-- A bit of HANDSHAKE, with where the command stands if it waits. -/
theorem hsReceive_continues (w : Word) (p : Pending) (h : Underway s)
    (hw : ∀ t, Underway t → waits { t with running := some p }
      (((receiveBit w (t.withMore more)).waitingAs p).onFail handshakeTimeout)) :
    Continues more waits (((receiveBit w s).waitingAs p).onFail handshakeTimeout)
      (((receiveBit w (s.withMore more)).waitingAs p).onFail handshakeTimeout) :=
  (receiveBit_continues w h hw).waitingAs.handshakeTimeout

end receive

/-! ## Acknowledgements -/

section acknowledgements

variable {waits : State → Flow Unit → Prop} {at_ : Nat → Pending}

/-- Where a WaitForAck waits with so many attempts left, further answers are taken by those attempts. -/
abbrev AwaitsAck (more : List (List Byte)) (waits : State → Flow Unit → Prop) (at_ : Nat → Pending) : Prop :=
  ∀ k t, Underway t →
    waits { t with running := some (at_ k) } (awaitAck at_ (t.withMore more).answers k (t.withMore more))

theorem awaitAck_continues {answers : List (List Byte)} (ha : s.answers = answers) (k : Nat) (h : Underway s)
    (hw : AwaitsAck more waits at_) :
    Continues more waits (awaitAck at_ answers k s) (awaitAck at_ (answers ++ more) k (s.withMore more)) := by
  induction answers generalizing k s with
  | nil =>
    have := hw k s h
    rw [show (s.withMore more).answers = [] ++ more from congrArg (· ++ more) ha] at this
    exact .wait this
  | cons a rest ih =>
    rw [List.cons_append, awaitAck, awaitAck]
    simp only [tReceive]
    split
    · let u : State := { s.emit (.treceive 1 25#32 a) with answers := rest }
      have hu : Underway u := h.of_same rfl rfl
      simp only [Flow.bind_done]
      cases a with
      | cons b bs =>
        simp only
        split
        · exact .done (t := u) hu
        · exact .fail (t := u)
      | nil =>
        simp only
        split
        · exact .fail (t := u)
        · exact (sendProbe_continues (s := u) hu).bind fun _ v hv huv => ih (sendProbe_answers hv) _ huv
    · exact .refused

theorem waitForAck_continues (n : Nat) (h : Underway s) (hw : AwaitsAck more waits at_) :
    Continues more waits (waitForAck at_ n s) (waitForAck at_ n (s.withMore more)) := by
  unfold waitForAck
  split
  · exact .fail
  · exact (sendProbe_continues h).bind fun _ u _ hu => awaitAck_continues rfl n hu hw

end acknowledgements

/-! ## The handshake -/

section handshake

theorem sendPattern_continues {waits : State → Flow Unit → Prop} (n : Nat) (h : Underway s) :
    Continues more waits (sendPattern n s) (sendPattern n (s.withMore more)) := by
  induction n generalizing s with
  | zero => exact .done h
  | succ n ih =>
    exact (appendByte_continues (s := lfsrStep s) _ (h.of_same rfl rfl)).bind fun _ t _ ht => ih ht

theorem sendConnect_continues {waits : State → Flow Unit → Prop} (h : Underway s) :
    Continues more waits (sendConnect s) (sendConnect (s.withMore more)) := by
  refine (callTransport_continues (s := progress .handshakeStart 0#32 0#32 { s with hsState := .reset }) _
    (h.of_same rfl rfl)).bind fun _ t _ ht => ?_
  refine (appendByte_continues (s := { t with lfsr := handshakeSeed }) _ (ht.of_same rfl rfl)).bind fun _ u _ hu => ?_
  refine (sendPattern_continues (s := { u with hsState := .calibrationSent }) _ (hu.of_same rfl rfl)).bind
    fun _ v _ hv => ?_
  refine (appendBytes_continues (s := { v with hsState := .patternSent }) _ (hv.of_same rfl rfl)).bind
    fun _ x _ hx => ?_
  refine (flush_continues hx).bind fun _ y _ hy => ?_
  exact .done (t := { progress .responseStart 0#32 0#32 y with hsState := .responseVerifying }) (hy.of_same rfl rfl)

theorem verifyResponse_continues {waits : State → Flow Unit → Prop} (n : Nat) (h : Underway s)
    (hw : ∀ n t, Underway t → waits { t with running := some (.response n) } (verifyResponse n (t.withMore more))) :
    Continues more waits (verifyResponse n s) (verifyResponse n (s.withMore more)) := by
  induction n generalizing s with
  | zero => exact .done h
  | succ n ih =>
    refine (hsReceive_continues 100#32 (.response (n + 1)) h (hw (n + 1))).bind fun b t _ ht => ?_
    have hstep : Underway (lfsrStep t) := ht.of_same rfl rfl
    simp only
    split
    · exact ih hstep
    · exact .fail (t := { lfsrStep t with hsState := .error })

theorem receiveVersion_continues {waits : State → Flow Byte → Prop} (n : Nat) (acc : Byte) (h : Underway s)
    (hw : ∀ n acc t, Underway t →
      waits { t with running := some (.version n acc) } (receiveVersion n acc (t.withMore more))) :
    Continues more waits (receiveVersion n acc s) (receiveVersion n acc (s.withMore more)) := by
  induction n generalizing acc s with
  | zero => exact .done h
  | succ n ih =>
    exact (hsReceive_continues 50#32 (.version (n + 1) acc) h (hw (n + 1) acc)).bind fun b t _ ht => ih _ ht

end handshake

/-! ## The load -/

theorem imageWord_continues {waits : State → Flow Word → Prop} (o : Nat) (h : Underway s) :
    Continues more waits (imageWord o s) (imageWord o (s.withMore more)) := by
  have hread : ∀ {W : State → Flow Byte → Prop} (a : Nat) {t : State}, Underway t →
      Continues more W (readImage a t) (readImage a (t.withMore more)) := by
    intro W a t ht
    unfold readImage
    simp only
    cases t.image[a]? with
    | some b => exact .done ht
    | none => exact .fault
  unfold imageWord
  simp only
  split
  · exact (hread _ h).bind fun _ t _ ht => (hread _ ht).bind fun _ u _ hu =>
      (hread _ hu).bind fun _ v _ hv => (hread _ hv).bind fun _ x _ hx => .done hx
  · exact .done (t := { s with draws := s.draws + 1 }) (h.of_same rfl rfl)

theorem streamWords_continues {waits : State → Flow Unit → Prop} (n o : Nat) (size : Word) (h : Underway s) :
    Continues more waits (streamWords n o size s) (streamWords n o size (s.withMore more)) := by
  induction n generalizing o s with
  | zero => exact .done h
  | succ n ih =>
    have hword : ∀ {t : State}, Underway t → Continues more waits
        ((imageWord o t).bind fun v s => (appendWord v s).bind fun _ s => streamWords n (o + 4) size s)
        ((imageWord o (t.withMore more)).bind fun v s =>
          (appendWord v s).bind fun _ s => streamWords n (o + 4) size s) := fun ht =>
      (imageWord_continues o ht).bind fun v u _ hu => (appendWord_continues v hu).bind fun _ x _ hx => ih _ hx
    rw [streamWords, streamWords]
    split
    · exact hword (t := progress .program (BitVec.ofNat 32 o) size s) (h.of_same rfl rfl)
    · exact hword h

theorem sendImage_continues {waits : State → Flow Unit → Prop} (kind : LoadKind) (size : Word) (h : Underway s) :
    Continues more waits (sendImage kind size s) (sendImage kind size (s.withMore more)) :=
  (appendWord_continues _ h).bind fun _ _ _ ht => (appendWord_continues _ ht).bind fun _ _ _ hu =>
    (streamWords_continues _ _ size hu).bind fun _ _ _ hv => flush_continues hv

/-! ## The rule of a command -/

section rules

/-- The command `op` waits in `t`, and the rest of its rule with the answers `more` is the flow `y`. -/
def WaitsIn (op : Opcode) (more : List (List Byte)) (t : State) (y : Flow Word) : Prop :=
  ∃ p u, Underway u ∧ t = { u with running := some p } ∧ pendingOpcode p = op ∧ (∀ o, p ≠ .hung o) ∧
    resumeRule p (u.withMore more) = y

/-- `y` is the flow `x` of the command `op` with further answers: where `x` waits, the rest of the command's rule with
those answers is `y`. -/
abbrev Flow.resumesAs (x : Flow Word) (op : Opcode) (more : List (List Byte)) (y : Flow Word) : Prop :=
  Continues more (WaitsIn op more) x y

theorem handshakeFromVersion_continues (n : Nat) (acc : Byte) (h : Underway s) :
    (handshakeFromVersion n acc s).resumesAs .handshake more (handshakeFromVersion n acc (s.withMore more)) := by
  refine (receiveVersion_continues n acc h fun n acc t ht => ?_).bind fun v t _ ht => .done (ht.of_same rfl rfl)
  exact ⟨.version n acc, t, ht, rfl, rfl, nofun, rfl⟩

theorem handshakeFromResponse_continues (n : Nat) (h : Underway s) :
    (handshakeFromResponse n s).resumesAs .handshake more (handshakeFromResponse n (s.withMore more)) := by
  refine (verifyResponse_continues n h fun n t ht => ?_).bind fun _ t _ ht => ?_
  · exact ⟨.response n, t, ht, rfl, rfl, nofun, rfl⟩
  · exact handshakeFromVersion_continues (s := { progress .versionStart 0#32 0#32 t with hsState := .versionAwaited })
      8 0x00#8 (ht.of_same rfl rfl)

/-- An acknowledgement of LOAD_IMAGE, and what follows it. -/
theorem loadAck_continues (phase : AckPhase) (kind : LoadKind) (size : Word) (h : Underway s)
    (hf : ∀ t, Underway t → (afterAck phase kind size t).resumesAs .loadImage more
      (afterAck phase kind size (t.withMore more))) :
    ((loadAck phase kind size s).bind fun _ s => afterAck phase kind size s).resumesAs .loadImage more
      ((loadAck phase kind size (s.withMore more)).bind fun _ s => afterAck phase kind size s) := by
  refine (waitForAck_continues _ h fun k t ht => ?_).bind fun _ t _ ht => hf t ht
  exact ⟨.load phase kind size k, t, ht, rfl, rfl, nofun, rfl⟩

theorem finishLoad_continues (size : Word) (h : Underway s) :
    (finishLoad size s).resumesAs .loadImage more (finishLoad size (s.withMore more)) := .done (h.of_same rfl rfl)

theorem loadVerify_continues (kind : LoadKind) (size : Word) (h : Underway s) :
    (loadVerify kind size s).resumesAs .loadImage more (loadVerify kind size (s.withMore more)) :=
  loadAck_continues .eepromVerify kind size (s := progress .eepromVerify 0#32 size s) (h.of_same rfl rfl)
    fun _ ht => finishLoad_continues size ht

theorem loadWrite_continues (kind : LoadKind) (size : Word) (h : Underway s) :
    (loadWrite kind size s).resumesAs .loadImage more (loadWrite kind size (s.withMore more)) :=
  loadAck_continues .eepromWrite kind size (s := progress .eepromWrite 0#32 size s) (h.of_same rfl rfl)
    fun _ ht => loadVerify_continues kind size ht

theorem afterAck_program_continues (kind : LoadKind) (size : Word) (h : Underway s) :
    (afterAck .program kind size s).resumesAs .loadImage more (afterAck .program kind size (s.withMore more)) := by
  rw [afterAck_program, afterAck_program]
  split
  · exact loadWrite_continues kind size h
  · exact finishLoad_continues size h

theorem loadRule_continues (kind : LoadKind) (size : Word) (h : Underway s) :
    (loadRule kind size s).resumesAs .loadImage more (loadRule kind size (s.withMore more)) := by
  unfold loadRule
  simp only
  split
  · exact .fail
  split
  · exact .fail
  split
  · exact .fail
  exact (sendImage_continues kind size h).bind fun _ _ _ ht =>
    loadAck_continues .program kind size ht fun _ hu => afterAck_program_continues kind size hu

/-- The rule of every command, run with further answers, is the rest of the rule from where it would have waited. -/
theorem ruleOf_continues (i : Instr) (h : Underway s) :
    (ruleOf i s).resumesAs i.opcode more (ruleOf i (s.withMore more)) := by
  cases i with
  | init => exact .done (t := reinit s) (h.of_same rfl rfl)
  | readReg index =>
    have hsame : regValue (s.withMore more) index = regValue s index := rfl
    simp only [ruleOf, hsame]
    split
    · exact .done h
    · exact .fail
  | lfsrSeed seed => exact .done (t := { s with lfsr := seed }) (h.of_same rfl rfl)
  | lfsrStep => exact .done (t := lfsrStep s) (h.of_same rfl rfl)
  | appendByte byte => exact (appendByte_continues byte h).bind fun _ _ _ ht => .done ht
  | appendWord value => exact (appendWord_continues value h).bind fun _ _ _ ht => .done ht
  | flush => exact (flush_continues h).bind fun _ _ _ ht => .done ht
  | receiveBit w =>
    refine (receiveBit_continues w h fun t ht => ?_).waitingAs.bind fun _ _ _ ht => .done ht
    exact ⟨.receiveBit w, t, ht, rfl, rfl, nofun, rfl⟩
  | handshake => exact (sendConnect_continues h).bind fun _ _ _ ht => handshakeFromResponse_continues 250 ht
  | waitForAck n =>
    refine (waitForAck_continues _ h fun k t ht => ?_).bind fun _ _ _ ht => .done ht
    exact ⟨.waitForAck k, t, ht, rfl, rfl, nofun, rfl⟩
  | loadImage kind size => exact loadRule_continues kind size h
  | shutdown =>
    exact (appendWord_continues _ h).bind fun _ _ _ ht => (flush_continues ht).bind fun _ u _ hu =>
      .done (t := { u with sess := .done }) (hu.of_same rfl rfl)

end rules

end operations

/-! ## The step of a command that waits -/

/-- A step on a command whose call never returns leaves it there (spec/93_implementation_defined.md S5). -/
theorem step_hung {s : State} {op : Opcode} (hr : resetsNext s = false) (hb : s.busy = true)
    (h : s.running = some (.hung op)) : step s = .next s := by
  rw [step_busy hr hb, continueCommand]
  simp only [h]

/-- A command left in progress, given further answers, goes on as its rule does that has them from the start. -/
theorem step_withMore {op : Opcode} {x y : Flow Word} {t : State} {more : List (List Byte)}
    (hx : x.resumesAs op more y) (ht : settle op x = .next t) (hb : t.busy = true) (hmore : more ≠ []) :
    step (t.withMore more) = settle op y := by
  cases hx with
  | done h =>
    cases ht
    exact absurd ((complete_busy _ _ _).symm.trans hb) (by decide)
  | fail =>
    cases ht
    exact absurd ((complete_busy _ _ _).symm.trans hb) (by decide)
  | wait hwaits =>
    cases ht
    obtain ⟨p, u, hu, rfl, rfl, ends, rfl⟩ := hwaits
    let v : State := ({ u with running := some p } : State).withMore more
    have hsame : { v with running := none } = u.withMore more := 
      congrArg (fun r => { u.withMore more with running := r }) hu.running.symm
    calc step v = continueCommand v := step_busy (s := v) hu.stays hb
      _ = resume p v := continueCommand_answered (s := v) rfl ends (by simp [v, hmore])
      _ = settle (pendingOpcode p) (resumeRule p (u.withMore more)) := by rw [resume, hsame]
  | @hung v h =>
    cases ht
    exact step_hung (s := ({ v with running := some (.hung op) } : State).withMore more) h.stays hb rfl
  | fault => cases ht
  | refused => cases ht

/-- Settles O50: a command that is in progress behind `exec` stands where its rule waits or hangs. -/
theorem waitingCommandGoesOn : Obligations.WaitingCommandGoesOn := by
  intro i s t first more hrun hr hexec hb hmore
  let u : State := { s with answers := first }
  show step (t.withMore more) = exec i (u.withMore more)
  have hexec : exec i u = .next t := hexec
  rw [exec_eq_dispatch] at hexec
  rcases dispatch_cases i.opcode (ruleOf i) u with ⟨_, hbusy⟩ | ⟨_, _, hgated⟩ | ⟨hready, hruns⟩
  · cases hbusy.symm.trans hexec
  · cases hgated.symm.trans hexec
    exact absurd ((complete_busy _ _ _).symm.trans hb) (by decide)
  · have hu : Underway (accept u) := ⟨hrun, hr⟩
    rw [exec_ready (s := u.withMore more) hready]
    exact step_withMore (ruleOf_continues i hu) (hruns.symm.trans hexec) hb hmore

end Sys2Proof.Machine
end

section
/-! The word encoder and the transmit buffer (spec/41_encoder.md R130 to R136): the exact state Flush and AppendByte
leave, in every state whose cursor is in its bounds, and the commands built from them. -/

namespace Sys2Proof.Machine

open Sys2Proof

/-- `s` with the pending bytes handed to a TTransmit that returned (spec/41_encoder.md R132). -/
def sendPending (s : State) : State := { s.called (.ttransmit (pendingBytes s)) with txcur := 0 }

/-- `s` with a byte stored at the cursor, and the cursor behind it (spec/41_encoder.md R130). -/
def storeNext (b : Byte) (s : State) : State :=
  { s with txbuf := writeByte s.txbuf s.txcur b, txcur := s.txcur + 1 }

/-- What the trace of `t` shows beyond that of `s` are TTransmits of 1..TXCAP bytes (spec/41_encoder.md R136). -/
def SentInBounds (s t : State) : Prop :=
  ∃ sent : List (List Byte), t.trace = s.trace ++ sent.map .ttransmit ∧
    ∀ p ∈ sent, 1 ≤ p.length ∧ p.length ≤ s.cfg.txCap

section

variable {s t : State} {b : Byte}

/-- Where no call is to hang, a call that returned leaves nothing of itself but its event. -/
theorem sendPending_of_callsReturn (hr : CallsReturn s) :
    sendPending s = { s with txcur := 0, trace := s.trace ++ [.ttransmit (pendingBytes s)] } := by
  have htail : s.returns.tail = s.returns := by rw [hr]; rfl
  simp [sendPending, State.called, State.emit, htail]

theorem SentInBounds.refl (s : State) : SentInBounds s s := ⟨[], by simp, by simp⟩

theorem sendPending_inBounds (h0 : 0 < s.txcur) (hcur : s.txcur ≤ s.cfg.txCap) :
    SentInBounds s (sendPending s) :=
  ⟨[pendingBytes s], rfl, by simpa [pendingBytes_length] using ⟨h0, hcur⟩⟩

/-! ## Flush -/

theorem flush_nothing (h : s.txcur = 0) : flush s = .done () s := if_pos h

/-- Flush of pending bytes ends where its call returns. -/
theorem flush_pending (h0 : 0 < s.txcur) (hcur : s.txcur ≤ s.cfg.txCap) :
    flush s = (callTransport (.ttransmit (pendingBytes s)) s).bind fun _ s => .done () { s with txcur := 0 } := by
  rw [flush, if_neg (Nat.ne_of_gt h0), if_pos hcur]

theorem flush_pending_of_callsReturn (h0 : 0 < s.txcur) (hcur : s.txcur ≤ s.cfg.txCap) (hr : CallsReturn s) :
    flush s = .done () (sendPending s) := by
  rw [flush_pending h0 hcur, callTransport_returns hr]
  rfl

/-- Everything Flush can end with: nothing was pending, or the pending bytes are sent. -/
theorem flush_done (h : flush s = .done () t) :
    (s.txcur = 0 ∧ t = s) ∨ (0 < s.txcur ∧ s.txcur ≤ s.cfg.txCap ∧ t = sendPending s) := by
  rcases Nat.eq_zero_or_pos s.txcur with h0 | h0
  · cases (flush_nothing h0).symm.trans h
    exact .inl ⟨h0, rfl⟩
  · by_cases hcur : s.txcur ≤ s.cfg.txCap
    · rw [flush_pending h0 hcur] at h
      rcases callTransport_cases (.ttransmit (pendingBytes s)) s with hc | ⟨hc, _⟩
      · rw [hc] at h
        cases h
        exact .inr ⟨h0, hcur, rfl⟩
      · rw [hc] at h
        cases h
    · rw [flush, if_neg (Nat.ne_of_gt h0), if_neg hcur] at h
      cases h

theorem flush_done_cursor (h : flush s = .done () t) : t.txcur = 0 := by
  rcases flush_done h with ⟨h0, rfl⟩ | ⟨_, _, rfl⟩
  · exact h0
  · rfl

theorem flush_done_cfg (h : flush s = .done () t) : t.cfg = s.cfg := by
  rcases flush_done h with ⟨_, rfl⟩ | ⟨_, _, rfl⟩ <;> rfl

theorem flush_done_inBounds (h : flush s = .done () t) : SentInBounds s t := by
  rcases flush_done h with ⟨_, rfl⟩ | ⟨h0, hcur, rfl⟩
  · exact .refl _
  · exact sendPending_inBounds h0 hcur

/-! ## AppendByte -/

theorem appendByte_room (b : Byte) (hlt : s.txcur < s.cfg.txCap) : appendByte b s = .done () (storeNext b s) := by
  simp [appendByte, writeTx, storeNext, hlt, Nat.ne_of_lt hlt]

/-- A full buffer is flushed first, which makes room. -/
theorem appendByte_full (b : Byte) (hcap : 1 ≤ s.cfg.txCap) (hfull : s.txcur = s.cfg.txCap) :
    appendByte b s = (flush s).bind fun _ u => .done () (storeNext b u) := by
  rw [appendByte, if_pos hfull]
  cases hf : flush s with
  | done _ u =>
    have hlt : u.txcur < u.cfg.txCap := by rw [flush_done_cursor hf, flush_done_cfg hf]; exact hcap
    simp [writeTx, storeNext, hlt]
  | _ => rfl

theorem appendByte_full_of_callsReturn (b : Byte) (hcap : 1 ≤ s.cfg.txCap) (hfull : s.txcur = s.cfg.txCap)
    (hr : CallsReturn s) : appendByte b s = .done () (storeNext b (sendPending s)) := by
  rw [appendByte_full b hcap hfull, flush_pending_of_callsReturn (hfull ▸ hcap) (Nat.le_of_eq hfull) hr]
  rfl

/-- Everything AppendByte can end with: its byte stored at the cursor, or behind the flush of a full buffer. -/
theorem appendByte_done (hcap : 1 ≤ s.cfg.txCap) (hcur : s.txcur ≤ s.cfg.txCap) (h : appendByte b s = .done () t) :
    (s.txcur < s.cfg.txCap ∧ t = storeNext b s) ∨ (∃ u, flush s = .done () u ∧ t = storeNext b u) := by
  rcases Nat.lt_or_eq_of_le hcur with hlt | hfull
  · cases (appendByte_room b hlt).symm.trans h
    exact .inl ⟨hlt, rfl⟩
  · rw [appendByte_full b hcap hfull] at h
    cases hf : flush s with
    | done _ u =>
      rw [hf] at h
      cases h
      exact .inr ⟨u, rfl, rfl⟩
    | _ => rw [hf] at h; cases h

/-- AppendByte keeps R136's bounds wherever it ends. -/
theorem appendByte_done_bounds (hcap : 1 ≤ s.cfg.txCap) (hcur : s.txcur ≤ s.cfg.txCap)
    (h : appendByte b s = .done () t) : 1 ≤ t.txcur ∧ t.txcur ≤ s.cfg.txCap ∧ SentInBounds s t := by
  rcases appendByte_done hcap hcur h with ⟨hlt, rfl⟩ | ⟨u, hf, rfl⟩
  · exact ⟨Nat.succ_pos _, hlt, SentInBounds.refl s⟩
  · have hcursor : (storeNext b u).txcur = 1 := congrArg (· + 1) (flush_done_cursor hf)
    have hsent : SentInBounds s u := flush_done_inBounds hf
    exact ⟨Nat.le_of_eq hcursor.symm, hcursor.trans_le hcap, hsent⟩

/-! ## AppendWord -/

/-- Appending neither reads nor writes BUSY, so acceptance does not show in it. -/
theorem Appended.of_accept {bs : List Byte} (h : Appended (accept s) t bs) :
    Appended s { t with busy := s.busy } bs where
  frame := congrArg (fun u : State => { u with busy := s.busy }) h.frame
  ok := h.ok.of_same rfl rfl rfl
  wire := h.wire
  events := h.events

/-! ## The commands -/

/-- A command whose rule is an operation with nothing to answer ends OK where the operation ends. -/
theorem settle_operation {op : Opcode} {x : Flow Unit} (h : x = .done () t) :
    settle op (x.bind fun _ s => .done 0#32 s) = .next (answered .ok 0#32 t) := by
  rw [h]
  rfl

theorem exec_appendByte (hready : Ready .appendByte s) (h : appendByte b (accept s) = .done () t) :
    exec (.appendByte b) s = .next (answered .ok 0#32 t) :=
  (exec_ready (i := .appendByte b) hready).trans (settle_operation h)

theorem exec_appendWord {v : Word} (hready : Ready .appendWord s) (h : appendWord v (accept s) = .done () t) :
    exec (.appendWord v) s = .next (answered .ok 0#32 t) :=
  (exec_ready (i := .appendWord v) hready).trans (settle_operation h)

theorem exec_flush (hready : Ready .flush s) (h : flush (accept s) = .done () t) :
    exec .flush s = .next (answered .ok 0#32 t) :=
  (exec_ready (i := .flush) hready).trans (settle_operation h)

end

/-- Settles O21: AppendByte stores at the cursor, which is 0 behind the flush of a full buffer. -/
theorem appendByteStoresOneByte : Obligations.AppendByteStoresOneByte := by
  refine fun s b hready hcap => ⟨fun hlt => ⟨?_, ?_, ?_⟩, fun hfull hr => ⟨?_, ?_, ?_⟩⟩
  · calc exec (.appendByte b) s = .next (answered .ok 0#32 (storeNext b (accept s))) :=
          exec_appendByte hready (appendByte_room b hlt)
      _ = .next (answered .ok 0#32 (storeNext b s)) := rfl
  · exact fun a ha => readByte_writeByte_other _ _ _ _ ha
  · exact readByte_writeByte_same _ _ _
  · calc exec (.appendByte b) s = .next (answered .ok 0#32 (storeNext b (sendPending (accept s)))) :=
          exec_appendByte hready (appendByte_full_of_callsReturn b hcap hfull hr)
      _ = .next (answered .ok 0#32 (storeNext b (sendPending s))) := rfl
      _ = _ := by rw [sendPending_of_callsReturn hr]; rfl
  · exact fun a ha => readByte_writeByte_other _ _ _ _ ha
  · exact readByte_writeByte_same _ _ _

/-- Settles O22: AppendWord is AppendByte of the eleven bytes, each stored behind the one before it. -/
theorem appendWordAppendsElevenBytes : Obligations.AppendWordAppendsElevenBytes := by
  intro s v hready hok hr
  obtain ⟨t, happend, happended, hplaced⟩ := appendWord_spec v (s := accept s) (hok.of_same rfl rfl rfl) hr
  have hexec : exec (.appendWord v) s = .next (answered .ok 0#32 t) := exec_appendWord hready happend
  exact ⟨{ t with busy := s.busy }, hexec, happended.of_accept, hplaced.cursor,
    hplaced.filled (.inl (by decide)), hplaced.stored⟩

/-- Settles O23: Flush does nothing, or sends the pending bytes in one call. -/
theorem flushSendsThePendingBytes : Obligations.FlushSendsThePendingBytes := by
  refine fun s hready => ⟨fun h0 => ?_, fun h0 hcur hr => ?_⟩
  · calc exec .flush s = .next (answered .ok 0#32 (accept s)) := exec_flush hready (flush_nothing h0)
      _ = .next (answered .ok 0#32 s) := by rw [answered_accept]
  · calc exec .flush s = .next (answered .ok 0#32 (sendPending (accept s))) :=
          exec_flush hready (flush_pending_of_callsReturn h0 hcur hr)
      _ = .next (answered .ok 0#32 (sendPending s)) := rfl
      _ = _ := by rw [sendPending_of_callsReturn hr]; rfl

/-- Settles O24: the bounds come from the states both operations can end in, and both end where calls return. -/
theorem transmitCursorBounds : Obligations.TransmitCursorBounds := by
  intro s hcap hcur
  refine ⟨fun b t h => appendByte_done_bounds hcap hcur h,
    fun t h => ⟨flush_done_cursor h, flush_done_inBounds h⟩, fun hr => ⟨fun b => ?_, ?_⟩⟩
  · rcases Nat.lt_or_eq_of_le hcur with hlt | hfull
    · exact ⟨_, appendByte_room b hlt⟩
    · exact ⟨_, appendByte_full_of_callsReturn b hcap hfull hr⟩
  · rcases Nat.eq_zero_or_pos s.txcur with h0 | h0
    · exact ⟨s, flush_nothing h0⟩
    · exact ⟨_, flush_pending_of_callsReturn h0 hcur hr⟩

end Sys2Proof.Machine
end

section
/-! RECEIVE_BIT (spec/42_decoder.md R150 to R152): a bit, a timeout or a wait, by the bits that are still to come. -/

namespace Sys2Proof.Machine

open Sys2Proof

section receiving

variable {s t : State} {w : Word} {b : Bool}

/-! ## Receiving inside a command -/

/-- Acceptance leaves the receive window alone. -/
theorem RxOk.accept (h : RxOk s) : RxOk (accept s) := h.of_same rfl rfl rfl rfl

/-- Receiving neither reads nor writes BUSY, so acceptance does not show in it. -/
theorem Refilled.of_accept (h : Refilled w (accept s) t) : Refilled w s { t with busy := s.busy } where
  frame := congrArg (fun u : State => { u with busy := s.busy }) h.frame
  ok := h.ok.of_same rfl rfl rfl rfl
  events := h.events

/-- What a stretch of receiving shows and keeps, in terms of the answers it took. -/
theorem Refilled.of_taken {taken : List (List Byte)} (h : Refilled w s t) (hs : s.answers = taken ++ t.answers) :
    t = { s with
      rxbuf := t.rxbuf, rxcur := t.rxcur, rxlen := t.rxlen, answers := t.answers,
      trace := s.trace ++ taken.map (.treceive s.cfg.rxCap w) } ∧
    ∀ a, (∀ ans ∈ taken, ans.length ≤ a) → readByte t.rxbuf a = readByte s.rxbuf a := by
  obtain ⟨taken', hs', htrace, _, hkeep⟩ := h.events
  cases List.append_cancel_right (hs'.symm.trans hs)
  refine ⟨?_, hkeep⟩
  rw [← htrace]
  exact h.frame

/-- As `Refilled.of_taken`, where every answer was taken and the window is exhausted. -/
theorem Refilled.of_exhausted (h : Refilled w s t) (ha : t.answers = []) (hx : t.rxcur = t.rxlen) :
    t = { s with
      rxbuf := t.rxbuf, rxcur := t.rxlen, rxlen := t.rxlen, answers := [],
      trace := s.trace ++ s.answers.map (.treceive s.cfg.rxCap w) } ∧
    ∀ a, (∀ ans ∈ s.answers, ans.length ≤ a) → readByte t.rxbuf a = readByte s.rxbuf a := by
  have := h.of_taken (taken := s.answers) (by rw [ha, List.append_nil])
  rwa [ha, hx] at this

/-! ## The rule -/

theorem receiveBitRule_done (h : receiveBit w s = .done b t) : receiveBitRule w s = .done (bit32 b) t := by
  rw [receiveBitRule, h]
  rfl

theorem receiveBitRule_fail {st : Status} (h : receiveBit w s = .fail st t) : receiveBitRule w s = .fail st t := by
  rw [receiveBitRule, h]
  rfl

theorem receiveBitRule_wait (h : receiveBit w s = .wait t) :
    receiveBitRule w s = .wait { t with running := some (.receiveBit w) } := by
  rw [receiveBitRule, h]
  rfl

/-! ## The command -/

theorem exec_receiveBit (hready : Ready .receiveBit s) :
    exec (.receiveBit w) s = settle .receiveBit (receiveBitRule w (accept s)) :=
  exec_ready (i := .receiveBit w) hready

/-- While the transport answers with noise only, RECEIVE_BIT takes every answer and stays in progress. -/
theorem receiveBit_waits_on_noise (hready : Ready .receiveBit s) (hok : RxOk s) (href : Refills s.cfg s.answers)
    (hb : incomingBits s s.answers = []) :
    ∃ t, exec (.receiveBit w) s = .next t ∧
      t = { s with
        rxbuf := t.rxbuf, rxcur := t.rxlen, rxlen := t.rxlen, answers := [], busy := true,
        running := some (.receiveBit w),
        trace := s.trace ++ s.answers.map (.treceive s.cfg.rxCap w) } ∧
      ∀ a, (∀ ans ∈ s.answers, ans.length ≤ a) → readByte t.rxbuf a = readByte s.rxbuf a := by
  obtain ⟨u, hwait, hrefilled, hans, hcur⟩ := (receiveBitOver_silence (t := w) (s := accept s) (tail := [])
    hok.accept (List.append_nil _).symm href hb).1 rfl
  obtain ⟨hframe, hkeep⟩ := hrefilled.of_exhausted hans hcur
  rw [List.append_nil] at hwait
  refine ⟨{ u with running := some (.receiveBit w) }, ?_, ?_, hkeep⟩
  · rw [exec_receiveBit hready, receiveBitRule_wait hwait]
    rfl
  · exact congrArg (fun v : State => { v with running := some (.receiveBit w) }) hframe

end receiving

/-- Settles O27: ReceiveBit ends at the first bit to come, and the command answers it. -/
theorem receiveBitAnswersTheNextBit : Obligations.ReceiveBitAnswersTheNextBit := by
  intro s w pre tail b more hready hok hs hpre hb
  obtain ⟨u, left, hbit, hrefilled, hleft, _, hmore⟩ :=
    receiveBitOver_bit (t := w) (s := accept s) hok.accept hs hpre hb
  let t : State := { u with busy := s.busy }
  have ht : Refilled w s t := hrefilled.of_accept
  have hans : t.answers = left ++ tail := hleft
  obtain ⟨taken, htaken, _⟩ := ht.events
  have hsplit : pre = taken ++ left := by
    rw [hans, hs, ← List.append_assoc] at htaken
    exact List.append_cancel_right htaken
  obtain ⟨hframe, hkeep⟩ := ht.of_taken htaken
  rw [hans] at hframe
  refine ⟨t, left, taken, ?_, hsplit, hmore, hframe, ht.ok, hkeep⟩
  have hrule : receiveBitRule w (accept s) = .done (bit32 b) u :=
    receiveBitRule_done (by rw [receiveBit, accept_answers, hs]; exact hbit)
  rw [exec_receiveBit hready, hrule]
  rfl

/-- Settles O28: ReceiveBit takes the noise and the empty answer, and the failure entry does the rest. -/
theorem receiveBitTimesOut : Obligations.ReceiveBitTimesOut := by
  intro s w pre rest hready hok hs hpre hb
  obtain ⟨u, hfail, hrefilled, hrest, hcur, hlen⟩ :=
    (receiveBitOver_silence (t := w) (s := accept s) hok.accept hs hpre hb).2 rest rfl
  let t : State := { u with busy := s.busy }
  have ht : Refilled w s t := hrefilled.of_accept
  have htaken : s.answers = (pre ++ [[]]) ++ t.answers := by
    rw [hs, show t.answers = rest from hrest, List.append_assoc]
    rfl
  obtain ⟨hframe, hkeep⟩ := ht.of_taken htaken
  have hrule : receiveBitRule w (accept s) = .fail .timeout u :=
    receiveBitRule_fail (by rw [receiveBit, accept_answers, hs]; exact hfail)
  refine ⟨complete .timeout 0#32 u, ?_, ?_, fun a ha => hkeep a ?_⟩
  · rw [exec_receiveBit hready, hrule]
    rfl
  · rw [show t.rxcur = 0 from hcur, show t.rxlen = 0 from hlen, show t.answers = rest from hrest] at hframe
    calc complete .timeout 0#32 u = answered .timeout 0#32 { t with sess := .failed } := rfl
      _ = _ := by rw [hframe]; rfl
  · simpa [or_imp, forall_and] using ha

/-! ## Division into refills -/

/-- RECEIVE_BIT over the scripted answers alone: its answer and what it leaves to come. -/
theorem receiveBit_answers {s : State} {b : Bool} (w : Word) (hready : Ready .receiveBit s) (hok : RxOk s)
    (href : Refills s.cfg s.answers) {more : List Bool} (hb : incomingBits s s.answers = b :: more) :
    ∃ t, exec (.receiveBit w) s = .next (answered .ok (bit32 b) t) ∧ incomingBits t t.answers = more := by
  obtain ⟨t, left, _, hexec, _, hmore, hframe, _, _⟩ :=
    receiveBitAnswersTheNextBit s w s.answers [] b more hready hok (List.append_nil _).symm href hb
  have hans : t.answers = left := (congrArg State.answers hframe).trans (List.append_nil _)
  exact ⟨t, hexec, by rw [hans]; exact hmore⟩

/-- Settles O30: what RECEIVE_BIT answers and leaves to come is a function of the bits to come, which both states
share; with none it is still in progress. -/
theorem refillDivisionDoesNotMatter : Obligations.RefillDivisionDoesNotMatter := by
  intro s₁ s₂ t₁ w hok₁ hok₂ href₁ href₂ hsame hbytes hexec hdone
  have hbusy : s₂.busy = s₁.busy := by rw [hsame]
  have hsess : s₂.sess = s₁.sess := by rw [hsame]
  have hbits : incomingBits s₂ s₂.answers = incomingBits s₁ s₁.answers := congrArg bitsOf hbytes.symm
  rcases dispatch_cases .receiveBit (receiveBitRule w) s₁ with
    ⟨_, hrefused⟩ | ⟨hb, hgate, hgated⟩ | ⟨⟨hb, hallow⟩, _⟩
  · cases hrefused.symm.trans hexec
  · cases hgated.symm.trans hexec
    refine ⟨_, exec_gated (i := .receiveBit w) (hbusy.trans hb) ?_, rfl, rfl, ?_, hbits⟩
    · rw [hsess]
      exact hgate
    · simp [answered]
  · have hready₂ : Ready .receiveBit s₂ := ⟨hbusy.trans hb, by rw [hsess]; exact hallow⟩
    cases hnext : incomingBits s₁ s₁.answers with
    | nil =>
      obtain ⟨u, hwaits, hframe, _⟩ := receiveBit_waits_on_noise (w := w) ⟨hb, hallow⟩ hok₁ href₁ hnext
      cases hwaits.symm.trans hexec
      rw [hframe] at hdone
      cases hdone
    | cons b more =>
      obtain ⟨u₁, hexec₁, hmore₁⟩ := receiveBit_answers w ⟨hb, hallow⟩ hok₁ href₁ hnext
      obtain ⟨u₂, hexec₂, hmore₂⟩ := receiveBit_answers w hready₂ hok₂ href₂ (hbits.trans hnext)
      cases hexec₁.symm.trans hexec
      exact ⟨_, hexec₂, rfl, rfl, by simp [answered], hmore₂.trans hmore₁.symm⟩

end Sys2Proof.Machine
end

section
/-! Commands that hang (spec/70_reset_and_hazards.md R312; spec/42_decoder.md R152 (d)): a TReceive that brings noise
only, and a TReset or TTransmit that never returns, up to which every step goes as where all calls return. -/

namespace Sys2Proof.Machine

open Sys2Proof

/-! ## Noise in a HANDSHAKE -/

/-- While the transport answers with noise only, HANDSHAKE takes every answer behind its connect stream and stays in
progress in step 7. -/
theorem handshake_waits_on_noise {s : State} (hready : Ready .handshake s) (htx : TxOk s) (hrx : RxOk s)
    (hr : CallsReturn s) (href : Refills s.cfg s.answers) (hb : incomingBits s s.answers = []) :
    ∃ (t : State) (payloads : List (List Byte)), exec .handshake s = .next t ∧
      t = { s with
        lfsr := 0x9A#8, txbuf := t.txbuf, txcur := 0, rxbuf := t.rxbuf, rxcur := t.rxlen, rxlen := t.rxlen,
        hsState := .responseVerifying, answers := [], busy := true, running := some (.response 250),
        trace := s.trace ++ [.progress .handshakeStart 0#32 0#32, .treset] ++ payloads.map .ttransmit ++
          [.progress .responseStart 0#32 0#32] ++ s.answers.map (.treceive s.cfg.rxCap 100#32) } ∧
      payloads.flatten = pendingBytes s ++ handshakeStream ∧
      (∀ a, (∀ j < 509, a ≠ appendAddress s j) → readByte t.txbuf a = readByte s.txbuf a) ∧
      ∀ a, (∀ ans ∈ s.answers, ans.length ≤ a) → readByte t.rxbuf a = readByte s.rxbuf a := by
  obtain ⟨c, payloads, hsend, hc⟩ := sendConnect_spec (s := accept s) (htx.of_same rfl rfl rfl) hr
  have hans : c.answers = s.answers := by rw [hc.frame]; rfl
  have hrxbuf : c.rxbuf = s.rxbuf := by rw [hc.frame]; rfl
  have hbits : incomingBits c c.answers = [] := by rw [hc.frame]; exact hb
  have hrefc : Refills c.cfg c.answers := by rw [hc.cfg_eq, hans]; exact href
  obtain ⟨u, hwait, hrefilled, hnone, hcur⟩ := verifyResponse_wait 249 (hc.rxOk hrx.accept) hrefc hbits
  obtain ⟨hframe, hkeep⟩ := hrefilled.of_exhausted hnone hcur
  have htxbuf : u.txbuf = c.txbuf := by rw [hframe]
  let t : State := { u with running := some (.response 250) }
  have hrule : ruleOf .handshake (accept s) = .wait t := by
    show handshakeRule (accept s) = _
    rw [handshakeRule, hsend, Flow.bind_done, handshakeFromResponse, hwait]
    rfl
  refine ⟨t, payloads, ?_, ?_, hc.sent, fun a ha => ?_, fun a ha => ?_⟩
  · rw [exec_ready (i := .handshake) hready, hrule]
    rfl
  · have hlfsr : lfsrAfter 250 handshakeSeed = 0x9A#8 := by decide +kernel
    have hreturns : (accept s).returns.drop (1 + payloads.length) = s.returns := by
      rw [accept_returns, show s.returns = [] from hr, List.drop_nil]
    rw [hc.frame, ← htxbuf, hlfsr, hreturns] at hframe
    exact congrArg (fun v : State => { v with running := some (.response 250) }) hframe
  · rw [show t.txbuf = c.txbuf from htxbuf]
    exact hc.stored a ha
  · rw [← hrxbuf]
    exact hkeep a (by rw [hans]; exact ha)

/-! ## Steps with other outcomes of the calls -/

/-- `o'` is the outcome `o` of a step from `s` that runs the command `op`, with the outcomes `rs` of the next calls,
where every call of `o` returns: with enough calls that return it is the same, and else it stops in the first call that
never returns, behind the same events, the command in progress. -/
def StepFollows (op : Option Opcode) (s : State) (rs : List Bool) (o o' : Host.Outcome State Fault Refusal) : Prop :=
  ∀ t, o = .next t → ∃ es : List Event, t.trace = s.trace ++ es ∧
    (false ∉ rs.take (transportCalls es) → o' = .next (t.withReturns (rs.drop (transportCalls es)))) ∧
    ∀ k < transportCalls es, false ∉ rs.take k → rs[k]? = some false →
      ∃ (u : State) (op' : Opcode) (es' : List Event) (e : Event), o' = .next u ∧ op = some op' ∧ u.busy = true ∧
        u.running = some (.hung op') ∧ u.returns = rs.drop (k + 1) ∧ u.trace = s.trace ++ es' ++ [e] ∧
        (es' ++ [e]) <+: es ∧ transportCalls es' = k ∧ transportCalls [e] = 1

section follows

variable {s : State} {op : Option Opcode} {rs : List Bool}

/-- A step that makes no call is the same whatever the calls do. -/
theorem StepFollows.of_quiet {t : State} (es : List Event) (ht : t.trace = s.trace ++ es)
    (hn : transportCalls es = 0) : StepFollows op s rs (.next t) (.next (t.withReturns rs)) := by
  rintro _ ⟨⟩
  refine ⟨es, ht, fun _ => ?_, fun k hk => absurd hk (by omega)⟩
  rw [hn, List.drop_zero]

/-- A command in progress is followed where the flow of its rule is tracked. -/
theorem StepFollows.of_tracks {c : Opcode} {v : State} {x y : Flow Word} (h : Tracks v rs x y)
    (ht : v.trace = s.trace) (hb : v.busy = true) :
    StepFollows (some c) s rs (settle c x) (settle c y) := by
  intro t hx
  obtain ⟨es, htrace, hsame, hhang⟩ := settle_tracks h hx
  rw [ht] at htrace
  refine ⟨es, htrace, hsame, fun k hk hno hfalse => ?_⟩
  obtain ⟨u, es', e, hu, hbusy, hrun, hreturns, htrace', hprefix, hcalls, hcall⟩ := hhang k hk hno hfalse
  rw [ht] at htrace'
  exact ⟨u, c, es', e, hu, rfl, hbusy.trans hb, hrun, hreturns, htrace', hprefix, hcalls, hcall⟩

/-- The rule of every command is tracked. -/
theorem ruleOf_tracks (i : Instr) (hr : s.returns = []) (rs : List Bool) :
    Tracks s rs (ruleOf i s) (ruleOf i (s.withReturns rs)) := by
  cases i with
  | init => exact Tracks.update (t := reinit s) _ hr rfl rfl
  | readReg index =>
    have hsame : regValue (s.withReturns rs) index = regValue s index := rfl
    rw [ruleOf, ruleOf, hsame]
    cases regValue s index with
    | some data => exact Tracks.done rs data hr
    | none => exact Tracks.fail rs .illegal hr
  | lfsrSeed seed => exact Tracks.update (t := { s with lfsr := seed }) _ hr rfl rfl
  | lfsrStep => exact Tracks.update (t := lfsrStep s) _ hr rfl rfl
  | appendByte b => exact (appendByte_tracks b hr rs).bind fun _ _ ht rs' => Tracks.done rs' _ ht
  | appendWord v => exact (appendWord_tracks v hr rs).bind fun _ _ ht rs' => Tracks.done rs' _ ht
  | flush => exact (flush_tracks hr rs).bind fun _ _ ht rs' => Tracks.done rs' _ ht
  | receiveBit w => exact receiveBitRule_tracks w hr rs
  | handshake => exact handshakeRule_tracks hr rs
  | waitForAck n => exact (waitForAck_tracks _ _ hr rs).bind fun _ _ ht rs' => Tracks.done rs' _ ht
  | loadImage kind size => exact loadRule_tracks kind size hr rs
  | shutdown => exact shutdownRule_tracks hr rs

/-! ### The kinds of a step -/

theorem step_resets {rest : List HostMove} (hh : s.host = .blockReset :: rest) :
    step s = .next (blockReset { s with host := rest }) := by simp [step, stepBlock, hh]

theorem step_idle (hh : s.host = []) (hb : s.busy = false) : step s = .next s := by simp [step, stepBlock, hh, hb]

theorem continueCommand_hung {c : Opcode} (hrun : s.running = some (.hung c)) : continueCommand s = .next s := by
  simp only [continueCommand, hrun]

theorem resume_follows {p : Pending} {v : State} (ends : ∀ op, p ≠ .hung op) (hr : v.returns = [])
    (ht : v.trace = s.trace) (hb : v.busy = true) :
    StepFollows (some (pendingOpcode p)) s rs (resume p v) (resume p (v.withReturns rs)) :=
  .of_tracks (resumeRule_tracks (s := { v with running := none }) ends hr rs) ht hb

theorem continueCommand_follows (hr : s.returns = []) (hb : s.busy = true) :
    StepFollows (s.running.map pendingOpcode) s rs (continueCommand s) (continueCommand (s.withReturns rs)) := by
  cases hrun : s.running with
  | none =>
    intro t h
    simp [continueCommand, hrun] at h
  | some p =>
    by_cases hp : ∃ c, p = .hung c
    · obtain ⟨c, rfl⟩ := hp
      rw [continueCommand_hung hrun, continueCommand_hung (s := s.withReturns rs) hrun]
      exact .of_quiet [] (List.append_nil _).symm rfl
    have ends : ∀ c, p ≠ .hung c := fun c hc => hp ⟨c, hc⟩
    by_cases ha : s.answers = []
    · cases hd : Config.transportDraw s.draws with
      | some a =>
        rw [continueCommand_drawn hrun ends ha hd, continueCommand_drawn (s := s.withReturns rs) hrun ends ha hd]
        exact resume_follows (v := { s with draws := s.draws + 1, answers := [a.take (p.maxBytes s.cfg)] })
          ends hr rfl hb
      | none =>
        rw [continueCommand_waits hrun ends ha hd, continueCommand_waits (s := s.withReturns rs) hrun ends ha hd]
        exact .of_quiet (t := { s with draws := s.draws + 1 }) [] (List.append_nil _).symm rfl
    · rw [continueCommand_answered hrun ends ha, continueCommand_answered (s := s.withReturns rs) hrun ends ha]
      exact resume_follows ends hr rfl hb

theorem exec_follows (i : Instr) (hr : s.returns = []) :
    StepFollows (some i.opcode) s rs (exec i s) (exec i (s.withReturns rs)) := by
  rcases dispatch_cases i.opcode (ruleOf i) s with ⟨hb, _⟩ | ⟨hb, hgate, _⟩ | ⟨hready, _⟩
  · intro t h
    rw [exec_eq_dispatch, dispatch_busy hb] at h
    cases h
  · rw [exec_gated hb hgate, exec_gated (s := s.withReturns rs) hb hgate]
    exact .of_quiet [.response .precond 0#32] rfl rfl
  · rw [exec_ready hready, exec_ready (s := s.withReturns rs) hready]
    exact .of_tracks (ruleOf_tracks (s := accept s) i hr rs) rfl rfl

theorem step_busy_follows (hreset : resetsNext s = false) (hb : s.busy = true) (hr : s.returns = []) :
    StepFollows (commandOf s) s rs (step s) (step (s.withReturns rs)) := by
  rw [step_busy hreset hb, step_busy (s := s.withReturns rs) hreset hb,
    show commandOf s = s.running.map pendingOpcode by simp [commandOf, hreset, hb]]
  exact continueCommand_follows hr hb

theorem step_command_follows {word : Command} {image : List Byte} {held : Bool} {rest : List HostMove}
    (hh : s.host = .command word image held :: rest) (hb : s.busy = false) (hr : s.returns = []) :
    StepFollows (commandOf s) s rs (step s) (step (s.withReturns rs)) := by
  cases hd : decode word with
  | ok i =>
    rw [stepRunsTheDecodedCommand _ _ _ _ _ _ hh hb hd,
      stepRunsTheDecodedCommand (s.withReturns rs) _ _ _ _ _ hh hb hd, commandOf_decodes hh hb hd]
    exact exec_follows (s := presented image held rest s) i hr
  | error e =>
    have hill : ¬ ∃ i, decode word = .ok i := by simp [hd]
    rw [step_illegal hh hb hill, step_illegal (s := s.withReturns rs) hh hb hill]
    exact .of_quiet [.response .illegal 0#32] rfl rfl

/-- A step whose calls all return, given other outcomes of its calls, is the same up to the first that never returns. -/
theorem step_follows (hr : s.returns = []) :
    StepFollows (commandOf s) s rs (step s) (step (s.withReturns rs)) := by
  match hh : s.host with
  | .blockReset :: rest =>
    rw [step_resets hh, step_resets (s := s.withReturns rs) hh]
    exact .of_quiet (t := blockReset { s with host := rest }) [] (List.append_nil _).symm rfl
  | .command word image held :: rest =>
    cases hb : s.busy with
    | true => exact step_busy_follows (resetsNext_command hh) hb hr
    | false => exact step_command_follows hh hb hr
  | [] =>
    cases hb : s.busy with
    | true => exact step_busy_follows (by simp [resetsNext, hh]) hb hr
    | false =>
      rw [step_idle hh hb, step_idle (s := s.withReturns rs) hh hb]
      exact .of_quiet [] (List.append_nil _).symm rfl

end follows

/-- Settles O29: noise leaves RECEIVE_BIT and HANDSHAKE in their TReceive with every answer taken, and a step follows the
step whose calls all return up to its first call that does not. -/
theorem hangingCommandsStayInProgress : Obligations.HangingCommandsStayInProgress := by
  refine ⟨fun s w hready hok href hb => receiveBit_waits_on_noise hready hok href hb,
    fun s hready htx hrx hr href hb => handshake_waits_on_noise hready htx hrx hr href hb, ?_,
    fun s op hb hrun hreset => step_hung hreset hb hrun⟩
  intro s t calls hstep hcalls
  let v : State := { s with returns := [] }
  obtain ⟨es, htrace, hsame, hhang⟩ := step_follows (s := v) (rs := s.returns) rfl t hstep
  have hcount : calls = transportCalls es := by
    rw [htrace, transportCalls_append] at hcalls
    exact (Nat.add_left_cancel hcalls).symm
  subst hcount
  refine ⟨hsame, fun k hk hno hfalse => ?_⟩
  obtain ⟨u, op, es', e, hu, hop, hbusy, hrun, hreturns, htrace', hprefix, hcalls', hcall⟩ := hhang k hk hno hfalse
  refine ⟨u, op, es', e, hu, hop, hbusy, hrun, hreturns, htrace', ?_, hcalls', hcall⟩
  rw [htrace', htrace, List.append_assoc]
  exact (List.prefix_append_right_inj _).2 hprefix

end Sys2Proof.Machine
end

section
/-! The shift register (spec/43_lfsr.md R170 to R174): one step, its single cycle of length 255, LFSR_SEED and
LFSR_STEP. -/

namespace Sys2Proof.Machine

open Sys2Proof

/-! ## One step -/

theorem bit8_eq_and_one (x : Byte) : bit8 (x.getLsbD 0) = x &&& 1#8 := by
  rw [BitVec.and_one_eq_setWidth_ofBool_getLsbD]
  cases x.getLsbD 0 <;> rfl

/-- The mask of R170 drops nothing: the shift leaves bit 0 clear for the bit that comes in. -/
theorem shiftIn_eq_append (r : Byte) (b : Bool) :
    (r <<< 1 &&& 0xFE#8) ||| bit8 b = r.extractLsb' 0 7 ++ BitVec.ofBool b := by
  have hmask : r <<< 1 &&& 0xFE#8 = r <<< 1 := by
    refine BitVec.eq_of_getLsbD_eq fun i hi => ?_
    have hones : ∀ j < 8, (0xFE#8).getLsbD j = decide (0 < j) := by decide
    cases i with
    | zero => simp
    | succ j => simp [hones (j + 1) hi]
  have hbit : bit8 b = (BitVec.ofBool b).setWidth 8 := by cases b <;> rfl
  rw [hmask, hbit]
  refine BitVec.eq_of_getLsbD_eq fun i hi => Eq.trans ?_ BitVec.getLsbD_append.symm
  cases i with
  | zero => simp
  | succ j => simp [hi, Nat.lt_of_succ_lt_succ hi, BitVec.getLsbD_eq_getElem (Nat.lt_of_succ_lt hi)]

/-- `{r[6:0], fb}` with the taps 7, 5, 4 and 1, in the order in which R170 writes them. -/
theorem lfsrNext_eq_append (r : Byte) : lfsrNext r = r.extractLsb' 0 7 ++
    BitVec.ofBool (((r.getLsbD 7 ^^ r.getLsbD 5) ^^ r.getLsbD 4) ^^ r.getLsbD 1) := by
  rw [lfsrNext, shiftIn_eq_append, Bool.xor_assoc (r.getLsbD 7 ^^ r.getLsbD 5)]

/-- The feedback is bit 0 of the XOR of the shifted registers. -/
theorem lfsrNext_eq_shifts (r : Byte) : lfsrNext r =
    ((r <<< 1) &&& 0xFE#8) ||| ((((r >>> 7) ^^^ (r >>> 5)) ^^^ (r >>> 4) ^^^ (r >>> 1)) &&& 1#8) := by
  rw [lfsrNext, ← bit8_eq_and_one]
  simp

/-- Settles O10, by the two forms of the next value. -/
theorem lfsrAdvanceRule : Obligations.LfsrAdvanceRule :=
  ⟨fun _ => rfl, fun r => ⟨bit8_eq_and_one r, lfsrNext_eq_shifts r, lfsrNext_eq_append r⟩⟩

/-! ## The two commands -/

/-- Settles O19: the rule of LFSR_SEED ends OK with the seed in the register. -/
theorem lfsrSeedLoadsTheRegister : Obligations.LfsrSeedLoadsTheRegister := by
  intro s seed hready
  calc exec (.lfsrSeed seed) s = settle .lfsrSeed (ruleOf (.lfsrSeed seed) (accept s)) := exec_ready hready
    _ = .next (complete .ok 0#32 { accept s with lfsr := seed }) := rfl
    _ = .next (answered .ok 0#32 { s with lfsr := seed }) := rfl

/-- Settles O20: the rule of LFSR_STEP answers the bit it emits, and its step is that of R170. -/
theorem lfsrStepAdvancesTheRegister : Obligations.LfsrStepAdvancesTheRegister := by
  intro s hready
  rw [← lfsrNext_eq_append]
  calc exec .lfsrStep s = settle .lfsrStep (ruleOf .lfsrStep (accept s)) := exec_ready hready
    _ = .next (complete .ok (bit32 (lfsrBit s.lfsr)) (lfsrStep (accept s))) := rfl
    _ = .next (answered .ok (bit32 (lfsrBit s.lfsr)) (lfsrStep s)) := rfl

/-! ## The cycle -/

/-- Many steps are an iterate, so that what Mathlib says of periodic points holds of the register. -/
theorem lfsrAfter_eq_iterate (n : Nat) (r : Byte) : lfsrAfter n r = lfsrNext^[n] r := by
  induction n generalizing r with
  | zero => rfl
  | succ n ih => exact ih (lfsrNext r)

theorem lfsrAfter_zero_eq (n : Nat) : lfsrAfter n 0x00#8 = 0x00#8 := by
  rw [lfsrAfter_eq_iterate]
  exact Function.iterate_fixed (by decide) n

theorem lfsrBits_zero_eq (n : Nat) : lfsrBits n 0x00#8 = List.replicate n false := by
  induction n with
  | zero => rfl
  | succ n ih =>
    have hstep : lfsrNext 0x00#8 = 0x00#8 := lfsrAfter_zero_eq 1
    rw [lfsrBits, hstep, ih]
    rfl

theorem lfsrAfter_255_seed : lfsrAfter 255 handshakeSeed = handshakeSeed := by decide +kernel

/-- 255 = 3 * 5 * 17, and a divisor of 255 that divides none of 255 / 3, 255 / 5 and 255 / 17 is 255 itself. -/
theorem minimalPeriod_seed : Function.minimalPeriod lfsrNext handshakeSeed = 255 := by
  have hdvd (n : Nat) :
      Function.minimalPeriod lfsrNext handshakeSeed ∣ n ↔ lfsrAfter n handshakeSeed = handshakeSeed := by
    rw [lfsrAfter_eq_iterate, ← Function.isPeriodicPt_iff_minimalPeriod_dvd]
    rfl
  have h85 : lfsrAfter 85 handshakeSeed ≠ handshakeSeed := by decide +kernel
  have h51 : lfsrAfter 51 handshakeSeed ≠ handshakeSeed := by decide +kernel
  have h15 : lfsrAfter 15 handshakeSeed ≠ handshakeSeed := by decide +kernel
  have hdivisors : ∀ d ∈ Nat.divisors 255, ¬ d ∣ 85 → ¬ d ∣ 51 → ¬ d ∣ 15 → d = 255 := by decide +kernel
  exact hdivisors _ (Nat.mem_divisors.2 ⟨(hdvd 255).2 lfsrAfter_255_seed, by decide⟩)
    (mt (hdvd 85).1 h85) (mt (hdvd 51).1 h51) (mt (hdvd 15).1 h15)

theorem lfsrAfter_seed_injOn : Set.InjOn (lfsrAfter · handshakeSeed) (Set.Iio 255) := by
  simp only [lfsrAfter_eq_iterate, ← minimalPeriod_seed]
  exact Function.iterate_injOn_Iio_minimalPeriod

/-- From 0 the register would not come back to the seed. -/
theorem lfsrAfter_seed_ne_zero {n : Nat} (h : n ≤ 255) : lfsrAfter n handshakeSeed ≠ 0x00#8 := by
  intro hzero
  have hback := lfsrAfter_add n (255 - n) handshakeSeed
  rw [Nat.add_sub_cancel' h, lfsrAfter_255_seed, hzero, lfsrAfter_zero_eq] at hback
  exact absurd hback (by decide)

/-- The 255 states of the seed's cycle are distinct and not 0, so they are all of the 255 such states. -/
theorem exists_lfsrAfter_seed {r : Byte} (h : r ≠ 0x00#8) : ∃ n < 255, lfsrAfter n handshakeSeed = r := by
  have hmaps : ∀ n ∈ Finset.range 255, (lfsrAfter n handshakeSeed).toNat ∈ Finset.Ico 1 256 := fun n hn =>
    Finset.mem_Ico.2 ⟨Nat.pos_of_ne_zero fun hz =>
      lfsrAfter_seed_ne_zero (Finset.mem_range.1 hn).le (BitVec.eq_of_toNat_eq hz), BitVec.isLt _⟩
  have hinj : Set.InjOn (fun n => (lfsrAfter n handshakeSeed).toNat) (Finset.range 255) := by
    rw [Finset.coe_range]
    exact fun m hm n hn hmn => lfsrAfter_seed_injOn hm hn (BitVec.eq_of_toNat_eq hmn)
  have hr : r.toNat ∈ Finset.Ico 1 256 :=
    Finset.mem_Ico.2 ⟨Nat.pos_of_ne_zero fun hz => h (BitVec.eq_of_toNat_eq hz), r.isLt⟩
  obtain ⟨n, hn, hnr⟩ := Finset.surjOn_of_injOn_of_card_le _ hmaps hinj (by simp) hr
  exact ⟨n, Finset.mem_range.1 hn, BitVec.eq_of_toNat_eq hnr⟩

/-- Every state is 0 or on the seed's cycle. -/
theorem lfsrAfter_255 (r : Byte) : lfsrAfter 255 r = r := by
  by_cases hr : r = 0x00#8
  · rw [hr, lfsrAfter_zero_eq]
  · obtain ⟨n, _, rfl⟩ := exists_lfsrAfter_seed hr
    rw [← lfsrAfter_add, Nat.add_comm, lfsrAfter_add, lfsrAfter_255_seed]

theorem lfsrAfter_add_255 (k : Nat) (r : Byte) : lfsrAfter (k + 255) r = lfsrAfter k r := by
  rw [lfsrAfter_add, lfsrAfter_255]

/-- Settles O12: 255 steps change no state. -/
theorem lfsrPeriod : Obligations.LfsrPeriod :=
  ⟨lfsrAfter_add_255, fun k n r => by rw [lfsrAfter_add_255]⟩

/-- Settles O11: 0 is a fixed point, the cycle of the seed holds every other state, and the values that R171 lists are
evaluated. -/
theorem lfsrCycle : Obligations.LfsrCycle := by
  have hdistinct : ∀ n < 255, 0 < n → lfsrAfter n handshakeSeed ≠ handshakeSeed := fun n hn hpos hback =>
    hpos.ne' (lfsrAfter_seed_injOn hn (by decide) hback)
  exact ⟨fun n => ⟨lfsrAfter_zero_eq n, lfsrBits_zero_eq n⟩, fun r => exists_lfsrAfter_seed, hdistinct,
    lfsrAfter_255_seed, fun k => congrArg lfsrBit (lfsrAfter_add_255 k _), by decide +kernel, by decide +kernel,
    by decide +kernel, by decide +kernel, by decide +kernel, by decide +kernel⟩

end Sys2Proof.Machine
end

section
/-! HANDSHAKE (spec/44_handshake.md R190 to R195): its stream, and how steps 7 to 9 end, by the bits that are still to
come. -/

namespace Sys2Proof.Machine

open Sys2Proof

/-! ## The bytes and bits of the sequence -/

theorem handshakeStream_length : handshakeStream.length = 509 := by
  rw [handshakeStream, List.length_append, List.length_cons, List.length_map, lfsrBits_length, List.length_replicate]

/-- Settles O37: the pattern and the response are the two halves of the first 500 bits, and a word is 11 bytes. -/
theorem streamShapes : Obligations.StreamShapes := by
  have hpattern : (lfsrBits 500 handshakeSeed).take 250 = lfsrBits 250 handshakeSeed :=
    lfsrBits_take (by decide) handshakeSeed
  have hresponse : (lfsrBits 500 handshakeSeed).drop 250 = responseBits := by
    rw [lfsrBits_add 250 250, List.drop_left' (lfsrBits_length 250 _), responseBits]
  refine ⟨handshakeStream_length, ?_, hresponse.symm, fun cfg kind size image => ?_⟩
  · rw [show (0x50#8 : Byte) = handshakeSeed from rfl, hpattern]
    rfl
  · rw [loadStream, loadBytes_length, imageWords_length]

theorem responseBits_take {i : Nat} (hi : i ≤ 250) :
    responseBits.take i = lfsrBits i (lfsrAfter 250 handshakeSeed) := lfsrBits_take hi _

theorem responseBits_getElem? {i : Nat} {b : Bool} (h : responseBits[i]? = some b) :
    i < 250 ∧ lfsrBit (lfsrAfter i (lfsrAfter 250 handshakeSeed)) = b := by
  have hi : i < 250 := by
    have := (List.getElem?_eq_some_iff.1 h).1
    rwa [responseBits, lfsrBits_length] at this
  rw [responseBits, lfsrBits_getElem? hi] at h
  exact ⟨hi, Option.some.inj h⟩

/-! ## The bits of the version -/

theorem bit8_getLsbD (b : Bool) (i : Nat) : (bit8 b).getLsbD i = (b && decide (i = 0)) := by
  cases b <;> simp [bit8]

/-- A version bit pushes the others down by one. -/
theorem accumulateVersion_getLsbD (acc : Byte) (b : Bool) {i : Nat} (hi : i < 8) :
    (accumulateVersion acc b).getLsbD i = if i = 7 then b else acc.getLsbD (i + 1) := by
  rw [accumulateVersion, BitVec.getLsbD_or, BitVec.getLsbD_ushiftRight, BitVec.getLsbD_shiftLeft, bit8_getLsbD,
    Nat.add_comm 1 i]
  split
  case isTrue h => simp [h]
  case isFalse h => simp [show i < 7 by omega]

/-- The bits received take the upper places in their order, and push what was there down by as many. -/
theorem foldl_accumulateVersion_getLsbD (bits : List Bool) (acc : Byte) {i : Nat} (hi : i < 8) :
    (bits.foldl accumulateVersion acc).getLsbD i =
      if i + bits.length < 8 then acc.getLsbD (i + bits.length) else bits.getD (i + bits.length - 8) false := by
  induction bits generalizing acc with
  | nil => simp [hi]
  | cons b bits ih =>
    rw [List.foldl_cons, ih, List.length_cons]
    rcases Nat.lt_trichotomy (i + bits.length) 7 with hlt | heq | hgt
    · rw [if_pos (by omega), if_pos (by omega), accumulateVersion_getLsbD _ _ (by omega), if_neg (by omega)]
      rfl
    · rw [if_pos (by omega), if_neg (by omega), accumulateVersion_getLsbD _ _ (by omega), if_pos heq,
        show i + (bits.length + 1) - 8 = 0 by omega]
      rfl
    · rw [if_neg (by omega), if_neg (by omega), show i + (bits.length + 1) - 8 = (i + bits.length - 8) + 1 by omega]
      rfl

/-- Settles O38: eight bits take all eight places, in their order. -/
theorem versionBitsArriveLsbFirst : Obligations.VersionBitsArriveLsbFirst := by
  refine fun v => BitVec.eq_of_getLsbD_eq fun i hi => ?_
  rw [versionOf, foldl_accumulateVersion_getLsbD _ _ hi]
  simp [hi]

/-! ## Steps 7 and 8 as a whole -/

section receiving

variable {s t u : State} {pre tail rest : List (List Byte)}

/-- The answers that a stretch of receiving took from those before `tail`. -/
theorem Refilled.exists_taken {w : Word} {left : List (List Byte)} (h : Refilled w s t) (hs : s.answers = pre ++ tail)
    (ht : t.answers = left ++ tail) : ∃ taken, pre = taken ++ left := by
  obtain ⟨taken, htaken, _⟩ := h.events
  rw [hs, ht, ← List.append_assoc] at htaken
  exact ⟨taken, List.append_cancel_right htaken⟩

theorem lfsrNext_lfsrAfter (i : Nat) (r : Byte) : lfsrNext (lfsrAfter i r) = lfsrAfter (i + 1) r :=
  (lfsrAfter_add i 1 r).symm

/-- The `i`-th response bit is the first that differs. -/
theorem verifyResponse_mismatch_at {n i : Nat} (hi : i < n) (h : RxOk s) (hs : s.answers = pre ++ tail)
    (hpre : Refills s.cfg pre) {b : Bool} {more : List Bool} (hne : lfsrBit (lfsrAfter i s.lfsr) = !b)
    (hb : incomingBits s pre = lfsrBits i s.lfsr ++ b :: more) :
    ∃ u left, verifyResponse n s = .fail .error { u with hsState := .error } ∧
      Refilled 100#32 { s with lfsr := lfsrAfter (i + 1) s.lfsr } u ∧ u.answers = left ++ tail ∧
      incomingBits u left = more := by
  obtain ⟨k, rfl⟩ := Nat.exists_eq_add_of_lt hi
  obtain ⟨v, mid, hmatch, hv, hvans, hmid, hvbits⟩ := verifyResponse_match i (k + 1) h hs hpre hb
  have hlfsr : v.lfsr = lfsrAfter i s.lfsr := by rw [hv.frame]
  rw [← hlfsr] at hne
  obtain ⟨u, left, hfail, hu, huans, hubits⟩ :=
    verifyResponse_mismatch k hv.ok hvans (by rw [hv.cfg_eq]; exact hmid) hne hvbits
  rw [hlfsr, lfsrNext_lfsrAfter] at hu
  exact ⟨u, left, hmatch.trans hfail, (hv.withLfsr _).trans hu, huans, hubits⟩

/-- Silence before the `i`-th response bit. -/
theorem verifyResponse_timeout_at {n i : Nat} (hi : i < n) (h : RxOk s) (hs : s.answers = pre ++ [] :: rest)
    (hpre : Refills s.cfg pre) (hb : incomingBits s pre = lfsrBits i s.lfsr) :
    ∃ u, verifyResponse n s = .fail .timeout { u with hsState := .timeout } ∧
      Refilled 100#32 { s with lfsr := lfsrAfter i s.lfsr } u ∧ u.answers = rest ∧ u.rxcur = 0 ∧ u.rxlen = 0 := by
  obtain ⟨k, rfl⟩ := Nat.exists_eq_add_of_lt hi
  obtain ⟨v, mid, hmatch, hv, hvans, hmid, hvbits⟩ :=
    verifyResponse_match i (k + 1) h hs hpre (hb.trans (List.append_nil _).symm)
  obtain ⟨u, hfail, hu, hends⟩ := verifyResponse_timeout k hv.ok hvans (by rw [hv.cfg_eq]; exact hmid) hvbits
  exact ⟨u, hmatch.trans hfail, hv.trans hu, hends⟩

/-- All eight version bits come. -/
theorem receiveVersion_done {vbits : List Bool} (hlen : vbits.length = 8) (h : RxOk s) (hs : s.answers = pre ++ tail)
    (hpre : Refills s.cfg pre) {more : List Bool} (hb : incomingBits s pre = vbits ++ more) :
    ∃ u left, receiveVersion 8 0x00#8 s = .done (versionOf vbits) u ∧ Refilled 50#32 s u ∧
      u.answers = left ++ tail ∧ incomingBits u left = more := by
  obtain ⟨u, left, hbits, hu, huans, _, hubits⟩ := receiveVersion_bits vbits 0 (acc := 0x00#8) h hs hpre hb
  rw [Nat.add_zero, hlen] at hbits
  exact ⟨u, left, hbits, hu, huans, hubits⟩

/-- Silence before all eight version bits have come. -/
theorem receiveVersion_timeout_at {vbits : List Bool} (hlen : vbits.length < 8) (h : RxOk s)
    (hs : s.answers = pre ++ [] :: rest) (hpre : Refills s.cfg pre) (hb : incomingBits s pre = vbits) :
    ∃ u, receiveVersion 8 0x00#8 s = .fail .timeout { u with hsState := .timeout } ∧ Refilled 50#32 s u ∧
      u.answers = rest ∧ u.rxcur = 0 ∧ u.rxlen = 0 := by
  obtain ⟨k, hk⟩ := Nat.exists_eq_add_of_lt hlen
  obtain ⟨v, mid, hbits, hv, hvans, hmid, hvbits⟩ :=
    receiveVersion_bits vbits (k + 1) (acc := 0x00#8) h hs hpre (hb.trans (List.append_nil _).symm)
  obtain ⟨u, hfail, hu, hends⟩ := receiveVersion_timeout k hv.ok hvans (by rw [hv.cfg_eq]; exact hmid) hvbits
  rw [← Nat.add_assoc, ← hk] at hbits
  exact ⟨u, hbits.trans hfail, hv.trans hu, hends⟩

/-! ## The rule -/

/-- The state in which step 8 begins. -/
def versionStarted (s : State) : State := { progress .versionStart 0#32 0#32 s with hsState := .versionAwaited }

theorem handshakeFromResponse_done {n : Nat} (h : verifyResponse n s = .done () t) :
    handshakeFromResponse n s = (receiveVersion 8 0x00#8 (versionStarted t)).bind finishHandshake := by
  rw [handshakeFromResponse, h]
  rfl

theorem handshakeFromResponse_fail {n : Nat} {st : Status} (h : verifyResponse n s = .fail st t) :
    handshakeFromResponse n s = .fail st t := by
  rw [handshakeFromResponse, h]
  rfl

/-- A HANDSHAKE that ended with the version `v` (spec/44_handshake.md R190 step 9). -/
def handshakeLinked (v : Byte) (s : State) : State :=
  complete .ok (v.setWidth 32)
    { progress .handshakeDone 0#32 0#32 s with hsState := .done, version := v, sess := .linked }

/-- A HANDSHAKE that ended with the status `st` in the handshake state `y` (spec/44_handshake.md R194). -/
def handshakeFailed (st : Status) (y : HsState) (s : State) : State := complete st 0#32 { s with hsState := y }

theorem settle_finishHandshake {v : Byte} {x : Flow Byte} (h : x = .done v t) :
    settle .handshake (x.bind finishHandshake) = .next (handshakeLinked v t) := by
  rw [h]
  rfl

theorem settle_fail_version {st : Status} {y : HsState} {x : Flow Byte} (h : x = .fail st { t with hsState := y }) :
    settle .handshake (x.bind finishHandshake) = .next (handshakeFailed st y t) := by
  rw [h]
  rfl

theorem settle_fail_response {n : Nat} {st : Status} {y : HsState}
    (h : verifyResponse n s = .fail st { t with hsState := y }) :
    settle .handshake (handshakeFromResponse n s) = .next (handshakeFailed st y t) := by
  rw [handshakeFromResponse_fail h]
  rfl

/-! ## What a HANDSHAKE has shown and written -/

/-- `t` is `s` inside a HANDSHAKE that has sent its stream in `payloads`, then taken the answers `taken`, with the LFSR
at `x`, in the handshake state `y`, the events so far `shown`. -/
structure Synchronizing (s t : State) (x : Byte) (y : HsState) (payloads taken : List (List Byte))
    (shown : List Event) : Prop where
  frame : t = { s with
    lfsr := x, txbuf := t.txbuf, txcur := 0, rxbuf := t.rxbuf, rxcur := t.rxcur, rxlen := t.rxlen, hsState := y,
    busy := true, answers := t.answers, trace := shown }
  ok : RxOk t
  sent : payloads.flatten = pendingBytes s ++ handshakeStream
  sizes : ∀ p ∈ payloads, 1 ≤ p.length ∧ p.length ≤ s.cfg.txCap
  stored : ∀ a, (∀ i < 509, a ≠ appendAddress s i) → readByte t.txbuf a = readByte s.txbuf a
  kept : ∀ a, (∀ ans ∈ taken, ans.length ≤ a) → readByte t.rxbuf a = readByte s.rxbuf a

/-- The events of steps 1 to 6, behind those before the command (spec/44_handshake.md R190). -/
def connectEvents (s : State) (payloads : List (List Byte)) : List Event :=
  s.trace ++ [.progress .handshakeStart 0#32 0#32, .treset] ++ payloads.map .ttransmit ++
    [.progress .responseStart 0#32 0#32]

section progress

variable {x : Byte} {y : HsState} {payloads taken : List (List Byte)} {shown : List Event}

theorem Synchronizing.cfg_eq (h : Synchronizing s t x y payloads taken shown) : t.cfg = s.cfg := by rw [h.frame]

theorem Synchronizing.lfsr_eq (h : Synchronizing s t x y payloads taken shown) : t.lfsr = x := by rw [h.frame]

/-- A stretch of receiving, with the LFSR stepped on to `z`. -/
theorem Synchronizing.refilled {w : Word} {z : Byte} {more : List (List Byte)}
    (h : Synchronizing s t x y payloads taken shown) (hr : Refilled w { t with lfsr := z } u)
    (hmore : t.answers = more ++ u.answers) :
    Synchronizing s u z y payloads (taken ++ more) (shown ++ more.map (.treceive s.cfg.rxCap w)) := by
  obtain ⟨hframe, hkeep⟩ := hr.of_taken hmore
  have htxbuf : u.txbuf = t.txbuf := by rw [hframe]
  refine ⟨?_, hr.ok, h.sent, h.sizes, fun a ha => ?_, fun a ha => ?_⟩
  · rw [h.frame, ← htxbuf] at hframe
    exact hframe
  · rw [htxbuf]
    exact h.stored a ha
  · rw [hkeep a fun ans hans => ha ans (List.mem_append_right _ hans)]
    exact h.kept a fun ans hans => ha ans (List.mem_append_left _ hans)

/-- A stretch of receiving, with the LFSR as it was. -/
theorem Synchronizing.received {w : Word} {more : List (List Byte)}
    (h : Synchronizing s t x y payloads taken shown) (hr : Refilled w t u) (hmore : t.answers = more ++ u.answers) :
    Synchronizing s u x y payloads (taken ++ more) (shown ++ more.map (.treceive s.cfg.rxCap w)) := by
  have hsame : { t with lfsr := x } = t := by rw [← h.lfsr_eq]
  exact h.refilled (by rw [hsame]; exact hr) hmore

theorem Synchronizing.versionStarted (h : Synchronizing s t x y payloads taken shown) :
    Synchronizing s (versionStarted t) x .versionAwaited payloads taken
      (shown ++ [.progress .versionStart 0#32 0#32]) :=
  ⟨congrArg Machine.versionStarted h.frame, h.ok.of_same rfl rfl rfl rfl, h.sent, h.sizes, h.stored, h.kept⟩

end progress

/-- Steps 1 to 6 of HANDSHAKE: the stream is sent, and everything that will be received is still to come. -/
theorem handshake_connects (hready : Ready .handshake s) (htx : TxOk s) (hrx : RxOk s) (hr : CallsReturn s) :
    ∃ c payloads, exec .handshake s = settle .handshake (handshakeFromResponse 250 c) ∧
      Synchronizing s c (lfsrAfter 250 handshakeSeed) .responseVerifying payloads [] (connectEvents s payloads) ∧
      c.answers = s.answers ∧ ∀ answers, incomingBits c answers = incomingBits s answers := by
  obtain ⟨c, payloads, hsend, hc⟩ := sendConnect_spec (s := accept s) (htx.of_same rfl rfl rfl) hr
  have hreturns : (accept s).returns.drop (1 + payloads.length) = s.returns := by
    rw [accept_returns, show s.returns = [] from hr, List.drop_nil]
  have hframe := hc.frame
  rw [hreturns] at hframe
  have hans : c.answers = s.answers := by rw [hframe]; rfl
  have hrxbuf : c.rxbuf = s.rxbuf := by rw [hframe]; rfl
  have hrxcur : c.rxcur = s.rxcur := by rw [hframe]; rfl
  have hrxlen : c.rxlen = s.rxlen := by rw [hframe]; rfl
  refine ⟨c, payloads, ?_, ⟨?_, hc.rxOk hrx.accept, hc.sent, hc.sizes, hc.stored, fun a _ => by rw [hrxbuf]⟩, hans,
    fun answers => by rw [hframe]; rfl⟩
  · calc exec .handshake s = settle .handshake (handshakeRule (accept s)) := exec_ready (i := .handshake) hready
      _ = settle .handshake (handshakeFromResponse 250 c) := by rw [handshakeRule, hsend, Flow.bind_done]
  · rw [hrxbuf, hrxcur, hrxlen, hans]
    exact hframe

/-- Steps 1 to 7 of HANDSHAKE with the correct echo. -/
theorem handshake_echoed (hready : Ready .handshake s) (htx : TxOk s) (hrx : RxOk s) (hr : CallsReturn s)
    (hs : s.answers = pre ++ tail) (hpre : Refills s.cfg pre) {more : List Bool}
    (hb : incomingBits s pre = responseBits ++ more) :
    ∃ v payloads taken left,
      exec .handshake s = settle .handshake ((receiveVersion 8 0x00#8 v).bind finishHandshake) ∧
      Synchronizing s v 0x14#8 .versionAwaited payloads taken
        (connectEvents s payloads ++ taken.map (.treceive s.cfg.rxCap 100#32) ++
          [.progress .versionStart 0#32 0#32]) ∧
      pre = taken ++ left ∧ v.answers = left ++ tail ∧ Refills v.cfg left ∧ incomingBits v left = more := by
  obtain ⟨c, payloads, hexec, hc, hans, hbits⟩ := handshake_connects hready htx hrx hr
  obtain ⟨u, left, hmatch, hu, huans, hleft, hubits⟩ := verifyResponse_match 250 0 hc.ok (hans.trans hs)
    (by rw [hc.cfg_eq]; exact hpre) ((hbits pre).trans (by rw [hb, hc.lfsr_eq, responseBits]))
  obtain ⟨taken, rfl⟩ := hu.exists_taken (hans.trans hs) huans
  have h500 : lfsrAfter 250 c.lfsr = 0x14#8 := by rw [hc.lfsr_eq]; decide +kernel
  rw [h500] at hu
  have hsync := (hc.refilled hu (more := taken) (by rw [hans, hs, huans, List.append_assoc])).versionStarted
  refine ⟨versionStarted u, payloads, taken, left, ?_, hsync, rfl, huans, ?_, hubits⟩
  · rw [hexec, handshakeFromResponse_done hmatch]
  · rw [hsync.cfg_eq, ← hc.cfg_eq]
    exact hleft

end receiving

/-! ## The command -/

/-- Settles O34: the echo and then the version are received, and step 9 does the rest. -/
theorem handshakeSucceeds : Obligations.HandshakeSucceeds := by
  intro s vbits more pre tail hready htx hrx hr hs hpre hlen hb
  obtain ⟨v, payloads, taken₁, mid, hexec, hv, rfl, hvans, hmid, hvbits⟩ :=
    handshake_echoed hready htx hrx hr hs hpre (hb.trans (List.append_assoc ..))
  obtain ⟨u, left, hdone, hu, huans, hubits⟩ := receiveVersion_done hlen hv.ok hvans hmid hvbits
  obtain ⟨taken₂, rfl⟩ := hu.exists_taken hvans huans
  have ht := hv.received hu (more := taken₂) (by rw [hvans, huans, List.append_assoc])
  have hframe := ht.frame
  rw [huans] at hframe
  have hlast (l : List Event) (e e' : Event) : l ++ [e, e'] = l ++ [e] ++ [e'] := by simp
  refine ⟨handshakeLinked (versionOf vbits) u, payloads, taken₁, taken₂, left,
    hexec.trans (settle_finishHandshake hdone), ?_, ht.sent, ht.sizes, (List.append_assoc ..).symm, hubits,
    ht.ok.of_same rfl rfl rfl rfl, ht.stored, ht.kept⟩
  rw [hlast]
  exact congrArg (handshakeLinked (versionOf vbits)) hframe

/-- Settles O35: the bits before the `i`-th agree, and the `i`-th does not. -/
theorem handshakeMismatch : Obligations.HandshakeMismatch := by
  intro s i b more pre tail hready htx hrx hr hs hpre hdiffers hb
  obtain ⟨hi, hbit⟩ := responseBits_getElem? hdiffers
  obtain ⟨c, payloads, hexec, hc, hans, hbits⟩ := handshake_connects hready htx hrx hr
  obtain ⟨u, left, hfail, hu, huans, hubits⟩ := verifyResponse_mismatch_at hi hc.ok (hans.trans hs)
    (by rw [hc.cfg_eq]; exact hpre) (by rw [hc.lfsr_eq]; exact hbit)
    ((hbits pre).trans (by rw [hb, hc.lfsr_eq, responseBits_take hi.le]))
  obtain ⟨taken, rfl⟩ := hu.exists_taken (hans.trans hs) huans
  rw [hc.lfsr_eq, ← lfsrAfter_add, show 250 + (i + 1) = 251 + i by omega] at hu
  have ht := hc.refilled hu (more := taken) (by rw [hans, hs, huans, List.append_assoc])
  have hframe := ht.frame
  rw [huans] at hframe
  exact ⟨handshakeFailed .error .error u, payloads, taken, left, hexec.trans (settle_fail_response hfail),
    congrArg (handshakeFailed .error .error) hframe, ht.sent, ht.sizes, rfl, hubits,
    ht.ok.of_same rfl rfl rfl rfl, ht.stored, ht.kept⟩

/-- Settles O36: the bits before the silence agree in step 7 and are accumulated in step 8, and the empty answer ends
either. -/
theorem handshakeTimesOut : Obligations.HandshakeTimesOut := by
  intro s pre rest hready htx hrx hr hs hpre
  have hs' : s.answers = (pre ++ [[]]) ++ rest := by rw [hs, List.append_assoc]; rfl
  have hshorter {a : Nat} (ha : ∀ ans ∈ pre, ans.length ≤ a) : ∀ ans ∈ pre ++ [[]], ans.length ≤ a := by
    simpa [or_imp, forall_and] using ha
  refine ⟨fun i hi hb => ?_, fun vbits hlen hb => ?_⟩
  · obtain ⟨c, payloads, hexec, hc, hans, hbits⟩ := handshake_connects hready htx hrx hr
    obtain ⟨u, hfail, hu, huans, hcur, hlen⟩ := verifyResponse_timeout_at hi hc.ok (hans.trans hs)
      (by rw [hc.cfg_eq]; exact hpre) ((hbits pre).trans (by rw [hb, hc.lfsr_eq, responseBits_take hi.le]))
    rw [hc.lfsr_eq, ← lfsrAfter_add] at hu
    have ht := hc.refilled hu (more := pre ++ [[]]) (by rw [hans, hs', huans])
    have hframe := ht.frame
    rw [huans, hcur, hlen] at hframe
    exact ⟨handshakeFailed .timeout .timeout u, payloads, hexec.trans (settle_fail_response hfail),
      congrArg (handshakeFailed .timeout .timeout) hframe, ht.sent, ht.sizes, ht.stored,
      fun a ha => ht.kept a (hshorter ha)⟩
  · obtain ⟨v, payloads, taken₁, mid, hexec, hv, rfl, hvans, hmid, hvbits⟩ :=
      handshake_echoed hready htx hrx hr hs hpre hb
    obtain ⟨u, hfail, hu, huans, hcur, hlen⟩ := receiveVersion_timeout_at hlen hv.ok hvans hmid hvbits
    have ht := hv.received hu (more := mid ++ [[]]) (by rw [hvans, huans, List.append_assoc]; rfl)
    have hframe := ht.frame
    rw [huans, hcur, hlen] at hframe
    refine ⟨handshakeFailed .timeout .timeout u, payloads, taken₁, mid ++ [[]],
      hexec.trans (settle_fail_version hfail), congrArg (handshakeFailed .timeout .timeout) hframe, ht.sent,
      List.append_assoc .., ht.sizes, ht.stored, fun a ha => ht.kept a ?_⟩
    rw [← List.append_assoc]
    exact hshorter ha

end Sys2Proof.Machine
end

section
/-! WAIT_FOR_ACK (spec/45_ack_retry.md R220 to R222): the first probe behind the pending bytes, then silent attempts up to
the answer that ends the wait. -/

namespace Sys2Proof.Machine

open Sys2Proof

/-- `t` is `s` after a WaitForAck whose first probe went out behind the pending bytes, in the TTransmits of `payloads`, and
whose last answer `last` came behind so many silent attempts. -/
structure AttemptsEnded (s t : State) (payloads : List (List Byte)) (silent : Nat) (last : List Byte)
    (rest : List (List Byte)) : Prop where
  frame : t = { s with
    txbuf := t.txbuf, txcur := 0, answers := rest,
    trace := s.trace ++ payloads.map .ttransmit ++ (attemptEvents (List.replicate silent [] ++ [last])).drop 1 }
  sent : payloads.flatten = pendingBytes s ++ [calibrationByte]
  sizes : ∀ p ∈ payloads, 1 ≤ p.length ∧ p.length ≤ s.cfg.txCap
  stored : ∀ a, a ≠ appendAddress s 0 → silent = 0 ∨ a ≠ 0 → readByte t.txbuf a = readByte s.txbuf a

section waiting

variable {s t u : State} {n : Word} {silent : Nat} {last : List Byte} {rest : List (List Byte)}

/-- The first probe, then the attempts from its TReceive on. -/
theorem AttemptsEnded.of_awaited (hr : CallsReturn s) (hprobe : Appended s u [calibrationByte]) (h0 : u.txcur = 0)
    (hstored : ∀ a, a ≠ appendAddress s 0 → readByte u.txbuf a = readByte s.txbuf a)
    (hwait : Awaited u t silent last rest) : ∃ payloads, AttemptsEnded s t payloads silent last rest := by
  obtain ⟨payloads, htrace, hsent, hsizes⟩ := hprobe.payloads h0
  refine ⟨payloads, ?_, hsent, hsizes, fun a ha hsilent => (hwait.stored a hsilent).trans (hstored a ha)⟩
  have hu : u = { s with txbuf := u.txbuf, txcur := 0, trace := s.trace ++ payloads.map .ttransmit } := by
    have hreturns : u.returns = s.returns := (hprobe.returns_nil hr).trans hr.symm
    rw [← h0, ← htrace]
    simpa [hreturns] using hprobe.frame
  have ht := hwait.frame
  rw [hu] at ht
  exact ht

/-- A budget of 0 makes no attempt (notes/assumptions/9.md). -/
theorem waitForAck_zero (at_ : Nat → Pending) (s : State) : waitForAck at_ 0 s = .fail .timeout s := if_pos rfl

/-! ## The command -/

theorem exec_waitForAck (hready : Ready .waitForAck s) :
    exec (.waitForAck n) s = settle .waitForAck
      ((waitForAck .waitForAck n.toNat (accept s)).bind fun _ t => .done 0#32 t) :=
  exec_ready (i := .waitForAck n) hready

/-- WAIT_FOR_ACK ends OK where its wait ends. -/
theorem exec_waitForAck_done (hready : Ready .waitForAck s)
    (h : waitForAck .waitForAck n.toNat (accept s) = .done () t) :
    exec (.waitForAck n) s = .next (complete .ok 0#32 t) :=
  (exec_waitForAck hready).trans (settle_operation h)

/-- WAIT_FOR_ACK ends with the status that its wait raises. -/
theorem exec_waitForAck_fail {st : Status} (hready : Ready .waitForAck s)
    (h : waitForAck .waitForAck n.toNat (accept s) = .fail st t) :
    exec (.waitForAck n) s = .next (complete st 0#32 t) := by
  rw [exec_waitForAck hready, h, Flow.bind_fail, settle_fail]

/-- WAIT_FOR_ACK with a budget sends its first probe and then waits with nothing pending and every answer still to come;
it ends as that wait does, which `x` says. -/
theorem waitForAck_ends {x : State → Flow Unit} (hn : n.toNat ≠ 0) (htx : TxOk s) (hr : CallsReturn s)
    (hawait : ∀ u, TxOk u → u.txcur = 0 → CallsReturn u → u.answers = s.answers →
      ∃ t, awaitAck .waitForAck u.answers n.toNat u = x t ∧ Awaited u t silent last rest) :
    ∃ t payloads, waitForAck .waitForAck n.toNat (accept s) = x t ∧
      AttemptsEnded (accept s) t payloads silent last rest := by
  obtain ⟨u, hrun, hprobe, h0, hstored⟩ :=
    waitForAck_spec .waitForAck hn (s := accept s) (htx.of_same rfl rfl rfl) hr
  have hanswers : u.answers = s.answers := by rw [hprobe.frame]; rfl
  obtain ⟨t, hends, hwait⟩ := hawait u hprobe.ok h0 (hprobe.returns_nil hr) hanswers
  obtain ⟨payloads, ht⟩ := AttemptsEnded.of_awaited (s := accept s) hr hprobe h0 hstored hwait
  exact ⟨t, payloads, hrun.trans hends, ht⟩

end waiting

/-- Settles O31: the attempts before the ACK are silent, and the ACK ends the wait. -/
theorem waitForAckAcknowledged : Obligations.WaitForAckAcknowledged := by
  intro s n silent rest hready htx hr hbudget hs
  obtain ⟨t, payloads, hdone, ht⟩ := waitForAck_ends (x := .done ()) (Nat.ne_zero_of_lt hbudget) htx hr
    fun u hok h0 hur hu => awaitAck_ack .waitForAck silent rest hok h0 hur hbudget (hu.trans hs)
  exact ⟨complete .ok 0#32 t, payloads, exec_waitForAck_done hready hdone,
    congrArg (complete .ok 0#32) ht.frame, ht.sent, ht.sizes, ht.stored⟩

/-- Settles O32: the attempts before the byte are silent, and the failure entry does the rest. -/
theorem waitForAckNak : Obligations.WaitForAckNak := by
  intro s n silent b rest hready htx hr hbudget hb hs
  obtain ⟨t, payloads, hfail, ht⟩ := waitForAck_ends (x := .fail .error) (Nat.ne_zero_of_lt hbudget) htx hr
    fun u hok h0 hur hu => awaitAck_nak .waitForAck silent rest hok h0 hur hbudget hb (hu.trans hs)
  exact ⟨complete .error 0#32 t, payloads, exec_waitForAck_fail hready hfail,
    congrArg (complete .error 0#32) ht.frame, ht.sent, ht.sizes, ht.stored⟩

/-- Settles O33: a budget of 0 fails before the first probe; any other ends at the empty answer of its last attempt. -/
theorem waitForAckSilence : Obligations.WaitForAckSilence := by
  intro s n rest hready htx hr hs
  refine ⟨fun hn => ?_, fun hn => ?_⟩
  · subst hn
    calc exec (.waitForAck 0#32) s = .next (complete .timeout 0#32 (accept s)) :=
          exec_waitForAck_fail hready (waitForAck_zero _ _)
      _ = .next (answered .timeout 0#32 { s with sess := .failed }) := rfl
  · have hbudget : n.toNat ≠ 0 := fun h => hn (BitVec.eq_of_toNat_eq h)
    obtain ⟨k, hk⟩ := Nat.exists_eq_succ_of_ne_zero hbudget
    rw [hk] at hs ⊢
    obtain ⟨t, payloads, hfail, ht⟩ := waitForAck_ends (x := .fail .timeout) hbudget htx hr fun u hok h0 hur hu => by
      rw [hk]
      exact awaitAck_silence .waitForAck k rest hok h0 hur (hu.trans hs)
    rw [List.replicate_succ']
    refine ⟨complete .timeout 0#32 t, payloads, exec_waitForAck_fail hready hfail,
      congrArg (complete .timeout 0#32) ht.frame, ht.sent, ht.sizes, fun a ha hsilent => ht.stored a ha ?_⟩
    refine hsilent.imp_left fun hone => ?_
    subst hone
    exact (Nat.succ.inj hk).symm

end Sys2Proof.Machine
end

section
/-! LOAD_IMAGE with its image held, refused or short-circuited, and SHUTDOWN (spec/46_load.md R240 to R245). -/

namespace Sys2Proof.Machine

open Sys2Proof

section loads

variable {s t u : State} {kind : LoadKind} {size : Word} {later : List Event} {failing rest : List (List Byte)}
  {st : Status}

/-! ## The size and the words -/

/-- Each check of R240 ends the rule before its first event. -/
theorem loadRule_refused (h : size.toNat % 4 ≠ 0 ∨ s.cfg.maxImage < size.toNat ∨ s.image.length < size.toNat) :
    loadRule kind size s = .fail .precond s := by
  unfold loadRule
  split
  · rfl
  · next haligned =>
    split
    · rfl
    · next hmax =>
      rcases h with h | h | h
      · exact absurd h haligned
      · exact absurd h hmax
      · exact if_pos h

theorem wordsFrom_of_held (hheld : s.imageHeld = true) (n o : Nat) : wordsFrom s n o = imageWords s.image n o :=
  if_pos hheld

theorem sentWords_wordsFrom (s : State) (size : Word) : SentWords s size (wordsFrom s (size.toNat / 4) 0) :=
  ⟨wordsFrom_length _ _ _, fun hheld => wordsFrom_of_held hheld _ _⟩

/-! ## An acknowledgement that does not succeed -/

/-- The status of a failed acknowledgement is one that makes the session FAILED (spec/60_exceptions.md R273). -/
theorem complete_ackFailure {budget : Nat} (hf : AckFailure budget failing st) (t : State) :
    complete st 0#32 t = answered st 0#32 { t with sess := .failed } := by
  cases hf with
  | nak => exact complete_error _ _
  | silence => exact complete_timeout _ _

/-- A phase that is not acknowledged ends the command, whatever would come behind it (R245 (e)). -/
theorem LoadSoFar.fails (h : LoadSoFar (accept s) t kind size later (failing ++ rest)) (hr : CallsReturn s)
    (phase : AckPhase) (hf : AckFailure (ackBudget phase) failing st) (next : Unit → State → Flow Word) :
    ∃ v, settle .loadImage ((loadAck phase kind size t).bind next) = .next v ∧
      LoadEnded s v kind size (wordsFrom s (size.toNat / 4) 0) (later ++ attemptEvents failing) .failed st rest := by
  obtain ⟨u, hu, hp⟩ := loadAck_fails phase kind size hf rest h.ok h.txcur_eq (h.returns_eq.trans hr) h.answers_eq
  refine ⟨answered st 0#32 { u with sess := .failed }, ?_, (h.phase hp).ended st .failed⟩
  rw [hu, Flow.bind_fail, settle_fail, complete_ackFailure hf]

/-! ## LOAD_IMAGE up to each of its acknowledgements -/

section phases

variable (hready : Ready .loadImage s) (htx : TxOk s) (hr : CallsReturn s) (haligned : size.toNat % 4 = 0)
  (hmax : size.toNat ≤ s.cfg.maxImage) (himage : size.toNat ≤ s.image.length)
include hready htx hr haligned hmax himage

theorem loadImage_to_program :
    ∃ t, exec (.loadImage kind size) s =
        settle .loadImage ((loadAck .program kind size t).bind fun _ t => afterAck .program kind size t) ∧
      LoadSoFar (accept s) t kind size [] s.answers := by
  obtain ⟨t, hrun, ht⟩ :=
    loadRule_starts (kind := kind) (s := accept s) (htx.of_same rfl rfl rfl) hr haligned hmax himage
  exact ⟨t, (exec_ready (i := .loadImage kind size) hready).trans (congrArg _ hrun), ht⟩

theorem loadImage_to_write {silent : Nat} (hkind : hasEeprom kind = true) (hk : silent < 400)
    (ha : s.answers = ackAnswers silent ++ rest) :
    ∃ t, exec (.loadImage kind size) s =
        settle .loadImage ((loadAck .eepromWrite kind size t).bind fun _ t => loadVerify kind size t) ∧
      LoadSoFar (accept s) t kind size
        (attemptEvents (ackAnswers silent) ++ [.progress .eepromWrite 0#32 size]) rest := by
  obtain ⟨t, hrun, ht⟩ := loadImage_to_program (kind := kind) hready htx hr haligned hmax himage
  rw [ha] at ht
  obtain ⟨u, hu, hpu⟩ := ht.acked hr .program hk
  refine ⟨_, ?_, hpu.report .eepromWrite⟩
  rw [hrun, hu, Flow.bind_done, afterAck_program, hkind]
  rfl

theorem loadImage_to_verify {silent₁ silent₂ : Nat} (hkind : hasEeprom kind = true) (hk₁ : silent₁ < 400)
    (hk₂ : silent₂ < 200) (ha : s.answers = ackAnswers silent₁ ++ (ackAnswers silent₂ ++ rest)) :
    ∃ t, exec (.loadImage kind size) s =
        settle .loadImage ((loadAck .eepromVerify kind size t).bind fun _ t => finishLoad size t) ∧
      LoadSoFar (accept s) t kind size
        (attemptEvents (ackAnswers silent₁) ++ [.progress .eepromWrite 0#32 size] ++
          attemptEvents (ackAnswers silent₂) ++ [.progress .eepromVerify 0#32 size]) rest := by
  obtain ⟨t, hrun, ht⟩ := loadImage_to_write hready htx hr haligned hmax himage hkind hk₁ ha
  obtain ⟨u, hu, hpu⟩ := ht.acked hr .eepromWrite hk₂
  refine ⟨_, ?_, hpu.report .eepromVerify⟩
  rw [hrun, hu, Flow.bind_done, loadVerify]

end phases

/-! ## SHUTDOWN -/

/-- Where everything appended was also flushed and every call returned, the transmit buffer and the TTransmits are all that
differs. -/
theorem Appended.all_sent {bs : List Byte} (h : Appended s t bs) (hz : t.txcur = 0) (hr : CallsReturn s) :
    ∃ payloads : List (List Byte),
      t = { s with txbuf := t.txbuf, txcur := 0, trace := s.trace ++ payloads.map .ttransmit } ∧
      payloads.flatten = pendingBytes s ++ bs ∧ ∀ p ∈ payloads, 1 ≤ p.length ∧ p.length ≤ s.cfg.txCap := by
  obtain ⟨payloads, htrace, hsent, hsizes⟩ := h.payloads hz
  refine ⟨payloads, ?_, hsent, hsizes⟩
  have hreturns : t.returns = s.returns := (h.returns_nil hr).trans hr.symm
  have hframe := h.frame
  rwa [hz, hreturns, htrace] at hframe

/-- The rule of SHUTDOWN appends the Shutdown word, flushes and ends the session. -/
theorem shutdownRule_spec (h : TxOk s) (hr : CallsReturn s) :
    ∃ t, shutdownRule s = .done 0#32 { t with sess := .done } ∧ t.txcur = 0 ∧
      Appended s t (encodeWord (kindWord .shutdown s)) ∧
      ∀ a, (∀ i < 11, a ≠ appendAddress s i) → readByte t.txbuf a = readByte s.txbuf a := by
  obtain ⟨u, hu, hword, hplaced⟩ := appendWord_spec (kindWord .shutdown s) h hr
  obtain ⟨t, ht, hflushed⟩ := flush_spec hword.ok (hword.returns_nil hr)
  refine ⟨t, ?_, hflushed.cursor, ?_, fun a ha => ?_⟩
  · rw [shutdownRule, hu, Flow.bind_done, ht, Flow.bind_done]
  · simpa using hword.trans hflushed.appended
  · rw [hflushed.txbuf, hplaced.stored a ha]

end loads

/-! ## The statements -/

/-- Settles O25: the Shutdown word goes out with the pending bytes, and the session ends. -/
theorem shutdownSendsTheShutdownWord : Obligations.ShutdownSendsTheShutdownWord := by
  refine ⟨fun s hready htx hr => ?_, by decide⟩
  obtain ⟨t, hrun, hz, happended, hstored⟩ := shutdownRule_spec (s := accept s) (htx.of_same rfl rfl rfl) hr
  obtain ⟨payloads, hframe, hsent, hsizes⟩ := happended.all_sent hz hr
  refine ⟨answered .ok 0#32 { t with sess := .done }, payloads, ?_,
    congrArg (fun t : State => answered .ok 0#32 { t with sess := .done }) hframe, hsent, hsizes, hstored⟩
  calc exec .shutdown s = settle .shutdown (shutdownRule (accept s)) := exec_ready (i := .shutdown) hready
    _ = .next (answered .ok 0#32 { t with sess := .done }) := by rw [hrun, settle_done, complete_ok]

/-- Settles O39: a load without EEPROM waits for one acknowledgement, and the words of a held image are its own. -/
theorem loadImageWithOneAck : Obligations.LoadImageWithOneAck := by
  intro s kind size silent rest hready htx hr hkind haligned hmax himage hheld hk ha
  rw [← wordsFrom_of_held hheld]
  exact loadImage_one_ack hready htx hr (hasEeprom_false hkind) haligned hmax himage hk ha

/-- Settles O40: a load with EEPROM waits for three, and the words of a held image are its own. -/
theorem loadImageWithThreeAcks : Obligations.LoadImageWithThreeAcks := by
  intro s kind size silent₁ silent₂ silent₃ rest hready htx hr hkind haligned hmax himage hheld hk₁ hk₂ hk₃ ha
  rw [← wordsFrom_of_held hheld]
  exact loadImage_three_acks hready htx hr (hasEeprom_true hkind) haligned hmax himage hk₁ hk₂ hk₃ ha

/-- Settles O41: the load runs up to the acknowledgement that fails, whose status ends it. -/
theorem loadImageShortCircuits : Obligations.LoadImageShortCircuits := by
  intro s kind size failing rest st hready htx hr haligned hmax himage
  have hwords := sentWords_wordsFrom s size
  refine ⟨fun hf ha => ?_, fun silent₁ hkind hk₁ hf ha => ?_, fun silent₁ silent₂ hkind hk₁ hk₂ hf ha => ?_⟩
  · obtain ⟨t, hrun, ht⟩ := loadImage_to_program hready htx hr haligned hmax himage
    rw [ha] at ht
    obtain ⟨v, hv, hend⟩ := ht.fails hr .program hf _
    exact ⟨v, _, hrun.trans hv, hwords, hend⟩
  · rw [List.append_assoc] at ha
    obtain ⟨t, hrun, ht⟩ := loadImage_to_write hready htx hr haligned hmax himage (hasEeprom_true hkind) hk₁ ha
    obtain ⟨v, hv, hend⟩ := ht.fails hr .eepromWrite hf _
    exact ⟨v, _, hrun.trans hv, hwords, hend⟩
  · rw [List.append_assoc, List.append_assoc] at ha
    obtain ⟨t, hrun, ht⟩ := loadImage_to_verify hready htx hr haligned hmax himage (hasEeprom_true hkind) hk₁ hk₂ ha
    obtain ⟨v, hv, hend⟩ := ht.fails hr .eepromVerify hf _
    exact ⟨v, _, hrun.trans hv, hwords, hend⟩

/-- Settles O42: the rule raises PRECOND in the state of acceptance. -/
theorem loadImageChecksTheSize : Obligations.LoadImageChecksTheSize := by
  intro s kind size hready h
  calc exec (.loadImage kind size) s = settle .loadImage (loadRule kind size (accept s)) :=
        exec_ready (i := .loadImage kind size) hready
    _ = .next (complete .precond 0#32 (accept s)) := by rw [loadRule_refused (s := accept s) h, settle_fail]
    _ = .next (answered .precond 0#32 s) := by rw [complete_precond, answered_accept]

end Sys2Proof.Machine
end

section
/-! Refusals and the way out of FAILED (spec/60_exceptions.md R272 to R274): what the parts of a command raise, where a
command is refused, and what runs in FAILED. -/

namespace Sys2Proof.Machine

open Sys2Proof

/-! ## The statuses that the parts of a command raise -/

/-- Every status that the flow raises has the property, with the state it is raised in. -/
def Flow.raises {α : Type} (x : Flow α) (P : Status → State → Prop) : Prop :=
  match x with
  | .fail st s => P st s
  | .done _ _ => True
  | .wait _ => True
  | .hung _ => True
  | .fault _ => True
  | .refused _ => True

/-- The flow raises no status but TIMEOUT and ERROR. -/
abbrev Flow.raisesFailures {α : Type} (x : Flow α) : Prop := x.raises fun st _ => isFailure st = true

theorem Flow.raises_bind {α β : Type} {x : Flow α} {f : α → State → Flow β} {P : Status → State → Prop}
    (hx : x.raises P) (hf : ∀ a s, (f a s).raises P) : (x.bind f).raises P := by
  cases x with
  | done a s => exact hf a s
  | fail st s => exact hx
  | _ => trivial

theorem Flow.raises_mono {α : Type} {x : Flow α} {P Q : Status → State → Prop} (hx : x.raises P)
    (h : ∀ st s, P st s → Q st s) : x.raises Q := by
  cases x with
  | fail st s => exact h st s hx
  | _ => trivial

/-- Neither where a command waits nor what it still writes at a failure changes the status raised. -/
theorem Flow.raisesFailures_waitingAs {α : Type} {x : Flow α} (hx : x.raisesFailures) (p : Pending) :
    (x.waitingAs p).raisesFailures := by
  cases x with
  | fail st s => exact hx
  | _ => trivial

theorem Flow.raisesFailures_onFail {α : Type} {x : Flow α} (hx : x.raisesFailures) (f : State → State) :
    (x.onFail f).raisesFailures := by
  cases x with
  | fail st s => exact hx
  | _ => trivial

section silent

/-! The parts that raise no status at all have every property of `Flow.raises`. -/

variable {P : Status → State → Prop}

theorem callTransport_raises (e : Event) (s : State) : (callTransport e s).raises P := by
  unfold callTransport
  split <;> trivial

theorem flush_raises (s : State) : (flush s).raises P := by
  unfold flush
  split
  · trivial
  · split
    · exact Flow.raises_bind (callTransport_raises _ s) fun _ _ => trivial
    · trivial

theorem writeTx_raises (a : Nat) (b : Byte) (s : State) : (writeTx a b s).raises P := by
  unfold writeTx
  split <;> trivial

theorem appendByte_raises (b : Byte) (s : State) : (appendByte b s).raises P := by
  refine Flow.raises_bind ?_ fun _ t => Flow.raises_bind (writeTx_raises _ b t) fun _ _ => trivial
  split
  · exact flush_raises s
  · trivial

theorem appendBytes_raises (bs : List Byte) (s : State) : (appendBytes bs s).raises P := by
  induction bs generalizing s with
  | nil => trivial
  | cons b bs ih => exact Flow.raises_bind (appendByte_raises b s) fun _ t => ih t

theorem appendWord_raises (v : Word) (s : State) : (appendWord v s).raises P := appendBytes_raises _ s

theorem sendProbe_raises (s : State) : (sendProbe s).raises P :=
  Flow.raises_bind (appendByte_raises _ s) fun _ t => flush_raises t

theorem sendPattern_raises (n : Nat) (s : State) : (sendPattern n s).raises P := by
  induction n generalizing s with
  | zero => trivial
  | succ n ih => exact Flow.raises_bind (appendByte_raises _ _) fun _ t => ih t

theorem sendConnect_raises (s : State) : (sendConnect s).raises P :=
  Flow.raises_bind (callTransport_raises _ _) fun _ _ => Flow.raises_bind (appendByte_raises _ _) fun _ _ =>
    Flow.raises_bind (sendPattern_raises _ _) fun _ _ => Flow.raises_bind (appendBytes_raises _ _) fun _ _ =>
      Flow.raises_bind (flush_raises _) fun _ _ => trivial

theorem readImage_raises (a : Nat) (s : State) : (readImage a s).raises P := by
  unfold readImage
  split <;> trivial

theorem imageWord_raises (o : Nat) (s : State) : (imageWord o s).raises P := by
  unfold imageWord
  split
  · exact Flow.raises_bind (readImage_raises _ _) fun _ _ => Flow.raises_bind (readImage_raises _ _) fun _ _ =>
      Flow.raises_bind (readImage_raises _ _) fun _ _ => Flow.raises_bind (readImage_raises _ _) fun _ _ => trivial
  · trivial

theorem streamWords_raises (n o : Nat) (size : Word) (s : State) : (streamWords n o size s).raises P := by
  induction n generalizing o s with
  | zero => trivial
  | succ n ih =>
    exact Flow.raises_bind (imageWord_raises _ _) fun v t => Flow.raises_bind (appendWord_raises v t) fun _ u => ih _ u

theorem sendImage_raises (kind : LoadKind) (size : Word) (s : State) : (sendImage kind size s).raises P :=
  Flow.raises_bind (appendWord_raises _ s) fun _ t => Flow.raises_bind (appendWord_raises _ t) fun _ u =>
    Flow.raises_bind (streamWords_raises _ _ _ u) fun _ v => flush_raises v

theorem shutdownRule_raises (s : State) : (shutdownRule s).raises P :=
  Flow.raises_bind (appendWord_raises _ s) fun _ t => Flow.raises_bind (flush_raises t) fun _ _ => trivial

theorem tReceive_raises (n : Nat) (w : Word) (a : List Byte) (rest : List (List Byte)) (s : State) :
    (tReceive n w a rest s).raises P := by
  unfold tReceive
  split <;> trivial

theorem scanWindow_raises (n : Nat) (s : State) : (scanWindow n s).raises P := by
  rcases scanWindow_cases n s with ⟨found, c, -, hscan⟩ | ⟨e, hscan⟩
  all_goals rw [show scanWindow n s = _ from hscan s.answers]; trivial

end silent

/-! The parts that wait for the transport raise TIMEOUT or ERROR. -/

theorem receiveBitOver_raisesFailures (w : Word) (answers : List (List Byte)) (s : State) :
    (receiveBitOver w answers s).raisesFailures := by
  induction answers generalizing s with
  | nil =>
    refine Flow.raises_bind (scanWindow_raises _ s) fun found t => ?_
    cases found <;> trivial
  | cons a rest ih =>
    refine Flow.raises_bind (scanWindow_raises _ s) fun found t => ?_
    cases found with
    | some b => trivial
    | none =>
      refine Flow.raises_bind (tReceive_raises _ w a rest t) fun _ u => ?_
      dsimp only
      split
      · exact rfl
      · exact ih _

theorem receiveBitRule_raisesFailures (w : Word) (s : State) : (receiveBitRule w s).raisesFailures :=
  Flow.raises_bind (Flow.raisesFailures_waitingAs (receiveBitOver_raisesFailures w _ s) _) fun _ _ => trivial

theorem awaitAck_raisesFailures (at_ : Nat → Pending) (answers : List (List Byte)) (k : Nat) (s : State) :
    (awaitAck at_ answers k s).raisesFailures := by
  induction answers generalizing k s with
  | nil => trivial
  | cons a rest ih =>
    refine Flow.raises_bind (tReceive_raises _ _ a rest s) fun _ t => ?_
    cases a with
    | cons b bs =>
      dsimp only
      split
      · trivial
      · exact rfl
    | nil =>
      dsimp only
      split
      · exact rfl
      · exact Flow.raises_bind (sendProbe_raises t) fun _ u => ih _ u

theorem waitForAck_raisesFailures (at_ : Nat → Pending) (n : Nat) (s : State) :
    (waitForAck at_ n s).raisesFailures := by
  unfold waitForAck
  split
  · exact rfl
  · exact Flow.raises_bind (sendProbe_raises s) fun _ t => awaitAck_raisesFailures _ _ _ t

theorem hsReceive_raisesFailures (w : Word) (p : Pending) (s : State) :
    (((receiveBit w s).waitingAs p).onFail handshakeTimeout).raisesFailures :=
  Flow.raisesFailures_onFail (Flow.raisesFailures_waitingAs (receiveBitOver_raisesFailures w _ s) p) _

theorem verifyResponse_raisesFailures (n : Nat) (s : State) : (verifyResponse n s).raisesFailures := by
  induction n generalizing s with
  | zero => trivial
  | succ n ih =>
    refine Flow.raises_bind (hsReceive_raisesFailures _ _ s) fun b t => ?_
    dsimp only
    split
    · exact ih _
    · exact rfl

theorem receiveVersion_raisesFailures (n : Nat) (acc : Byte) (s : State) :
    (receiveVersion n acc s).raisesFailures := by
  induction n generalizing acc s with
  | zero => trivial
  | succ n ih => exact Flow.raises_bind (hsReceive_raisesFailures _ _ s) fun b t => ih _ t

theorem handshakeRule_raisesFailures (s : State) : (handshakeRule s).raisesFailures :=
  Flow.raises_bind (sendConnect_raises s) fun _ t => Flow.raises_bind (verifyResponse_raisesFailures _ t) fun _ _ =>
    Flow.raises_bind (receiveVersion_raisesFailures _ _ _) fun _ _ => trivial

section load

variable (kind : LoadKind) (size : Word)

theorem loadVerify_raisesFailures (s : State) : (loadVerify kind size s).raisesFailures :=
  Flow.raises_bind (waitForAck_raisesFailures _ _ _) fun _ _ => trivial

theorem loadWrite_raisesFailures (s : State) : (loadWrite kind size s).raisesFailures :=
  Flow.raises_bind (waitForAck_raisesFailures _ _ _) fun _ t => loadVerify_raisesFailures kind size t

theorem loadSequence_raisesFailures (s : State) : (loadSequence kind size s).raisesFailures := by
  refine Flow.raises_bind (sendImage_raises kind size s) fun _ t =>
    Flow.raises_bind (waitForAck_raisesFailures _ _ t) fun _ u => ?_
  rw [afterAck_program]
  split
  · exact loadWrite_raisesFailures kind size u
  · trivial

end load

/-! ## Where a command is refused -/

/-- A status other than TIMEOUT and ERROR is raised in the state in which the flow was run. -/
abbrev Flow.refusesAtOnce {α : Type} (x : Flow α) (s : State) : Prop :=
  x.raises fun st t => isFailure st = true ∨ t = s

theorem Flow.raisesFailures.refusesAtOnce {α : Type} {x : Flow α} (hx : x.raisesFailures) (s : State) :
    x.refusesAtOnce s := Flow.raises_mono hx fun _ _ => .inl

/-- LOAD_IMAGE checks the size before all else (spec/46_load.md R240). -/
theorem loadRule_refusesAtOnce (kind : LoadKind) (size : Word) (s : State) :
    (loadRule kind size s).refusesAtOnce s := by
  unfold loadRule
  split
  · exact .inr rfl
  split
  · exact .inr rfl
  split
  · exact .inr rfl
  exact (loadSequence_raisesFailures kind size s).refusesAtOnce s

/-- Only READ_REG and LOAD_IMAGE refuse by their rules, and both before they do anything. -/
theorem ruleOf_refusesAtOnce (i : Instr) (s : State) : (ruleOf i s).refusesAtOnce s := by
  cases i with
  | init => trivial
  | readReg index =>
    unfold ruleOf
    dsimp only
    split
    · trivial
    · exact .inr rfl
  | lfsrSeed seed => trivial
  | lfsrStep => trivial
  | appendByte byte => exact Flow.raises_bind (appendByte_raises byte s) fun _ _ => trivial
  | appendWord value => exact Flow.raises_bind (appendWord_raises value s) fun _ _ => trivial
  | flush => exact Flow.raises_bind (flush_raises s) fun _ _ => trivial
  | receiveBit w => exact (receiveBitRule_raisesFailures w s).refusesAtOnce s
  | handshake => exact (handshakeRule_raisesFailures s).refusesAtOnce s
  | waitForAck n =>
    exact Flow.raises_bind ((waitForAck_raisesFailures _ _ s).refusesAtOnce s) fun _ _ => trivial
  | loadImage kind size => exact loadRule_refusesAtOnce kind size s
  | shutdown => exact shutdownRule_raises s

/-- A command that its rule suspends is still in progress. -/
theorem ruleOf_busy (i : Instr) {s : State} (hb : s.busy = true) :
    (ruleOf i s).leaves (fun _ _ => True) fun t => t.busy = true := by
  by_cases hi : i = .init
  · subst hi
    exact trivial
  · exact Flow.leaves_mono (ruleOf_writes hi hb) (fun _ _ _ => trivial) fun _ h => h.busy

/-- A command whose rule runs and that ends PRECOND or ILLEGAL leaves the state in which it was accepted. -/
theorem settle_refusal {i : Instr} {s t : State} (h : settle i.opcode (ruleOf i (accept s)) = .next t)
    (hend : t.busy = false) (hst : t.lastStatus = .precond ∨ t.lastStatus = .illegal) :
    t = answered t.lastStatus 0#32 s := by
  have hbusy := ruleOf_busy i (s := accept s) rfl
  rcases settle_next h with ⟨data, v, -, rfl⟩ | ⟨st, v, hrun, rfl⟩ | hrun | ⟨v, hrun, rfl⟩
  · simp at hst
  · have hraise := ruleOf_refusesAtOnce i (accept s)
    rw [hrun] at hraise
    rw [complete_lastStatus] at hst ⊢
    rcases hst with rfl | rfl
    all_goals
      have hv : v = accept s := hraise.resolve_left (by decide)
      rw [hv]
      rfl
  · rw [hrun] at hbusy
    exact absurd (hbusy.symm.trans hend) (by decide)
  · rw [hrun] at hbusy
    exact absurd (hbusy.symm.trans hend) (by decide)

/-- Settles O45: the word is illegal, the session does not allow the command, or its rule refuses it at once. -/
theorem refusalChangesOnlyLastStatus : Obligations.RefusalChangesOnlyLastStatus := by
  intro s t word hb h hend hst
  unfold runWord at h
  split at h
  · next i _ =>
    rw [exec_eq_dispatch] at h
    rcases dispatch_cases i.opcode (ruleOf i) s with ⟨hbusy, -⟩ | ⟨-, -, hgated⟩ | ⟨-, hrun⟩
    · exact absurd (hb.symm.trans hbusy) (by decide)
    · cases hgated.symm.trans h
      rfl
    · exact settle_refusal (hrun.symm.trans h) hend hst
  · have hill : dispatchIllegal s = .next (complete .illegal 0#32 (accept s)) := by simp [dispatchIllegal, hb]
    cases hill.symm.trans h
    rfl

/-! ## In FAILED -/

theorem not_allowed_failed {op : Opcode} (hinit : op ≠ .init) (hread : op ≠ .readReg) :
    allowed op .failed = false := by
  cases op with
  | init => exact absurd rfl hinit
  | readReg => exact absurd rfl hread
  | _ => rfl

/-- In FAILED every command but INIT and READ_REG ends PRECOND. -/
theorem exec_failed {i : Instr} {s : State} (hs : s.sess = .failed) (hb : s.busy = false) (hinit : i.opcode ≠ .init)
    (hread : i.opcode ≠ .readReg) : exec i s = .next (answered .precond 0#32 s) :=
  exec_gated hb (by rw [hs, not_allowed_failed hinit hread])

/-- No command is in progress in FAILED: none that waits is sound there, and none that calls the transport is
allowed. -/
theorem Sound.ready_of_failed {s : State} (h : Sound s) (hs : s.sess = .failed) : s.busy = false := by
  rw [h.busyRunning, Option.isSome_eq_false_iff, Option.isNone_iff_eq_none, Option.eq_none_iff_forall_ne_some]
  intro p hp
  have hsound := h.waits p hp
  cases p with
  | receiveBit w =>
    obtain ⟨-, hne, -⟩ := hsound
    exact hne hs
  | response n =>
    obtain ⟨-, -, -, -, hready, -⟩ := hsound
    exact Sess.noConfusion (hs.symm.trans hready)
  | version n acc =>
    obtain ⟨-, -, -, -, hready, -⟩ := hsound
    exact Sess.noConfusion (hs.symm.trans hready)
  | waitForAck k =>
    obtain ⟨-, -, -, hne, -⟩ := hsound
    exact hne hs
  | load phase kind size k =>
    obtain ⟨-, -, -, hlinked, -⟩ := hsound
    exact Sess.noConfusion (hs.symm.trans hlinked)
  | hung op =>
    obtain ⟨hcalls, hallowed, -⟩ := hsound
    rw [hs, not_allowed_failed (by rintro rfl; cases hcalls) (by rintro rfl; cases hcalls)] at hallowed
    cases hallowed

/-- The command of a step with BUSY = 0 is the host's next move. -/
theorem commandOf_ready {s : State} {op : Opcode} (hb : s.busy = false) (h : commandOf s = some op) :
    ∃ word image held rest i,
      s.host = .command word image held :: rest ∧ decode word = .ok i ∧ i.opcode = op := by
  rw [commandOf, hb] at h
  split at h
  · cases h
  · simp only [Bool.false_eq_true, if_false] at h
    split at h
    · next word image held rest hh =>
      split at h
      · next i hi => exact ⟨word, image, held, rest, i, hh, hi, Option.some.inj h⟩
      · cases h
    · cases h

/-- A step in FAILED on a command but INIT and READ_REG ends it PRECOND. -/
theorem step_failed {s t : State} {op : Opcode} (hsound : Sound s) (hs : s.sess = .failed) (hc : commandOf s = some op)
    (hinit : op ≠ .init) (hread : op ≠ .readReg) (h : step s = .next t) : t.lastStatus = .precond := by
  have hb := hsound.ready_of_failed hs
  obtain ⟨word, image, held, rest, i, hh, hi, rfl⟩ := commandOf_ready hb hc
  have hstep : step s = .next (answered .precond 0#32 (presented image held rest s)) :=
    (stepRunsTheDecodedCommand s word image held rest i hh hb hi).trans (exec_failed hs hb hinit hread)
  cases hstep.symm.trans h
  rfl

/-- Settles O55: the ways of R24 into LINKED and DONE are commands that end OK, which FAILED does not allow. -/
theorem failedIsLeftOnlyByInit : Obligations.FailedIsLeftOnlyByInit := by
  refine ⟨fun i s hs hb hinit hread => exec_failed hs hb hinit hread, fun s t hsound hs h hleft => ?_⟩
  have notOk : ∀ op, commandOf s = some op → op ≠ .init → op ≠ .readReg → t.lastStatus ≠ .ok :=
    fun op hc hinit hread => by simp [step_failed hsound hs hc hinit hread h]
  obtain ⟨-, -, -, -, hchange⟩ := sessionChangesOnlyWhereListed s t h
  rcases hchange (hs ▸ hleft) with ⟨-, hway⟩ | ⟨-, hc, hok, -⟩ | ⟨-, hc | hc, hok, -⟩ | ⟨hfailed, -⟩
  · exact hway
  · exact absurd hok (notOk _ hc (by decide) (by decide))
  · exact absurd hok (notOk _ hc (by decide) (by decide))
  · exact absurd hok (notOk _ hc (by decide) (by decide))
  · exact absurd hfailed hleft

end Sys2Proof.Machine
end

section
/-! Reset and waiting for a command (spec/70_reset_and_hazards.md R300 to R302): the values a block reset leaves, and that
they meet the invariant. -/

namespace Sys2Proof.Machine

open Sys2Proof

/-! ## The reset state -/

/-- A memory that lists no byte reads as its reset contents everywhere (R300). -/
@[simp] theorem readByte_nil (a : Nat) : readByte [] a = 0x00#8 := rfl

/-- At reset the transmit buffer is empty (R31), so that of R8 it needs only room for one byte. -/
theorem State.resetOf_txOk {cfg : Config} (h : 1 ≤ cfg.txCap) : TxOk (State.resetOf cfg) where
  cap := h
  cur := Nat.zero_le _
  mem := (State.resetOf_memory_wf cfg).1
  below := rfl

/-- At reset the receive window is empty (R32), so that of R8 it needs only room for one byte. -/
theorem State.resetOf_rxOk {cfg : Config} (h : 1 ≤ cfg.rxCap) : RxOk (State.resetOf cfg) where
  cap := h
  cur := Nat.le_refl _
  len := Nat.zero_le _
  mem := (State.resetOf_memory_wf cfg).2
  below := rfl

/-- No command runs at reset and no event is made, so that what is left of the invariant is the two buffers and Idle in
READY. -/
theorem State.resetOf_sound {cfg : Config} (h : cfg.wf) : Sound (State.resetOf cfg) where
  cfgOk := h
  tx := State.resetOf_txOk h.1
  rx := State.resetOf_rxOk h.2.1
  busyRunning := rfl
  waits := nofun
  hs := .inl rfl
  events := nofun

/-- The spec's test configuration is in the ranges of R8. -/
theorem configTest_wf : Config.test.wf := by decide

/-! ## The statements -/

/-- Settles O13: the registers are set one by one, and both buffers list no byte. -/
theorem resetLeavesZeroState : Obligations.ResetLeavesZeroState :=
  fun _ => ⟨rfl, rfl, readByte_nil, readByte_nil, rfl, rfl, rfl, rfl, rfl, rfl, rfl⟩

/-- Settles O14: a step on a block reset is `blockReset`, whatever BUSY and the command in progress are. -/
theorem blockResetStep : Obligations.BlockResetStep :=
  fun _ _ hh => step_resets hh

/-- Settles O48: a step with no move to make and no command in progress leaves the state. -/
theorem stepWaitsForACommand : Obligations.StepWaitsForACommand :=
  fun _ hh hb => step_idle hh hb

/-- Settles O53, for every instance and so for the test configuration. -/
theorem resetIsSound : Obligations.ResetIsSound :=
  ⟨fun _ h => State.resetOf_sound h, State.resetOf_sound configTest_wf⟩

end Sys2Proof.Machine
end
